-- ==== Sys2Proof/Word.lean ====
section
/-! DEFINITION. The word types of the block (spec/00_scope.md R17, spec/10_state.md R43). Everything that takes a
word apart or puts one together stands in Machine/Bits.lean and Decode.lean. -/

namespace Sys2Proof

/-- `byte`: 8-bit unsigned (R17). One port event moves one (20_memory.md R104). -/
abbrev Byte := BitVec 8

/-- `addr16`: a 16-bit logical address of space L, or a 16-bit port address of space P (R17, R80). -/
abbrev Addr := BitVec 16

/-- A host register and a command word: 32 bits (R43, R130). -/
abbrev Word := BitVec 32

end Sys2Proof
end

