-- ==== Sys2Proof/Syntax.lean ====
section
/-! DEFINITION. The command set (spec/30_encoding.md R130, R131): one constructor per row of spec/opcode_table.json.
A word that is none of these is ILLEGAL (R132 to R134); the step runs it, and it is no instruction of the table. -/

namespace Sys2Proof

/-- A command. The channel number is CH, an index (0..31 in a word, R130), and the duty is DUTY, the raw byte that the
command writes (R135). -/
inductive Instr where
  /-- UPDATE: refresh the four sensor arrays (41_update.md R200). -/
  | update
  /-- SETCTL ch, duty: set a manual duty override (42_fan_control.md R260). -/
  | setctl (ch : Nat) (duty : Byte)
  /-- CLRCTL ch: clear the override and restore (42_fan_control.md R268). -/
  | clrctl (ch : Nat)
  /-- DUMP: read the diagnostic dump (43_dump.md R300). -/
  | dump
  deriving DecidableEq, Repr

end Sys2Proof
end

