-- ==== Sys2Proof/WellFormed.lean ====
section
/-! DEFINITION. Which commands have a word: those whose channel number fits the 5-bit field CH
(spec/30_encoding.md R130, R146). The duty is a byte by its type. -/

namespace Sys2Proof

/-- CH is an unsigned 5-bit field, 0..31 (30_encoding.md R130); an assembler refuses any other channel (R146). -/
def Instr.wf : Instr → Bool
  | .update => true
  | .setctl ch _ => decide (ch < 32)
  | .clrctl ch => decide (ch < 32)
  | .dump => true

end Sys2Proof
end

