-- ==== Sys2Proof/Decode.lean ====
section
/-! DEFINITION. The decoder of command words, total on all 2^32 words (spec/30_encoding.md R130 to R137), and the
encoder (R146). -/

namespace Sys2Proof

/-- The two ways in which a word is ILLEGAL (30_encoding.md R133, R134). -/
inductive DecodeReject where
  /-- Opcode 0x0 or 0x5..0xF (R133). -/
  | reservedOpcode
  /-- A defined opcode whose must-be-zero field is not 0 (R134). -/
  | mustBeZero
  deriving DecidableEq, Repr

/-- OP = w[3:0] (R130). -/
def fieldOp (w : Word) : BitVec 4 := w.extractLsb' 0 4

/-- CH = zext_5(w[12:8]) (R135). -/
def fieldCh (w : Word) : Nat := (w.extractLsb' 8 5).toNat

/-- DUTY = zext_8(w[23:16]) (R135). -/
def fieldDuty (w : Word) : Byte := w.extractLsb' 16 8

/-- One line of the opcode map (R131): the word matches when `w & mask = value`. -/
structure OpcodeRow where
  mask : Word
  value : Word
  deriving DecidableEq, Repr

def rowUpdate : OpcodeRow := ⟨0xFFFFFFFF, 0x00000001⟩
def rowSetctl : OpcodeRow := ⟨0xFF00E0FF, 0x00000002⟩
def rowClrctl : OpcodeRow := ⟨0xFFFFE0FF, 0x00000003⟩
def rowDump : OpcodeRow := ⟨0xFFFFFFFF, 0x00000004⟩

/-- The opcode map of R131, in its order. -/
def opcodeRows : List OpcodeRow := [rowUpdate, rowSetctl, rowClrctl, rowDump]

/-- One test of the decoder (R132). -/
def rowMatches (r : OpcodeRow) (w : Word) : Bool := w &&& r.mask == r.value

/-- Why a word that passed no test is rejected (R133, R134). -/
def rejection (w : Word) : DecodeReject :=
  if fieldOp w = 0 ∨ 5 ≤ (fieldOp w).toNat then .reservedOpcode else .mustBeZero

/-- `decode` of 30_encoding.md R132; the rejections stand for its ILLEGAL. -/
def decode (w : Word) : Except DecodeReject Instr :=
  if rowMatches rowUpdate w then .ok .update
  else if rowMatches rowSetctl w then .ok (.setctl (fieldCh w) (fieldDuty w))
  else if rowMatches rowClrctl w then .ok (.clrctl (fieldCh w))
  else if rowMatches rowDump w then .ok .dump
  else .error (rejection w)

/-- `w = (DUTY << 16) | (CH << 8) | OP` (30_encoding.md R130). -/
def assembleWord (op : BitVec 4) (ch : Nat) (duty : Byte) : Word :=
  (duty.setWidth 32 <<< 16) ||| ((BitVec.ofNat 5 ch).setWidth 32 <<< 8) ||| op.setWidth 32

/-- The word of a command (30_encoding.md R146). -/
def encode : Instr → Word
  | .update => assembleWord 0x1 0 0
  | .setctl ch duty => assembleWord 0x2 ch duty
  | .clrctl ch => assembleWord 0x3 ch 0
  | .dump => assembleWord 0x4 0 0

/-- The instruction in a command whose bits, numbered as spec/opcode_table.json numbers them, are `w`; bits at `nbits`
and above are 0. A command is one 32-bit word (R137), so no byte order is involved (20_memory.md R103). -/
def decodeTableWord (nbits w : Nat) : Option Instr :=
  match decode (BitVec.ofNat 32 (w % 2 ^ nbits)) with
  | .ok i => some i
  | .error _ => none

end Sys2Proof
end

