-- ==== Sys2Proof/Machine/Bits.lean ====
section
/-! DEFINITION. Bit fields, sign extension and byte order (spec/00_scope.md R16, R17; spec/20_memory.md R89, R101). -/

namespace Sys2Proof.Machine

/-- `a[15:8]`: the bank or page of a logical address (20_memory.md R89). -/
def hiByte (a : Addr) : Byte := a.extractLsb' 8 8

/-- `a[7:0]`: the register or index of a logical address (20_memory.md R89). -/
def loByte (a : Addr) : Byte := a.extractLsb' 0 8

/-- `(a + 1) mod 2^16` (20_memory.md R101). -/
def nextAddr (a : Addr) : Addr := a + 1

/-- `(h << 8) | l` (20_memory.md R101). -/
def word16 (h l : Byte) : BitVec 16 := h ++ l

/-- `sext_8(b)` (00_scope.md R17). -/
def sext8 (b : Byte) : Int := b.toInt

/-- `v[i]` (00_scope.md R16). -/
def bitAt (v : Byte) (i : Nat) : Bool := v.getLsbD i

/-- A Bool as the number 0 or 1. -/
def bitNat (b : Bool) : Nat := if b then 1 else 0

/-- A one-bit field of a host word at bit `i` (20_memory.md R103). -/
def flagAt (i : Nat) (b : Bool) : Word := BitVec.ofNat 32 (bitNat b) <<< i

/-- A field of a host word whose lowest bit is bit `i`. -/
def fieldAt {n : Nat} (i : Nat) (v : BitVec n) : Word := v.setWidth 32 <<< i

end Sys2Proof.Machine
end

