-- ==== Sys2Proof/Config.lean ====
section
/-! DEFINITION. What an implementation of the block fixes (spec/00_scope.md R6 to R14: the chip-variant profiles and
the global parameters) as plain data, and the free values: constants without a body, of which nothing can be proved. -/

namespace Sys2Proof

/-- The families of 00_scope.md R8. -/
inductive Family where
  | unsupported
  | bankClassic
  | bankMultifan
  | bankLpc
  | ec
  deriving DecidableEq, Repr, Inhabited

/-- FAN_STRATEGY (R9). -/
inductive FanStrategy where
  | aCounter13
  | bPeriod16
  | cRpm16
  deriving DecidableEq, Repr, Inhabited

/-- An element of the EC_VFACTOR set of R11, named by D0's figure; the numbers are fields of `Literals`. -/
inductive VFactor where
  | x12
  | x5
  | x2
  | x1
  deriving DecidableEq, Repr, Inhabited

/-- EC_VOLT_LAYOUT (R10). -/
inductive EcVoltLayout where
  | hi8LoNib
  | hi4Lo8
  deriving DecidableEq, Repr, Inhabited

/-- FAN_A_LAYOUT (R10). -/
inductive FanALayout where
  | hi5Lo8
  | hi8Lo5
  deriving DecidableEq, Repr, Inhabited

/-- EC_RESTORE_RULE (R10). -/
inductive EcRestoreRule where
  | andNotSaved
  | andNotBit
  deriving DecidableEq, Repr, Inhabited

/-- What a bounded-wait `LockAcquire` returns (R19). -/
inductive LockOutcome where
  | ok
  | timeout
  deriving DecidableEq, Repr, Inhabited

/-- One voltage channel: VOLT_REG[i], and on EC its EC_VFACTOR[i] (R9). -/
structure VoltChannel where
  reg : Addr
  factor : VFactor := .x1
  deriving DecidableEq, Repr

/-- Position s of the temperature slot tables (R9): TEMP_REG, TEMP_HALF_REG, TEMP_HALF_BIT, TEMP_SRC_REG, and the
entries SRC_TABLE[s] and ALT_REG[s] of logical sensor s. DEDUCED, safe (log 10): one record per position in place of
parallel tables, whose lengths R12 makes equal. -/
structure TempSlot where
  reg : Addr
  halfReg : Addr := 0
  halfBit : Fin 8 := 0
  srcReg : Addr := 0
  srcId : Byte := 0
  alt : Option Addr := none
  deriving DecidableEq, Repr

/-- One control (PWM) channel: PWM_OUT_REG, PWM_CMD_REG, CTRL_MODE_REG and on EC PWM_REQ_REG (R9). -/
structure ControlChannel where
  outReg : Addr
  cmdReg : Addr
  modeReg : Addr
  reqReg : Addr := 0
  deriving DecidableEq, Repr

/-- One port event of UNLOCK_SEQ (40_internal_ops.md R178): `PW(p, v)` or `PR(p, _)`. -/
inductive UnlockEvent where
  | write (port : Addr) (value : Byte)
  | read (port : Addr)
  deriving DecidableEq, Repr

/-- The profile of one variant (R9). The channel counts nV, nT, nF, nC are the lengths of its tables (R12). -/
structure Profile where
  family : Family
  volts : List VoltChannel := []
  vbatAddr : Option Addr := none
  vbatCtrlReg : Addr := 0
  temps : List TempSlot := []
  fans : List Addr := []
  fanStrategy : FanStrategy := .cRpm16
  fanMinCount : BitVec 13 := 0
  fanMaxCount : BitVec 13 := 0
  /-- FAN_CLK, D0's figure as default. -/
  fanClk : Nat := 1350000
  fanMinRpm : BitVec 16 := 0
  ctrls : List ControlChannel := []
  reqLoad : Byte := 0
  reqApply : Byte := 0
  settleMs : Nat := 1
  hasVendorId : Bool := false
  vendorHiReg : Addr := 0
  vendorLoReg : Addr := 0
  vendorId : BitVec 16 := 0
  dumpWindows : List Addr := []
  /-- IO_LOCK_QUIRK: the revisions for which it is true. -/
  quirkRevisions : List Byte := []
  unlockSeq : List UnlockEvent := []
  deriving DecidableEq, Repr

/-- D0's numeric literals, which 00_scope.md R6 takes as configuration fields with D0's values as defaults (R11;
93_implementation_defined.md section 3; log 17). FAN_CLK is a field of the profile. -/
structure Literals where
  /-- V_STEP_BANK. -/
  vStepBank : ℚ := 8 / 1000
  /-- V_STEP_EC. -/
  vStepEc : ℚ := 1 / 1000
  /-- The EC_VFACTOR set. -/
  vFactor12 : Nat := 12
  vFactor5 : Nat := 5
  vFactor2 : Nat := 2
  vFactor1 : Nat := 1
  /-- EC_VOLT_BITS. -/
  ecVoltBits : Nat := 12
  /-- TEMP_MIN. -/
  tempMin : ℚ := -55
  /-- TEMP_MAX. -/
  tempMax : ℚ := 125
  /-- CTRL_DIV: percent = raw ÷ 2.55. -/
  ctrlDiv : ℚ := 255 / 100
  /-- FAN_A_BITS: a byte of 8 low bits and 5 more. -/
  fanABits : Nat := 13
  /-- FAN_BC_BITS. -/
  fanBcBits : Nat := 16
  /-- The last address of EC_DUMP_RANGE. Its width is that of an index of the dump buffer (R14). -/
  ecDumpLast : BitVec 12 := 0xFFF
  /-- DUMP_WINDOW_SIZE. -/
  windowSize : Nat := 16
  /-- nV, nT, nF, nC of the EC family (R9, R12). -/
  ecVolts : Nat := 14
  ecTemps : Nat := 7
  ecFans : Nat := 8
  ecCtrls : Nat := 8
  /-- nF and nC of the 5-fan variant (R9, R12). -/
  fiveFans : Nat := 5
  fiveCtrls : Nat := 5
  deriving DecidableEq, Repr

/-- One entry of `profile : Variant -> Profile` (R8, R9): a variant, named by its `variant_code` (10_state.md R51,
log 9), the lengths its sensor arrays are declared with (R12), and its profile. `fiveFan` marks "the 5-fan variant". -/
structure VariantEntry where
  code : Byte
  nV : Nat
  nT : Nat
  nF : Nat
  nC : Nat
  fiveFan : Bool := false
  profile : Profile
  deriving DecidableEq, Repr

/-- The implementation parameters: the global ones of R10 and the table of variants of R9. -/
structure Config where
  bankSelectCmd : Byte
  pageSelectCmd : Byte
  addrPortOff : Addr
  dataPortOff : Addr
  pagePortOff : Addr
  indexPortOff : Addr
  ecDataPortOff : Addr
  tUpdate : Nat
  tControl : Nat
  tDump : Nat
  tProbe : Nat
  ecVoltLayout : EcVoltLayout := .hi8LoNib
  fanALayout : FanALayout := .hi5Lo8
  ecTempGate : Bool := false
  ecRestoreRule : EcRestoreRule := .andNotSaved
  literals : Literals := {}
  variants : List VariantEntry
  deriving DecidableEq, Repr

/-! ## The spec's own size limits (R14) -/

/-- R14: nV, nT, nF, nC ≤ 32. -/
def Config.maxChannels : Nat := 32

/-- R14, R38: records of the dump buffer. -/
def Config.dumpRecords : Nat := 4096

/-- R14: windows of a bank variant's dump. -/
def Config.maxWindows : Nat := 256

/-! ## Free values -/

/-- A byte the chip answers where the state fixes none (20_memory.md R92; log 4). -/
opaque Config.freeByte : Nat → Byte

/-- A lock outcome where the state fixes none (20_memory.md R112; log 5). -/
opaque Config.freeLock : Nat → LockOutcome

/-- What STATUS bit 9 shows while SEQ = RESETTING, which no rule states (70_reset_and_hazards.md R366; log 11). -/
opaque Config.freeVok : Nat → Bool

/-- A result-word field of a value that the field's encoding does not cover (30_encoding.md R140 to R143; log 19). -/
opaque Config.freeField : ℚ → BitVec 31

/-- Which of the two nearest integers `round_nearest` gives for a number half-way between them (00_scope.md R17;
log 23). -/
opaque Config.freeTie : ℚ → Bool

/-- FAN_B_CONVERT of a variant: 16-bit period to a rational ≥ 0, OPEN (R9, 41_update.md R215; log 13). -/
opaque Config.fanBConvert : Byte → BitVec 16 → NNRat

/-! ## OPEN parameters at State.reset (log 7) -/

/-- The profile tables whose addresses are OPEN (92_eei_decisions.md D48). -/
inductive AddressTable where
  | voltReg
  | vbatCtrlReg
  | tempReg
  | fanReg
  | pwmOutReg
  | pwmCmdReg
  | ctrlModeReg
  | pwmReqReg
  deriving DecidableEq, Repr

opaque Config.openAddress : AddressTable → Nat → Addr
opaque Config.openVbatAddr : Option Addr
opaque Config.openVFactor : Nat → VFactor
opaque Config.openReqLoad : Byte
opaque Config.openReqApply : Byte
opaque Config.openSettleMs : Nat
opaque Config.openBankSelectCmd : Byte
opaque Config.openPageSelectCmd : Byte
opaque Config.openAddrPortOff : Addr
opaque Config.openDataPortOff : Addr
opaque Config.openPagePortOff : Addr
opaque Config.openIndexPortOff : Addr
opaque Config.openEcDataPortOff : Addr
opaque Config.openTUpdate : Nat
opaque Config.openTControl : Nat
opaque Config.openTDump : Nat
opaque Config.openTProbe : Nat

/-- The construction inputs present at State.reset (R7): which EC variant, which revision, which base (log 6). -/
opaque Config.openVariantCode : Byte
opaque Config.openRevision : Byte
opaque Config.openBase : Addr

/-- The EC profile as D0 gives it: 14, 7, 8 and 8 channels, strategy C, no identity registers (R9), every address and
code OPEN. SETTLE_MS is a positive integer. -/
def Config.ecProfile : Profile where
  family := .ec
  volts := (List.range 14).map fun i => ⟨Config.openAddress .voltReg i, Config.openVFactor i⟩
  vbatAddr := Config.openVbatAddr
  vbatCtrlReg := Config.openAddress .vbatCtrlReg 0
  temps := (List.range 7).map fun i => { reg := Config.openAddress .tempReg i }
  fans := (List.range 8).map fun i => Config.openAddress .fanReg i
  fanStrategy := .cRpm16
  ctrls := (List.range 8).map fun c =>
    { outReg := Config.openAddress .pwmOutReg c, cmdReg := Config.openAddress .pwmCmdReg c,
      modeReg := Config.openAddress .ctrlModeReg 0, reqReg := Config.openAddress .pwmReqReg c }
  reqLoad := Config.openReqLoad
  reqApply := Config.openReqApply
  settleMs := Config.openSettleMs + 1

/-- The implementation State.reset stands for: D0's defaults where D0 has one, an OPEN constant elsewhere, and the one
variant whose channel counts D0 gives in full. T_DUMP > T_UPDATE (R10). DESIGN CHOICE, unsafe (log 6, log 7). -/
def Config.implementation : Config where
  bankSelectCmd := Config.openBankSelectCmd
  pageSelectCmd := Config.openPageSelectCmd
  addrPortOff := Config.openAddrPortOff
  dataPortOff := Config.openDataPortOff
  pagePortOff := Config.openPagePortOff
  indexPortOff := Config.openIndexPortOff
  ecDataPortOff := Config.openEcDataPortOff
  tUpdate := Config.openTUpdate
  tControl := Config.openTControl
  tDump := Config.openTUpdate + 1 + Config.openTDump
  tProbe := Config.openTProbe
  variants := [{ code := Config.openVariantCode, nV := 14, nT := 7, nF := 8, nC := 8, profile := Config.ecProfile }]

end Sys2Proof
end

