-- ==== Sys2Proof/Machine/State.lean ====
section
/-! DEFINITION. The state of the block as plain data (spec/10_state.md), the environment it runs in (the chip behind
the ports, the bus lock's outcomes, the host's pending actions) and State.reset. -/

namespace Sys2Proof.Machine

/-! ## Downstream bus -/

/-- One event of the bus trace (20_memory.md R90). -/
inductive BusEvent where
  /-- `Acq(t, OK|TIMEOUT)`. -/
  | acq (t : Nat) (r : LockOutcome)
  /-- `Rel`. -/
  | rel
  /-- `PW(p, v)`. -/
  | pw (p : Addr) (v : Byte)
  /-- `PR(p, v)`, where v is the byte the chip returned. -/
  | pr (p : Addr) (v : Byte)
  /-- `Dly(ms)`. -/
  | dly (ms : Nat)
  deriving DecidableEq, Repr

/-- A byte memory as (address, byte) pairs in canonical form (`Memory.wf`, Machine/Memory.lean). The block has none of
its own (20_memory.md R80); a reference device model holds one. -/
abbrev Memory := List Host.Cell

/-- The bank-switched reference device model (20_memory.md R121) at the ports AP and DP. -/
structure BankDevice where
  ap : Addr
  dp : Addr
  selectCmd : Byte
  idx : Byte := 0
  bank : Byte := 0
  mem : Memory := []
  deriving DecidableEq, Repr

/-- The paged reference device model (20_memory.md R122) at the ports PP, IP and EDP. -/
structure PagedDevice where
  pp : Addr
  ip : Addr
  edp : Addr
  selectCmd : Byte
  armed : Bool := false
  page : Byte := 0
  idx : Byte := 0
  mem : Memory := []
  deriving DecidableEq, Repr

/-- What answers the block's port reads. DESIGN CHOICE, safe (log 4): an oracle whose next answers are listed, and free
after the list's end, covers every chip (R92); the two reference models are the spec's test devices. -/
inductive Chip where
  | oracle (answers : List Byte)
  | bank (d : BankDevice)
  | paged (d : PagedDevice)
  deriving DecidableEq, Repr

/-- The environment's share of a run: the chip, the outcomes of the coming lock acquisitions (free after the list's
end, R112, log 5), and the counter that free values are applied to. -/
structure Env where
  chip : Chip
  lockDraws : List LockOutcome
  drawn : Nat
  deriving DecidableEq, Repr

/-! ## Host side -/

/-- One host access to space H: its width in bits, its byte offset and, for a write, the word (20_memory.md R83). -/
inductive HostAccess where
  | read (bits offset : Nat)
  | write (bits offset : Nat) (value : Word)
  deriving DecidableEq, Repr

/-- The host's next action. DESIGN CHOICE, safe (log 1, log 2): the list of pending actions says which agent moves next. -/
inductive HostEvent where
  /-- An access to space H. -/
  | access (a : HostAccess)
  /-- Nothing yet: the block issues one bus event, or commits. -/
  | tick
  /-- `WAIT` (30_encoding.md R148): the host polls STATUS until BUSY = 0. -/
  | wait
  /-- Reset asserted with the construction inputs VARIANT, REVISION, BASE (70_reset_and_hazards.md R360). -/
  | reset (variant revision : Byte) (base : Addr)
  deriving DecidableEq, Repr

/-- What a host access got back. -/
inductive HostReply where
  /-- The word read. -/
  | data (w : Word)
  /-- A write was taken (it may have been ignored or dropped). -/
  | written
  /-- The host bus error of 20_memory.md R84 and 60_exceptions.md R329. -/
  | busError
  deriving DecidableEq, Repr

/-! ## The block -/

/-- SEQ (10_state.md R31). `events` are the bus events issued since the reset or the command began: k is their number
(`Seq.k`), and the working copies W_* and MASK and the intermediate bytes of R40 are what the running program computes
from them. DESIGN CHOICE, safe (log 12). -/
inductive Seq where
  | resetting (events : List BusEvent)
  | idle
  | exec (cmd : Word) (events : List BusEvent)
  deriving DecidableEq, Repr

/-- OVR[c] (10_state.md R36). -/
structure Override where
  active : Bool := false
  savedMode : Byte := 0
  savedCmd : Byte := 0
  deriving DecidableEq, Repr

/-- DUMP_REC[k] (10_state.md R38). -/
structure DumpRecord where
  addr : Addr
  value : Byte
  deriving DecidableEq, Repr

/-- Everything the spec gives the block (10_state.md; INVENTORY.md lists it field by field), its bus trace, and the
environment it runs in. -/
structure State where
  /-- The implementation parameters (00_scope.md R9, R10): fixed. -/
  config : Config
  /-- VARIANT, by its `variant_code` (R32, R51). -/
  variant : Byte
  /-- REVISION (R32). -/
  revision : Byte
  /-- BASE (R32). -/
  base : Addr
  /-- PROFILE (R32). -/
  profile : Profile
  /-- VOK (R33). -/
  vok : Bool
  /-- VOLT (R34). -/
  volt : List (Option ℚ)
  /-- TEMP (R34). -/
  temp : List (Option ℚ)
  /-- FAN (R34). -/
  fan : List (Option ℚ)
  /-- CTRL (R34). -/
  ctrl : List (Option ℚ)
  /-- CTRL_RAW (R58). -/
  ctrlRaw : List Byte
  /-- OVR (R36). -/
  ovr : List Override
  /-- DUMP_COUNT (R38). -/
  dumpCount : Nat
  /-- The DUMP_REC records written since reset, from index 0; the others are unobservable (R69; log 18). -/
  dumpRec : List DumpRecord
  /-- CMD_LAST (R41). -/
  cmdLast : Word
  /-- STATUS.DONE (R47). -/
  done : Bool
  /-- STATUS.ERR (R48). -/
  err : Bool
  /-- STATUS.ERRCODE (R48). -/
  errcode : BitVec 4
  /-- STATUS.OVR (R49). -/
  cmdDropped : Bool
  /-- SEQ (R31). -/
  seq : Seq
  /-- LOCK_HELD (R39). -/
  lockHeld : Bool
  /-- The bus trace, oldest event first (20_memory.md R90). -/
  trace : List BusEvent
  /-- The environment (not the block's). -/
  env : Env
  /-- The host's pending actions, next one first (not the block's). -/
  hostIn : List HostEvent
  /-- The answers the host got, oldest first (not the block's). -/
  hostOut : List HostReply
  deriving DecidableEq, Repr

/-- Why the machine would stop with a fault. There is no such reason: "No condition is fatal and the block never halts"
(60_exceptions.md R328). A command error is a next state (R325), a host bus error a reply to the host (R329). -/
inductive Fault where
  deriving DecidableEq, Repr

/-- Why the model refuses a step. -/
inductive Refusal where
  /-- An instruction without a meaning; raised by no arm of `exec`. Safe. -/
  | notModelled (mnemonic : String)
  /-- A reset to a supported variant whose profile breaks the length invariants of 00_scope.md R12: it "is not a profile
  of this block, and a model refuses it" (R12; 93_implementation_defined.md item 8; log 8). Raised by `assertReset`.
  Safe. -/
  | profileRefused (variant : Byte)
  deriving DecidableEq, Repr

/-- The block right after reset, with the construction inputs of log 6: an EC variant, so that VOK = 1 with no bus event
(70_reset_and_hazards.md R364), and every field at the value of R365. Nothing is pending and no answer is fixed. -/
def State.reset : State where
  config := Config.implementation
  variant := Config.openVariantCode
  revision := Config.openRevision
  base := Config.openBase
  profile := Config.ecProfile
  vok := true
  volt := List.replicate 14 none
  temp := List.replicate 7 none
  fan := List.replicate 8 none
  ctrl := List.replicate 8 none
  ctrlRaw := List.replicate 8 0
  ovr := List.replicate 8 {}
  dumpCount := 0
  dumpRec := []
  cmdLast := 0
  done := false
  err := false
  errcode := 0
  cmdDropped := false
  seq := .idle
  lockHeld := false
  trace := []
  env := { chip := .oracle [], lockDraws := [], drawn := 0 }
  hostIn := []
  hostOut := []

end Sys2Proof.Machine
end

