-- ==== Sys2Proof/Machine/Memory.lean ====
section
/-! DEFINITION. The byte memory of the reference device models (spec/20_memory.md R121, R122): one canonical form,
addresses strictly rising and no entry equal to what an unlisted address reads as. -/

namespace Sys2Proof.Machine

/-- What an address that is not listed reads as: "every unlisted address holding 0x00" (95_test_vectors.md section 0;
log 16). -/
def Memory.unlisted : Byte := 0

/-- The byte at an address. -/
def Memory.read : Memory → Nat → Byte
  | [], _ => Memory.unlisted
  | (b, v) :: rest, a => if a = b then v else Memory.read rest a

/-- The entry of a byte, none for the unlisted value. -/
def Memory.cell (a : Nat) (v : Byte) (rest : Memory) : Memory :=
  if v = Memory.unlisted then rest else (a, v) :: rest

/-- Write a byte, keeping the canonical form. -/
def Memory.write : Memory → Nat → Byte → Memory
  | [], a, v => Memory.cell a v []
  | (b, w) :: rest, a, v =>
    if a < b then Memory.cell a v ((b, w) :: rest)
    else if a = b then Memory.cell a v rest
    else (b, w) :: Memory.write rest a v

/-- Every address of the memory is above `a`, the next ones rising, no entry with the unlisted value. -/
def Memory.sortedAbove : Option Nat → Memory → Bool
  | _, [] => true
  | low, (a, v) :: rest =>
    (match low with
      | none => true
      | some b => decide (b < a)) && decide (v ≠ Memory.unlisted) && Memory.sortedAbove (some a) rest

/-- The canonical form. -/
def Memory.wf (m : Memory) : Bool := Memory.sortedAbove none m

end Sys2Proof.Machine
end

