-- ==== Sys2Proof/Machine/Device.lean ====
section
/-! DEFINITION. What answers the block: the oracle of spec/20_memory.md R92, the two reference device models of R121
and R122 (test support, not normative for the chip), and the lock outcomes of R112. -/

namespace Sys2Proof.Machine

/-- A byte written to a port of the bank-switched reference model (R121). Other ports do not reach it (log 16). A port
that is AP and DP at once has both effects, the one of DP with the old idx: DESIGN CHOICE, unsafe (log 22). -/
def BankDevice.writePort (d : BankDevice) (p : Addr) (v : Byte) : BankDevice :=
  { d with
    idx := if p = d.ap then v else d.idx
    bank := if p = d.dp ∧ d.idx = d.selectCmd then v else d.bank
    mem := if p = d.dp ∧ d.idx ≠ d.selectCmd then d.mem.write (word16 d.bank d.idx).toNat v else d.mem }

/-- The byte at the data port of the bank-switched reference model (R121). -/
def BankDevice.dataByte (d : BankDevice) : Byte :=
  if d.idx = d.selectCmd then d.bank else d.mem.read (word16 d.bank d.idx).toNat

/-- A byte written to a port of the paged reference model (R122). Other ports do not reach it (log 16). PP, IP and EDP
need not be distinct (R88): a port with several of these parts has each one's effect, every effect computed from the
state before the write: DESIGN CHOICE, unsafe (log 22). -/
def PagedDevice.writePort (d : PagedDevice) (p : Addr) (v : Byte) : PagedDevice :=
  { d with
    page := if p = d.pp ∧ d.armed = true then v else d.page
    armed := if p = d.pp then !d.armed && v == d.selectCmd else d.armed
    idx := if p = d.ip then v else d.idx
    mem := if p = d.edp then d.mem.write (word16 d.page d.idx).toNat v else d.mem }

/-- The byte at the data port of the paged reference model (R122). -/
def PagedDevice.dataByte (d : PagedDevice) : Byte := d.mem.read (word16 d.page d.idx).toNat

/-- A free value for a port read that nothing in the state answers. -/
def Env.freeRead (e : Env) : Byte × Env := (Config.freeByte e.drawn, { e with drawn := e.drawn + 1 })

/-- `PortRead(p)`: "any byte 0..255" (R92). A reference model answers at its data port; a read of any other port has no
answer in R121 or R122 and is free (log 16). -/
def Env.readPort (p : Addr) (e : Env) : Byte × Env :=
  match e.chip with
  | .oracle [] => e.freeRead
  | .oracle (v :: rest) => (v, { e with chip := .oracle rest })
  | .bank d => if p = d.dp then (d.dataByte, e) else e.freeRead
  | .paged d => if p = d.edp then (d.dataByte, e) else e.freeRead

/-- `PortWrite(p, v)`: the block assumes nothing of its effect on the chip (R92); a reference model follows R121, R122. -/
def Env.writePort (p : Addr) (v : Byte) (e : Env) : Env :=
  match e.chip with
  | .oracle _ => e
  | .bank d => { e with chip := .bank (d.writePort p v) }
  | .paged d => { e with chip := .paged (d.writePort p v) }

/-- The outcome of one `LockAcquire`: "the model never fixes it" (R112). -/
def Env.drawLock (e : Env) : LockOutcome × Env :=
  match e.lockDraws with
  | [] => (Config.freeLock e.drawn, { e with drawn := e.drawn + 1 })
  | r :: rest => (r, { e with lockDraws := rest })

/-- The canonical form of the memory a chip holds, if it is a reference model. -/
def Chip.wf : Chip → Bool
  | .oracle _ => true
  | .bank d => d.mem.wf
  | .paged d => d.mem.wf

end Sys2Proof.Machine
end

