-- ==== Sys2Proof/Machine/Program.lean ====
section
/-! DEFINITION. A sequence of bus events as a program (spec/00_scope.md R19, R23): what the pseudocode of a command is
made of. It can be run to its end, or one event at a time (spec/70_reset_and_hazards.md R379). -/

namespace Sys2Proof.Machine

/-- A program over the downstream bus primitives of 00_scope.md R19 that ends with a result. -/
inductive Prog (α : Type) where
  | done (a : α)
  | portWrite (p : Addr) (v : Byte) (next : Prog α)
  | portRead (p : Addr) (next : Byte → Prog α)
  | acquire (t : Nat) (next : LockOutcome → Prog α)
  | release (next : Prog α)
  | delay (ms : Nat) (next : Prog α)

/-- Run one program, then the one that its result selects. -/
def Prog.bind {α β : Type} (p : Prog α) (f : α → Prog β) : Prog β :=
  match p with
  | .done a => f a
  | .portWrite p v k => .portWrite p v (Prog.bind k f)
  | .portRead p k => .portRead p fun v => Prog.bind (k v) f
  | .acquire t k => .acquire t fun r => Prog.bind (k r) f
  | .release k => .release (Prog.bind k f)
  | .delay ms k => .delay ms (Prog.bind k f)

/-- `for x in xs` in order (R23), collecting the results. -/
def Prog.forEach {ι α : Type} (f : ι → Prog α) : List ι → Prog (List α)
  | [] => .done []
  | x :: xs => (f x).bind fun a => (Prog.forEach f xs).bind fun as => .done (a :: as)

/-- What running a program gave: its result, its bus events in order, and the environment after it. -/
structure Ran (α : Type) where
  value : α
  events : List BusEvent
  env : Env

/-- Put an event in front of a run. -/
def Ran.cons {α : Type} (e : BusEvent) (r : Ran α) : Ran α := { r with events := e :: r.events }

/-- Run a program to its end. -/
def Prog.run {α : Type} : Prog α → Env → Ran α
  | .done a, e => ⟨a, [], e⟩
  | .portWrite p v k, e => (Prog.run k (e.writePort p v)).cons (.pw p v)
  | .portRead p k, e => (Prog.run (k (e.readPort p).1) (e.readPort p).2).cons (.pr p (e.readPort p).1)
  | .acquire t k, e => (Prog.run (k e.drawLock.1) e.drawLock.2).cons (.acq t e.drawLock.1)
  | .release k, e => (Prog.run k e).cons .rel
  | .delay ms k, e => (Prog.run k e).cons (.dly ms)

/-- What a program does next: it is over, or it issues one event. -/
inductive NextEvent (α : Type) where
  | ends (a : α)
  | issues (event : BusEvent) (env : Env)

/-- The next event of a program. -/
def Prog.peek {α : Type} : Prog α → Env → NextEvent α
  | .done a, _ => .ends a
  | .portWrite p v _, e => .issues (.pw p v) (e.writePort p v)
  | .portRead p _, e => .issues (.pr p (e.readPort p).1) (e.readPort p).2
  | .acquire t _, e => .issues (.acq t e.drawLock.1) e.drawLock.2
  | .release _, e => .issues .rel e
  | .delay ms _, e => .issues (.dly ms) e

/-- The rest of a program after one event of its own. An event that cannot be the program's next one leaves it as it
is; no run meets that (log 12). -/
def Prog.after {α : Type} (p : Prog α) (e : BusEvent) : Prog α :=
  match p with
  | .done a => .done a
  | .portWrite _ _ k => k
  | .portRead q k => match e with
    | .pr _ v => k v
    | _ => .portRead q k
  | .acquire t k => match e with
    | .acq _ r => k r
    | _ => .acquire t k
  | .release k => k
  | .delay _ k => k

/-- The rest of a program after the events it has issued so far. -/
def Prog.resume {α : Type} (p : Prog α) (events : List BusEvent) : Prog α := events.foldl Prog.after p

/-- LOCK_HELD after one event (10_state.md R39). -/
def heldAfter (held : Bool) : BusEvent → Bool
  | .acq _ .ok => true
  | .acq _ .timeout => held
  | .rel => false
  | .pw _ _ => held
  | .pr _ _ => held
  | .dly _ => held

/-- LOCK_HELD after a list of events. -/
def heldAfterAll (held : Bool) (events : List BusEvent) : Bool := events.foldl heldAfter held

end Sys2Proof.Machine
end

