-- ==== Sys2Proof/Machine/Ops.lean ====
section
/-! DEFINITION. The shared operations: the handshakes that reach a chip register (spec/20_memory.md section 3), issuing
bus events, completion of a command with and without an error (the block's only "exception",
spec/60_exceptions.md section 2), and running a command's program to its commit. -/

namespace Sys2Proof.Machine

/-! ## Logical register access -/

/-- The handshake of a family with its ports and selection command (20_memory.md R88, R93). UNSUPPORTED uses none. -/
inductive Handshake where
  | bank (selectCmd : Byte) (ap dp : Addr)
  | paged (selectCmd : Byte) (pp ip edp : Addr)
  | absent
  deriving DecidableEq, Repr

/-- `(BASE + offset) mod 2^16` (20_memory.md R87). -/
def State.port (s : State) (offset : Addr) : Addr := s.base + offset

/-- The handshake is chosen by family (20_memory.md R93). -/
def State.handshake (s : State) : Handshake :=
  match s.profile.family with
  | .ec => .paged s.config.pageSelectCmd (s.port s.config.pagePortOff) (s.port s.config.indexPortOff)
      (s.port s.config.ecDataPortOff)
  | .bankClassic => .bank s.config.bankSelectCmd (s.port s.config.addrPortOff) (s.port s.config.dataPortOff)
  | .bankMultifan => .bank s.config.bankSelectCmd (s.port s.config.addrPortOff) (s.port s.config.dataPortOff)
  | .bankLpc => .bank s.config.bankSelectCmd (s.port s.config.addrPortOff) (s.port s.config.dataPortOff)
  | .unsupported => .absent

/-- `MemRead(a, 1)`: BankRead (20_memory.md R95) or PagedRead (R98). With no handshake there is no access (log 21). -/
def memRead : Handshake → Addr → Prog Byte
  | .bank cmd ap dp, a =>
    .portWrite ap cmd <| .portWrite dp (hiByte a) <| .portWrite ap (loByte a) <| .portRead dp fun v => .done v
  | .paged cmd pp ip edp, a =>
    .portWrite pp cmd <| .portWrite pp (hiByte a) <| .portWrite ip (loByte a) <| .portRead edp fun v => .done v
  | .absent, _ => .done 0

/-- `MemWrite(a, 1, v)`: BankWrite (20_memory.md R96) or PagedWrite (R99). -/
def memWrite : Handshake → Addr → Byte → Prog Unit
  | .bank cmd ap dp, a, v =>
    .portWrite ap cmd <| .portWrite dp (hiByte a) <| .portWrite ap (loByte a) <| .portWrite dp v <| .done ()
  | .paged cmd pp ip edp, a, v =>
    .portWrite pp cmd <| .portWrite pp (hiByte a) <| .portWrite ip (loByte a) <| .portWrite edp v <| .done ()
  | .absent, _, _ => .done ()

/-- Two adjacent registers, the one at `a` first (20_memory.md R101). -/
def memReadPair (h : Handshake) (a : Addr) : Prog (Byte × Byte) :=
  (memRead h a).bind fun b0 => (memRead h (nextAddr a)).bind fun b1 => .done (b0, b1)

/-! ## Issuing events -/

/-- The events of the command or reset under way. -/
def Seq.events : Seq → List BusEvent
  | .resetting evs => evs
  | .idle => []
  | .exec _ evs => evs

/-- k: the number of bus events issued so far (10_state.md R31). -/
def Seq.k (q : Seq) : Nat := q.events.length

/-- Each bus event advances k by one (10_state.md R31). -/
def Seq.advance (evs : List BusEvent) : Seq → Seq
  | .resetting old => .resetting (old ++ evs)
  | .idle => .idle
  | .exec w old => .exec w (old ++ evs)

/-- Events issued in order: they join the bus trace, move LOCK_HELD, advance k, and the environment moves on. -/
def State.issue (evs : List BusEvent) (env : Env) (s : State) : State :=
  { s with trace := s.trace ++ evs, lockHeld := heldAfterAll s.lockHeld evs, seq := s.seq.advance evs, env := env }

/-- Free the bus lock if the block holds it (00_scope.md R22, 70_reset_and_hazards.md R361). -/
def State.freeLock (s : State) : State := if s.lockHeld then s.issue [.rel] s.env else s

/-! ## Completion and commit -/

/-- The error codes of 60_exceptions.md R321. -/
inductive ErrorCode where
  | channelRange
  | illegalCommand
  deriving DecidableEq, Repr

/-- ERRCODE of an error (60_exceptions.md R321). -/
def ErrorCode.code : ErrorCode → BitVec 4
  | .channelRange => 1
  | .illegalCommand => 2

/-- What a command publishes at its commit (10_state.md R60). -/
inductive Commit where
  /-- Nothing: the silent paths of 60_exceptions.md R324. -/
  | silent
  /-- UPDATE: SensorState and CTRL_RAW. -/
  | sensors (volt temp fan ctrl : List (Option ℚ)) (raw : List Byte)
  /-- SETCTL and CLRCTL: OVR[c]. -/
  | override (c : Nat) (o : Override)
  /-- DUMP: the records in the order they were read. -/
  | dump (recs : List DumpRecord)
  /-- `raise Error(code)`. -/
  | error (e : ErrorCode)

/-- Completion without error: DONE ← 1, ERR ← 0, ERRCODE ← 0, SEQ ← IDLE (10_state.md R47, R48, R60). -/
def State.finish (s : State) : State := { s with done := true, err := false, errcode := 0, seq := .idle }

/-- Completion with error, the block's only exception (60_exceptions.md R325; 00_scope.md R22): a lock it holds is
freed, then ERR ← 1, ERRCODE ← code, DONE ← 1 and SEQ ← IDLE. CMD_LAST holds the command word. There is no vector, no
saved state and no return (R331, R332). -/
def State.raiseError (e : ErrorCode) (s : State) : State :=
  { s.freeLock with done := true, err := true, errcode := e.code, seq := .idle }

/-- The commit: the one step that publishes a command's results and completes it (10_state.md R60). -/
def State.commit (c : Commit) (s : State) : State :=
  match c with
  | .silent => s.finish
  | .sensors v t f k raw => State.finish { s with volt := v, temp := t, fan := f, ctrl := k, ctrlRaw := raw }
  | .override ch o => State.finish { s with ovr := s.ovr.set ch o }
  | .dump recs => State.finish { s with dumpCount := recs.length, dumpRec := recs ++ s.dumpRec.drop recs.length }
  | .error e => s.raiseError e

/-- Run a command's program from where it stands to its end, and commit (70_reset_and_hazards.md R379). -/
def runCommand (p : Prog Commit) (s : State) : State :=
  let r := (p.resume s.seq.events).run s.env
  (s.issue r.events r.env).commit r.value

/-- Move a command's program by one bus event, or commit when its pseudocode has run out (10_state.md R31). -/
def stepCommand (p : Prog Commit) (s : State) : State :=
  match (p.resume s.seq.events).peek s.env with
  | .ends c => s.commit c
  | .issues e env => s.issue [e] env

/-- Accept a command word (10_state.md R44): CMD_LAST ← w, SEQ ← EXEC(w, 0), DONE, ERR and ERRCODE ← 0. -/
def State.accept (w : Word) (s : State) : State :=
  { s with cmdLast := w, seq := .exec w [], done := false, err := false, errcode := 0 }

end Sys2Proof.Machine
end

