-- ==== Sys2Proof/Machine/Dump.lean ====
section
/-! DEFINITION. DUMP, the DiagnosticDump (spec/43_dump.md). -/

namespace Sys2Proof.Machine

/-- The DUMP_WINDOW_SIZE = 16 addresses of a dump window (43_dump.md R301). -/
def windowAddresses (lits : Literals) (w : Addr) : List Addr :=
  (List.range lits.windowSize).map fun i => w + BitVec.ofNat 16 i

/-- DumpAddresses: the windows in list order for a bank family (43_dump.md R301), EC_DUMP_RANGE = 0x000 to 0xFFF for EC
(R303). -/
def dumpAddresses (lits : Literals) (p : Profile) : List Addr :=
  if p.family = .ec then (List.range (lits.ecDumpLast.toNat + 1)).map (BitVec.ofNat 16)
  else p.dumpWindows.flatMap (windowAddresses lits)

/-- DUMP (43_dump.md R300): a lock timeout commits an empty dump (R304). -/
def dumpProg (s : State) : Prog Commit :=
  if s.vok then
    .acquire s.config.tDump fun r =>
      match r with
      | .timeout => .done (.dump [])
      | .ok => (Prog.forEach (fun a => (memRead s.handshake a).bind fun v => .done ⟨a, v⟩)
          (dumpAddresses s.config.literals s.profile)).bind fun recs => .release (.done (.dump recs))
  else .done .silent

/-- DUMP's meaning. -/
def execDump (s : State) : Host.Outcome State Fault Refusal := .next (runCommand (dumpProg s) s)

end Sys2Proof.Machine
end

