-- ==== Sys2Proof/Machine/Operands.lean ====
section
/-! DEFINITION. From the bytes a command reads to exact values: the decode formats of the chip registers
(spec/41_update.md, spec/20_memory.md R101) and the bytes the fan-control commands compute (spec/42_fan_control.md). -/

namespace Sys2Proof.Machine

/-! ## Voltages -/

/-- The number an EC_VFACTOR element stands for (00_scope.md R6, R11). -/
def VFactor.value (lits : Literals) : VFactor → Nat
  | .x12 => lits.vFactor12
  | .x5 => lits.vFactor5
  | .x2 => lits.vFactor2
  | .x1 => lits.vFactor1

/-- "A value ≤ 0 is invalid (null)" (41_update.md R201, R203). -/
def positive (q : ℚ) : Option ℚ := if 0 < q then some q else none

/-- BankVolt: 0.008 V per step (41_update.md R201). -/
def bankVolt (lits : Literals) (raw : Byte) : Option ℚ := positive ((raw.toNat : ℚ) * lits.vStepBank)

/-- ECVoltRaw: the composition of EC_VOLT_BITS = 12 bits under EC_VOLT_LAYOUT: `(b0 << 4) | (b1 >> 4)` or
`((b0 & 0x0F) << 8) | b1` (41_update.md R202), 4 being what a byte leaves of the 12 bits (log 17). -/
def ecVoltRaw (lits : Literals) (layout : EcVoltLayout) (b0 b1 : Byte) : Nat :=
  match layout with
  | .hi8LoNib => b0.toNat * 2 ^ (lits.ecVoltBits - 8) + b1.toNat / 2 ^ (16 - lits.ecVoltBits)
  | .hi4Lo8 => b0.toNat % 2 ^ (lits.ecVoltBits - 8) * 256 + b1.toNat

/-- ECVolt: 0.001 V per step, times the channel factor (41_update.md R203). -/
def ecVolt (lits : Literals) (layout : EcVoltLayout) (f : VFactor) (b0 b1 : Byte) : Option ℚ :=
  positive ((ecVoltRaw lits layout b0 b1 * VFactor.value lits f : ℕ) * lits.vStepEc)

/-- The VBAT enable: bit 0 of VBAT_CTRL_REG (41_update.md R204). -/
def vbatEnabled (ctl : Byte) : Bool := bitAt ctl 0

/-! ## Temperatures -/

/-- `gate(q)` (41_update.md R207): both bounds are retained. -/
def gate (lits : Literals) (q : ℚ) : Option ℚ := if q < lits.tempMin ∨ lits.tempMax < q then none else some q

/-- SlotValue without a half bit, and a fallback reading: whole degrees (41_update.md R206, R209). -/
def wholeDegrees (p : Byte) : ℚ := (sext8 p : ℚ)

/-- SlotValue with the half bit at position `i` of the half register (41_update.md R206):
`(2 × sext_8(p) + bit) / 2`. -/
def halfDegrees (p h : Byte) (i : Nat) : ℚ := ((2 * sext8 p + (bitNat (bitAt h i) : Int) : Int) : ℚ) / 2

/-- ECTemp (41_update.md R210): bit 7 of the second byte is the half degree; the gate applies only with EC_TEMP_GATE. -/
def ecTemp (lits : Literals) (gated : Bool) (p f : Byte) : Option ℚ :=
  if gated then gate lits (halfDegrees p f 7) else some (halfDegrees p f 7)

/-- W_TEMP and MASK of a cycle (41_update.md R208, R211). -/
structure TempWork where
  temp : List (Option ℚ)
  mask : List Bool
  deriving DecidableEq, Repr

/-- The start of a cycle: every element null, no mask bit (41_update.md R211). -/
def TempWork.start (n : Nat) : TempWork := ⟨List.replicate n none, List.replicate n false⟩

/-- Scatter: every logical sensor whose SRC_TABLE entry is `src` takes `t`, and its mask bit is set even for null
(41_update.md R208). -/
def TempWork.scatter (ids : List Byte) (src : Byte) (t : Option ℚ) (w : TempWork) : TempWork :=
  { temp := List.zipWith (fun id old => if id = src then t else old) ids w.temp
    mask := List.zipWith (fun id old => id = src || old) ids w.mask }

/-! ## Fans -/

/-- FanCount13: the composition of FAN_A_BITS = 13 bits under FAN_A_LAYOUT: `((b0 & 0x1F) << 8) | b1` or
`(b0 << 5) | (b1 & 0x1F)` (41_update.md R213), 5 being what a byte leaves of the 13 bits (log 17). -/
def fanCount13 (lits : Literals) (layout : FanALayout) (b0 b1 : Byte) : Nat :=
  match layout with
  | .hi5Lo8 => b0.toNat % 2 ^ (lits.fanABits - 8) * 256 + b1.toNat
  | .hi8Lo5 => b0.toNat * 2 ^ (lits.fanABits - 8) + b1.toNat % 2 ^ (lits.fanABits - 8)

/-- FanA: null at or above FAN_MAX_COUNT, below FAN_MIN_COUNT, and at 0; else FAN_CLK / count (41_update.md R214). -/
def fanA (p : Profile) (count : Nat) : Option ℚ :=
  if p.fanMaxCount.toNat ≤ count ∨ count < p.fanMinCount.toNat ∨ count = 0 then none
  else some ((p.fanClk : ℚ) / (count : ℚ))

/-- raw16 of strategies B and C, FAN_BC_BITS = 16 bits of the two bytes (41_update.md R215, R216; log 17). -/
def fanRaw16 (lits : Literals) (b0 b1 : Byte) : BitVec 16 :=
  BitVec.ofNat 16 ((word16 b0 b1).toNat % 2 ^ lits.fanBcBits)

/-- FanB: converted above the floor, 0 at or below it, never null (41_update.md R215). -/
def fanB (variant : Byte) (p : Profile) (raw : BitVec 16) : Option ℚ :=
  if p.fanMinRpm < raw then some (Config.fanBConvert variant raw : ℚ) else some 0

/-- FanC: the RPM as it is (41_update.md R216). -/
def fanC (raw : BitVec 16) : Option ℚ := some (raw.toNat : ℚ)

/-! ## Controls -/

/-- BankCtrl: raw ÷ 2.55 (41_update.md R218). -/
def bankCtrl (lits : Literals) (raw : Byte) : ℚ := (raw.toNat : ℚ) / lits.ctrlDiv

/-- `round_nearest` (00_scope.md R17). Its only use meets no tie with D0's CTRL_DIV (41_update.md R229); for a tie, which
another CTRL_DIV can give, no rule says which of the two nearest integers it is: a free choice (DESIGN CHOICE, safe,
log 23). -/
def roundNearest (q : ℚ) : Int :=
  if ((q + 1 / 2).floor : ℚ) = q + 1 / 2 ∧ Config.freeTie q = true then (q + 1 / 2).floor - 1 else (q + 1 / 2).floor

/-- ECCtrl: the percentage rounded (41_update.md R219). -/
def ecCtrl (lits : Literals) (raw : Byte) : ℚ := (roundNearest (bankCtrl lits raw) : ℚ)

/-! ## Fan control -/

/-- `1 << c` on a byte: the channel's bit of the EC mode register (42_fan_control.md R265: "c < nC = 8"). A channel above
7, which only another EC count than 8 gives, has no bit: DESIGN CHOICE, unsafe (log 24). -/
def channelBit (c : Nat) : Byte := 1#8 <<< c

/-- The mode byte ECManual writes (42_fan_control.md R265). -/
def ecManualMode (m : Byte) (c : Nat) : Byte := m ||| channelBit c

/-- The mode byte ECRestore writes under EC_RESTORE_RULE (42_fan_control.md R272). -/
def ecRestoreMode (rule : EcRestoreRule) (m saved : Byte) (c : Nat) : Byte :=
  match rule with
  | .andNotSaved => m &&& ~~~saved
  | .andNotBit => m &&& ~~~(channelBit c)

end Sys2Proof.Machine
end

