-- ==== Sys2Proof/Machine/FanControl.lean ====
section
/-! DEFINITION. SETCTL and CLRCTL, the FanControlManager (spec/42_fan_control.md). -/

namespace Sys2Proof.Machine

/-- OVR[c] (10_state.md R36). -/
def State.ovrAt (s : State) (c : Nat) : Override := s.ovr.getD c {}

/-- Snapshot(c): mode, then command, inside the lock window (42_fan_control.md R262). -/
def snapshot (h : Handshake) (ch : ControlChannel) : Prog Override :=
  (memRead h ch.modeReg).bind fun m => (memRead h ch.cmdReg).bind fun k =>
    .done { active := true, savedMode := m, savedCmd := k }

/-- The first set of a channel snapshots; a later one does not (42_fan_control.md R262, R263). -/
def snapshotOnce (h : Handshake) (ch : ControlChannel) (o : Override) : Prog Override :=
  if o.active then .done o else snapshot h ch

/-- BankManual (42_fan_control.md R264). -/
def bankManual (h : Handshake) (ch : ControlChannel) (d : Byte) : Prog Unit :=
  (memWrite h ch.modeReg 0).bind fun _ => memWrite h ch.cmdReg d

/-- The EC request sequence: LOAD, settle, the command byte, APPLY, settle (42_fan_control.md R265, R272). -/
def ecApply (h : Handshake) (p : Profile) (ch : ControlChannel) (d : Byte) : Prog Unit :=
  (memWrite h ch.reqReg p.reqLoad).bind fun _ => .delay p.settleMs <|
  (memWrite h ch.cmdReg d).bind fun _ => (memWrite h ch.reqReg p.reqApply).bind fun _ => .delay p.settleMs <| .done ()

/-- ECManual (42_fan_control.md R265): a fresh read of the mode register, then the channel's bit. -/
def ecManual (h : Handshake) (p : Profile) (ch : ControlChannel) (c : Nat) (d : Byte) : Prog Unit :=
  (memRead h ch.modeReg).bind fun m => (memWrite h ch.modeReg (ecManualMode m c)).bind fun _ => ecApply h p ch d

/-- BankRestore (42_fan_control.md R271). -/
def bankRestore (h : Handshake) (ch : ControlChannel) (o : Override) : Prog Unit :=
  (memWrite h ch.modeReg o.savedMode).bind fun _ => memWrite h ch.cmdReg o.savedCmd

/-- ECRestore (42_fan_control.md R272). -/
def ecRestore (h : Handshake) (rule : EcRestoreRule) (p : Profile) (ch : ControlChannel) (c : Nat) (o : Override) :
    Prog Unit :=
  (memRead h ch.modeReg).bind fun m => (memWrite h ch.modeReg (ecRestoreMode rule m o.savedMode c)).bind fun _ =>
    ecApply h p ch o.savedCmd

/-- Switch a channel to manual with duty d, by family (42_fan_control.md R260). -/
def setManual (s : State) (ch : ControlChannel) (c : Nat) (d : Byte) : Prog Unit :=
  if s.profile.family = .ec then ecManual s.handshake s.profile ch c d else bankManual s.handshake ch d

/-- Restore a channel from its record, by family (42_fan_control.md R268). -/
def restoreSaved (s : State) (ch : ControlChannel) (c : Nat) (o : Override) : Prog Unit :=
  if s.profile.family = .ec then ecRestore s.handshake s.config.ecRestoreRule s.profile ch c o
  else bankRestore s.handshake ch o

/-- The lock window of SETCTL (42_fan_control.md R260). -/
def setWindow (s : State) (ch : ControlChannel) (c : Nat) (d : Byte) : Prog Commit :=
  (snapshotOnce s.handshake ch (s.ovrAt c)).bind fun o =>
  (setManual s ch c d).bind fun _ => .release (.done (.override c o))

/-- The lock window of CLRCTL (42_fan_control.md R268 to R270): nothing but the release when no override is active, and
the saved bytes stay. -/
def clearWindow (s : State) (ch : ControlChannel) (c : Nat) : Prog Commit :=
  if (s.ovrAt c).active then
    (restoreSaved s ch c (s.ovrAt c)).bind fun _ => .release (.done (.override c { s.ovrAt c with active := false }))
  else .release (.done (.override c (s.ovrAt c)))

/-- The checks SETCTL and CLRCTL share, in order (42_fan_control.md R261): the VOK gate, the channel check, the lock. -/
def withChannel (s : State) (c : Nat) (window : ControlChannel → Prog Commit) : Prog Commit :=
  if s.vok then
    match s.profile.ctrls[c]? with
    | none => .done (.error .channelRange)
    | some ch => .acquire s.config.tControl fun r =>
        match r with
        | .timeout => .done .silent
        | .ok => window ch
  else .done .silent

/-- SETCTL c, d (42_fan_control.md R260). -/
def setctlProg (c : Nat) (d : Byte) (s : State) : Prog Commit := withChannel s c fun ch => setWindow s ch c d

/-- CLRCTL c (42_fan_control.md R268). -/
def clrctlProg (c : Nat) (s : State) : Prog Commit := withChannel s c fun ch => clearWindow s ch c

/-- SETCTL's meaning. -/
def execSetctl (c : Nat) (d : Byte) (s : State) : Host.Outcome State Fault Refusal :=
  .next (runCommand (setctlProg c d s) s)

/-- CLRCTL's meaning. -/
def execClrctl (c : Nat) (s : State) : Host.Outcome State Fault Refusal := .next (runCommand (clrctlProg c s) s)

end Sys2Proof.Machine
end

