-- ==== Sys2Proof/Machine/Probe.lean ====
section
/-! DEFINITION. VendorProbe, Unlock and QuirkStep (spec/40_internal_ops.md R173 to R179). -/

namespace Sys2Proof.Machine

/-- VendorProbe when HAS_VENDOR_ID = 1: the high register first (40_internal_ops.md R173, R175). -/
def readVendorId (h : Handshake) (p : Profile) : Prog Bool :=
  (memRead h p.vendorHiReg).bind fun hi => (memRead h p.vendorLoReg).bind fun lo =>
    .done (word16 hi lo == p.vendorId)

/-- VendorProbe: true with no event when the variant has no identity registers (40_internal_ops.md R173, R174). -/
def vendorProbe (h : Handshake) (p : Profile) : Prog Bool :=
  if p.hasVendorId then readVendorId h p else .done true

/-- One port event of the unlock sequence; a byte read is not used (40_internal_ops.md R178). -/
def unlockEvent : UnlockEvent → Prog Unit
  | .write p v => .portWrite p v (.done ())
  | .read p => .portRead p fun _ => .done ()

/-- Unlock: the events of UNLOCK_SEQ in order (40_internal_ops.md R178). -/
def unlock : List UnlockEvent → Prog Unit
  | [] => .done ()
  | u :: us => (unlockEvent u).bind fun _ => unlock us

/-- IO_LOCK_QUIRK(REVISION) of the variant (00_scope.md R9). -/
def State.hasQuirk (s : State) : Bool := s.profile.quirkRevisions.contains s.revision

/-- QuirkStep (40_internal_ops.md R177): probe, and unlock when the probe fails, without probing again (R179). -/
def quirkStep (s : State) : Prog Unit :=
  if s.hasQuirk && s.profile.hasVendorId then
    (vendorProbe s.handshake s.profile).bind fun ok => if ok then .done () else unlock s.profile.unlockSeq
  else .done ()

end Sys2Proof.Machine
end

