-- ==== Sys2Proof/Machine/Update.lean ====
section
/-! DEFINITION. UPDATE, the SensorDecoder refresh cycle (spec/41_update.md). -/

namespace Sys2Proof.Machine

/-! ## Voltages (step 3) -/

/-- ECVolt or BankVolt of a channel (41_update.md R201 to R203). -/
def channelVolt (s : State) (ch : VoltChannel) : Prog (Option ℚ) :=
  if s.profile.family = .ec then
    (memReadPair s.handshake ch.reg).bind fun b =>
      .done (ecVolt s.config.literals s.config.ecVoltLayout ch.factor b.1 b.2)
  else (memRead s.handshake ch.reg).bind fun raw => .done (bankVolt s.config.literals raw)

/-- The VBAT gate (41_update.md R204): the enable register is read only for a valid value of the VBAT channel. -/
def vbatGate (s : State) (ch : VoltChannel) (v : Option ℚ) : Prog (Option ℚ) :=
  if v.isSome ∧ s.profile.vbatAddr = some ch.reg then
    (memRead s.handshake s.profile.vbatCtrlReg).bind fun ctl => .done (if vbatEnabled ctl then v else none)
  else .done v

/-- VoltagePhase (41_update.md R205). -/
def voltagePhase (s : State) : Prog (List (Option ℚ)) :=
  Prog.forEach (fun ch => (channelVolt s ch).bind (vbatGate s ch)) s.profile.volts

/-! ## Temperatures (steps 4 and 5) -/

/-- SlotValue (41_update.md R206): the half register is read only when a half bit is configured. -/
def slotValue (s : State) (slot : TempSlot) : Prog ℚ :=
  (memRead s.handshake slot.reg).bind fun p =>
    if slot.halfBit.val > 0 then
      (memRead s.handshake slot.halfReg).bind fun h => .done (halfDegrees p h slot.halfBit.val)
    else .done (wholeDegrees p)

/-- SRC_TABLE of the profile (00_scope.md R9). -/
def srcTable (p : Profile) : List Byte := p.temps.map TempSlot.srcId

/-- The primary slots in ascending order: value, gate, source register, scatter (41_update.md R208, R211). -/
def primarySlots (s : State) : List TempSlot → TempWork → Prog TempWork
  | [], w => .done w
  | slot :: rest, w =>
    (slotValue s slot).bind fun q => (memRead s.handshake slot.srcReg).bind fun src =>
      primarySlots s rest (w.scatter (srcTable s.profile) src (gate s.config.literals q))

/-- Fallback of one logical sensor (41_update.md R209): ALT_REG[j] is read only when MASK[j] = 0. -/
def fallbackSensor (s : State) (alt : Option Addr) (masked : Bool) (t : Option ℚ) : Prog (Option ℚ) :=
  match alt, masked with
  | some a, false => (memRead s.handshake a).bind fun v => .done (gate s.config.literals (wholeDegrees v))
  | some _, true => .done t
  | none, _ => .done t

/-- Fallback, after all slots (41_update.md R209). -/
def fallback (s : State) (w : TempWork) : Prog (List (Option ℚ)) :=
  Prog.forEach (fun x => fallbackSensor s x.1 x.2.1 x.2.2)
    (List.zip (s.profile.temps.map TempSlot.alt) (List.zip w.mask w.temp))

/-- BankTempPhase (41_update.md R211). -/
def bankTempPhase (s : State) : Prog (List (Option ℚ)) :=
  (primarySlots s s.profile.temps (TempWork.start s.profile.temps.length)).bind (fallback s)

/-- ECTemp of a sensor (41_update.md R210). -/
def ecSensor (s : State) (slot : TempSlot) : Prog (Option ℚ) :=
  (memReadPair s.handshake slot.reg).bind fun b => .done (ecTemp s.config.literals s.config.ecTempGate b.1 b.2)

/-- TempPhase dispatches on the family (41_update.md R212). -/
def tempPhase (s : State) : Prog (List (Option ℚ)) :=
  if s.profile.family = .ec then Prog.forEach (ecSensor s) s.profile.temps else bankTempPhase s

/-! ## Fans (step 6) -/

/-- The value of a fan channel under FAN_STRATEGY (41_update.md R214 to R217). -/
def fanValue (s : State) (b0 b1 : Byte) : Option ℚ :=
  match s.profile.fanStrategy with
  | .aCounter13 => fanA s.profile (fanCount13 s.config.literals s.config.fanALayout b0 b1)
  | .bPeriod16 => fanB s.variant s.profile (fanRaw16 s.config.literals b0 b1)
  | .cRpm16 => fanC (fanRaw16 s.config.literals b0 b1)

/-- FanPhase: two reads per channel (41_update.md R217). -/
def fanPhase (s : State) : Prog (List (Option ℚ)) :=
  Prog.forEach (fun reg => (memReadPair s.handshake reg).bind fun b => .done (fanValue s b.1 b.2)) s.profile.fans

/-! ## Controls (step 7) -/

/-- ECCtrl or BankCtrl (41_update.md R218, R219). -/
def ctrlValue (s : State) (raw : Byte) : ℚ :=
  if s.profile.family = .ec then ecCtrl s.config.literals raw else bankCtrl s.config.literals raw

/-- ControlPhase: one read per channel (41_update.md R220). It gives the raw bytes, CTRL_RAW. -/
def controlPhase (s : State) : Prog (List Byte) :=
  Prog.forEach (fun ch => memRead s.handshake ch.outReg) s.profile.ctrls

/-! ## The command -/

/-- Steps 2 to 8 of UPDATE, inside the lock window (41_update.md R200, R221). -/
def refresh (s : State) : Prog Commit :=
  (quirkStep s).bind fun _ =>
  (voltagePhase s).bind fun v =>
  (tempPhase s).bind fun t =>
  (fanPhase s).bind fun f =>
  (controlPhase s).bind fun raw =>
  .release (.done (.sensors v t f (raw.map fun b => some (ctrlValue s b)) raw))

/-- UPDATE (41_update.md R200): VOK gate (R223), then the lock, whose timeout skips the cycle (R222). -/
def updateProg (s : State) : Prog Commit :=
  if s.vok then
    .acquire s.config.tUpdate fun r =>
      match r with
      | .timeout => .done .silent
      | .ok => refresh s
  else .done .silent

/-- UPDATE's meaning. -/
def execUpdate (s : State) : Host.Outcome State Fault Refusal := .next (runCommand (updateProg s) s)

end Sys2Proof.Machine
end

