-- ==== Sys2Proof/Machine/Dispatch.lean ====
section
/-! DEFINITION. One arm per command. -/

namespace Sys2Proof.Machine

def exec (i : Instr) (s : State) : Host.Outcome State Fault Refusal :=
  match i with
  | .update => Sys2Proof.Machine.execUpdate s
  | .setctl ch duty => Sys2Proof.Machine.execSetctl ch duty s
  | .clrctl ch => Sys2Proof.Machine.execClrctl ch s
  | .dump => Sys2Proof.Machine.execDump s

end Sys2Proof.Machine
end

