-- ==== Sys2Proof/Machine/Flags.lean ====
section
/-! DEFINITION. The words the host reads: STATUS (spec/10_state.md R45 to R50), the result words
(spec/30_encoding.md R138 to R145) and the configuration words (spec/10_state.md R51 to R54). -/

namespace Sys2Proof.Machine

/-! ## STATUS -/

/-- STATUS.BUSY = 1 exactly when SEQ ≠ IDLE (10_state.md R42). -/
def State.busy (s : State) : Bool := s.seq != .idle

/-- STATUS bit 9 mirrors VOK (10_state.md R50). While SEQ = RESETTING no rule states its value ("the results of the
reset probe appear in STATUS.VOK only once BUSY is 0", 70_reset_and_hazards.md R366): a free value (log 11). -/
def State.vokBit (s : State) : Bool :=
  match s.seq with
  | .resetting _ => Config.freeVok s.hostOut.length
  | .idle => s.vok
  | .exec _ _ => s.vok

/-- The STATUS word (10_state.md R45). -/
def State.statusWord (s : State) : Word :=
  flagAt 0 s.busy ||| flagAt 1 s.done ||| flagAt 2 s.err ||| fieldAt 4 s.errcode ||| flagAt 8 s.cmdDropped |||
    flagAt 9 s.vokBit

/-- A host write to STATUS: write-one-to-clear of DONE and OVR, nothing else (10_state.md R45). -/
def State.writeStatus (w : Word) (s : State) : State :=
  { s with done := s.done && !w.getLsbD 1, cmdDropped := s.cmdDropped && !w.getLsbD 8 }

/-! ## Result words: the field of a value that R140 to R143 give no encoding, which no run with D0's literals has, is a
free value (log 19) -/

/-- A valid result word: bit 31 and the fields of the value (30_encoding.md R138). -/
def validWord (fields : Word) : Word := 0x80000000#32 ||| fields

/-- A 16-bit field that holds `q` as it is, an integer in 0..65535 (30_encoding.md R140, R143). -/
def exactField (q : ℚ) : BitVec 16 :=
  if (q.floor : ℚ) = q ∧ 0 ≤ q.floor ∧ q.floor < 65536 then BitVec.ofInt 16 q.floor
  else (Config.freeField q).setWidth 16

/-- `enc_volt`: millivolts in bits 15:0 (30_encoding.md R140). -/
def encVolt : Option ℚ → Word
  | none => 0
  | some q => validWord (fieldAt 0 (exactField (q * 1000)))

/-- Half degrees mod 2^16 (30_encoding.md R141). -/
def halfDegreeField (h : ℚ) : BitVec 16 :=
  if (h.floor : ℚ) = h then BitVec.ofInt 16 h.floor else (Config.freeField h).setWidth 16

/-- `enc_temp`: half degrees in two's complement in bits 15:0 (30_encoding.md R141). -/
def encTemp : Option ℚ → Word
  | none => 0
  | some q => validWord (fieldAt 0 (halfDegreeField (2 * q)))

/-- The integer RPM, saturated (30_encoding.md R142). -/
def rpmField (q : ℚ) : BitVec 31 :=
  if 0 ≤ q then BitVec.ofInt 31 (min q.floor 0x7FFFFFFF) else Config.freeField q

/-- `enc_fan`: the integer RPM in bits 30:0 (30_encoding.md R142). -/
def encFan : Option ℚ → Word
  | none => 0
  | some q => validWord (fieldAt 0 (rpmField q))

/-- `enc_ctrl`: hundredths of a percent, truncated, in bits 23:8, the raw byte in bits 7:0 (30_encoding.md R143). -/
def encCtrl : Option ℚ → Byte → Word
  | none, _ => 0
  | some q, raw => validWord (fieldAt 8 (exactField (q * 100).floor) ||| fieldAt 0 raw)

/-- OVRD_W[c] (10_state.md R59). -/
def Override.word (o : Override) : Word := flagAt 16 o.active ||| fieldAt 8 o.savedMode ||| fieldAt 0 o.savedCmd

/-- DUMP_REC_W[k] (30_encoding.md R145). -/
def DumpRecord.word (r : DumpRecord) : Word := fieldAt 8 r.addr ||| fieldAt 0 r.value

/-! ## Configuration words -/

/-- CONFIG0 (10_state.md R51). -/
def State.config0 (s : State) : Word := fieldAt 0 s.variant ||| fieldAt 8 s.revision ||| fieldAt 16 s.base

/-- A channel count as an 8-bit field of CONFIG1. -/
def countField (i n : Nat) : Word := fieldAt i (BitVec.ofNat 8 n)

/-- CONFIG1 (10_state.md R52). -/
def State.config1 (s : State) : Word :=
  countField 0 s.profile.volts.length ||| countField 8 s.profile.temps.length |||
    countField 16 s.profile.fans.length ||| countField 24 s.profile.ctrls.length

/-- The family code of CONFIG2 (10_state.md R53). -/
def familyCode : Family → BitVec 3
  | .unsupported => 0
  | .bankClassic => 1
  | .bankMultifan => 2
  | .bankLpc => 3
  | .ec => 4

/-- The FAN_STRATEGY code of CONFIG2; UNSUPPORTED gives 3, none (10_state.md R53). -/
def strategyCode (p : Profile) : BitVec 2 :=
  if p.family = .unsupported then 3
  else
    match p.fanStrategy with
    | .aCounter13 => 0
    | .bPeriod16 => 1
    | .cRpm16 => 2

/-- CONFIG2 (10_state.md R53). -/
def State.config2 (s : State) : Word :=
  fieldAt 0 (familyCode s.profile.family) ||| fieldAt 3 (strategyCode s.profile) |||
    flagAt 5 s.profile.hasVendorId ||| flagAt 6 (s.profile.quirkRevisions.contains s.revision)

/-- The DUMP_COUNT register: bits 12:0 (10_state.md R54). -/
def State.dumpCountWord (s : State) : Word := fieldAt 0 (BitVec.ofNat 13 s.dumpCount)

end Sys2Proof.Machine
end

