-- ==== Sys2Proof/Machine/HostPort.lean ====
section
/-! DEFINITION. The host register space H: the map (spec/10_state.md R43) and the access rules
(spec/20_memory.md R83 to R86). -/

namespace Sys2Proof.Machine

/-- A 32-bit aligned access inside the 32 KiB map (20_memory.md R83). -/
def legalAccess (bits offset : Nat) : Bool := decide (bits = 32) && decide (offset % 4 = 0) && decide (offset < 0x8000)

/-- VOLT_W[i] (10_state.md R55). -/
def State.voltWord (s : State) (i : Nat) : Word :=
  match s.volt[i]? with
  | some q => encVolt q
  | none => 0

/-- TEMP_W[i] (10_state.md R56). -/
def State.tempWord (s : State) (i : Nat) : Word :=
  match s.temp[i]? with
  | some q => encTemp q
  | none => 0

/-- FAN_W[i] (10_state.md R57). -/
def State.fanWord (s : State) (i : Nat) : Word :=
  match s.fan[i]? with
  | some q => encFan q
  | none => 0

/-- CTRL_W[i] (10_state.md R58). -/
def State.ctrlWord (s : State) (i : Nat) : Word :=
  match s.ctrl[i]? with
  | some q => encCtrl q (s.ctrlRaw.getD i 0)
  | none => 0

/-- OVRD_W[c] (10_state.md R59). -/
def State.overrideWord (s : State) (c : Nat) : Word :=
  match s.ovr[c]? with
  | some o => o.word
  | none => 0

/-- DUMP_REC_W[k]: 0 at and beyond DUMP_COUNT (10_state.md R61). -/
def State.dumpRecWord (s : State) (k : Nat) : Word :=
  if k < s.dumpCount then
    match s.dumpRec[k]? with
    | some r => r.word
    | none => 0
  else 0

/-- The word at an aligned offset of the map (10_state.md R43); an unmapped one reads 0 (20_memory.md R85). -/
def State.hostRead (s : State) (offset : Nat) : Word :=
  if offset = 0x0000 then s.cmdLast
  else if offset = 0x0004 then s.statusWord
  else if offset = 0x0008 then s.config0
  else if offset = 0x000C then s.config1
  else if offset = 0x0010 then s.config2
  else if offset = 0x0014 then s.dumpCountWord
  else if 0x0100 ≤ offset ∧ offset < 0x0180 then s.voltWord ((offset - 0x0100) / 4)
  else if 0x0180 ≤ offset ∧ offset < 0x0200 then s.tempWord ((offset - 0x0180) / 4)
  else if 0x0200 ≤ offset ∧ offset < 0x0280 then s.fanWord ((offset - 0x0200) / 4)
  else if 0x0280 ≤ offset ∧ offset < 0x0300 then s.ctrlWord ((offset - 0x0280) / 4)
  else if 0x0300 ≤ offset ∧ offset < 0x0380 then s.overrideWord ((offset - 0x0300) / 4)
  else if 0x4000 ≤ offset ∧ offset < 0x8000 then s.dumpRecWord ((offset - 0x4000) / 4)
  else 0

/-- A host write to CMD (10_state.md R44): accepted in IDLE; else dropped, and STATUS.OVR is set (60_exceptions.md R330). -/
def State.writeCmd (w : Word) (s : State) : State :=
  match s.seq with
  | .idle => s.accept w
  | .resetting _ => { s with cmdDropped := true }
  | .exec _ _ => { s with cmdDropped := true }

/-- A host write at an aligned offset of the map: only CMD and STATUS take it (20_memory.md R85, R86). -/
def State.hostWrite (offset : Nat) (w : Word) (s : State) : State :=
  if offset = 0x0000 then s.writeCmd w
  else if offset = 0x0004 then s.writeStatus w
  else s

/-- Note what the host got. -/
def State.reply (r : HostReply) (s : State) : State := { s with hostOut := s.hostOut ++ [r] }

/-- One host access: a bus error changes no state of the block (20_memory.md R84), a read none either (10_state.md R62). -/
def State.serve (a : HostAccess) (s : State) : State :=
  match a with
  | .read bits offset => if legalAccess bits offset then s.reply (.data (s.hostRead offset)) else s.reply .busError
  | .write bits offset w => if legalAccess bits offset then (s.hostWrite offset w).reply .written else s.reply .busError

end Sys2Proof.Machine
end

