-- ==== Sys2Proof/Machine/Profiles.lean ====
section
/-! DEFINITION. ChipProfile: the profile invariants of spec/00_scope.md R12, and ProfileResolve
(spec/40_internal_ops.md R170, R171). -/

namespace Sys2Proof.Machine

/-- The profile of an UNSUPPORTED variant: every table empty, no vendor registers (00_scope.md R13). -/
def emptyProfile : Profile := { family := .unsupported }

/-- R12: nV, nT, nF and nC of the EC family are 14, 7, 8 and 8. -/
def Profile.ecCountsFit (lits : Literals) (p : Profile) : Bool :=
  decide (p.family ≠ .ec) ||
    (decide (p.volts.length = lits.ecVolts) && decide (p.temps.length = lits.ecTemps) &&
      decide (p.fans.length = lits.ecFans) && decide (p.ctrls.length = lits.ecCtrls))

/-- The invariants of a supported variant's profile (R12): the table lengths are the variant's nV, nT, nF and nC, with
the counts of the EC family and of the 5-fan variant. -/
def VariantEntry.fits (lits : Literals) (e : VariantEntry) : Bool :=
  decide (e.profile.volts.length = e.nV) && decide (e.profile.temps.length = e.nT) &&
  decide (e.profile.fans.length = e.nF) && decide (e.profile.ctrls.length = e.nC) &&
  Profile.ecCountsFit lits e.profile &&
  (!e.fiveFan || (decide (e.nF = lits.fiveFans) && decide (e.nC = lits.fiveCtrls)))

/-- The entry of a variant, if `profile` has one (40_internal_ops.md R171). -/
def findVariant (c : Config) (code : Byte) : Option VariantEntry := c.variants.find? fun e => e.code == code

/-- ProfileResolve (40_internal_ops.md R170, R171): the variant's profile; the empty one for an UNSUPPORTED variant and
for a tag without an entry; none where a supported variant's profile breaks R12, which "is not a profile of this block,
and a model refuses it" (00_scope.md R12; 93_implementation_defined.md item 8). -/
def resolveProfile (c : Config) (code : Byte) : Option Profile :=
  match findVariant c code with
  | none => some emptyProfile
  | some e =>
    if e.profile.family = .unsupported then some emptyProfile
    else if VariantEntry.fits c.literals e then some e.profile
    else none

end Sys2Proof.Machine
end

