-- ==== Sys2Proof/Machine/Reset.lean ====
section
/-! DEFINITION. The reset sequence (spec/70_reset_and_hazards.md R360 to R369). -/

namespace Sys2Proof.Machine

/-- The values reset gives every piece of state before the probe, with SEQ = RESETTING (70_reset_and_hazards.md R361,
R365). VOK is not computed yet; what STATUS shows of it meanwhile is free (log 11). -/
def State.initialise (p : Profile) (variant revision : Byte) (base : Addr) (s : State) : State :=
  { s with
    variant := variant
    revision := revision
    base := base
    profile := p
    vok := false
    volt := List.replicate p.volts.length none
    temp := List.replicate p.temps.length none
    fan := List.replicate p.fans.length none
    ctrl := List.replicate p.ctrls.length none
    ctrlRaw := List.replicate p.ctrls.length 0
    ovr := List.replicate p.ctrls.length {}
    dumpCount := 0
    dumpRec := []
    cmdLast := 0
    done := false
    err := false
    errcode := 0
    cmdDropped := false
    seq := .resetting [] }

/-- Reset asserted with the construction inputs (70_reset_and_hazards.md R360, R361): a held lock is released first, then
every piece of state takes its reset value. -/
def State.assertReset (variant revision : Byte) (base : Addr) (s : State) : Host.Outcome State Fault Refusal :=
  match resolveProfile s.config variant with
  | some p => .next (s.freeLock.initialise p variant revision base)
  | none => .refused (.profileRefused variant)

/-- ResetProbe (70_reset_and_hazards.md R362): the lock with T_PROBE, VendorProbe, release; a timeout confirms nothing. -/
def resetProbe (s : State) : Prog Bool :=
  .acquire s.config.tProbe fun r =>
    match r with
    | .timeout => .done false
    | .ok => (vendorProbe s.handshake s.profile).bind fun ok => .release (.done ok)

/-- The events of the reset sequence and the VOK they give (70_reset_and_hazards.md R361 to R364). -/
def resetProg (s : State) : Prog Bool :=
  if s.profile.family = .unsupported then .done false
  else if s.profile.hasVendorId then resetProbe s
  else .done true

/-- The end of the reset sequence: VOK is set and SEQ ← IDLE (70_reset_and_hazards.md R361). -/
def State.endReset (ok : Bool) (s : State) : State := { s with vok := ok, seq := .idle }

/-- Run the reset sequence from where it stands to its end. -/
def runReset (s : State) : State :=
  let r := ((resetProg s).resume s.seq.events).run s.env
  (s.issue r.events r.env).endReset r.value

/-- Move the reset sequence by one bus event, or end it. -/
def stepReset (s : State) : State :=
  match ((resetProg s).resume s.seq.events).peek s.env with
  | .ends ok => s.endReset ok
  | .issues e env => s.issue [e] env

end Sys2Proof.Machine
end

