-- ==== Sys2Proof/Machine/Sequencer.lean ====
section
/-! DEFINITION. How the block moves: a whole command at once or one bus event at a time
(spec/10_state.md R31, spec/70_reset_and_hazards.md R379), and what the host does to it. -/

namespace Sys2Proof.Machine

/-- The program of a command, for running it event by event; `exec` runs the same program to its commit. -/
def commandProg : Instr → State → Prog Commit
  | .update, s => updateProg s
  | .setctl ch duty, s => setctlProg ch duty s
  | .clrctl ch, s => clrctlProg ch s
  | .dump, s => dumpProg s

/-- ILLEGAL execution: no bus event, whatever VOK is (30_encoding.md R134; 60_exceptions.md R323). -/
def illegalProg : Prog Commit := .done (.error .illegalCommand)

/-- The program of the word in the command register. -/
def wordProg (w : Word) (s : State) : Prog Commit :=
  match decode w with
  | .ok i => commandProg i s
  | .error _ => illegalProg

/-- An ILLEGAL word's step (30_encoding.md R134). -/
def execIllegal (s : State) : Host.Outcome State Fault Refusal := .next (runCommand illegalProg s)

/-- Run the command under way: decode its word and execute it (30_encoding.md R132, R134). -/
def execWord (w : Word) (s : State) : Host.Outcome State Fault Refusal :=
  match decode w with
  | .ok i => exec i s
  | .error _ => execIllegal s

/-- The block moves until it is IDLE, with nothing from the host in between (70_reset_and_hazards.md R379; log 1). In
IDLE nothing happens (60_exceptions.md R340, 70_reset_and_hazards.md R367). -/
def State.proceed (s : State) : Host.Outcome State Fault Refusal :=
  match s.seq with
  | .idle => .next s
  | .resetting _ => .next (runReset s)
  | .exec w _ => execWord w s

/-- The block issues one bus event, or commits (10_state.md R31; log 1). -/
def State.tick (s : State) : State :=
  match s.seq with
  | .idle => s
  | .resetting _ => stepReset s
  | .exec w _ => stepCommand (wordProg w s) s

/-- `WAIT` (30_encoding.md R148): in IDLE the host reads STATUS and goes on; before that the block moves. -/
def State.hostWait (rest : List HostEvent) (s : State) : Host.Outcome State Fault Refusal :=
  match s.seq with
  | .idle => .next (State.serve (.read 32 0x0004) { s with hostIn := rest })
  | .resetting _ => s.proceed
  | .exec _ _ => s.proceed

/-- One step: the host's next action if one is pending, else the block moves. -/
def State.move (s : State) : Host.Outcome State Fault Refusal :=
  match s.hostIn with
  | [] => s.proceed
  | .tick :: rest => .next (State.tick { s with hostIn := rest })
  | .wait :: rest => s.hostWait rest
  | .access a :: rest => .next (State.serve a { s with hostIn := rest })
  | .reset v r b :: rest => State.assertReset v r b { s with hostIn := rest }

/-- The state right after the host's write of `w` to CMD was accepted (10_state.md R44), with nothing else pending. -/
def State.commanded (w : Word) (s : State) : State := { s.accept w with hostIn := [] }

end Sys2Proof.Machine
end

