-- ==== Sys2Proof/Machine/Step.lean ====
section
/-! DEFINITION. The step of the machine, and where it finds its next command. -/

namespace Sys2Proof.Machine

/-- One step of the block in its environment. -/
def step (s : State) : Host.Outcome State Fault Refusal := s.move

/-- `s` with a command word placed where the step takes its next command: in SEQ and CMD_LAST, as the host's write to
CMD leaves it (10_state.md R44; log 3). Bits at `nbits` and above are 0. -/
def State.withFetchWord (s : State) (nbits w : Nat) : State := s.commanded (BitVec.ofNat 32 (w % 2 ^ nbits))

end Sys2Proof.Machine
end

