-- ==== Sys2Proof/Machine/Assembler.lean ====
section
/-! DEFINITION. The host-side mnemonic syntax (spec/30_encoding.md R146, R147). A line is a list of characters.
DESIGN CHOICE, safe (log 20): mnemonics in capitals, one space or comma-with-spaces between operands as the spec writes
them, extra spaces allowed. -/

namespace Sys2Proof.Machine

/-- A line of assembly: the four commands and the pseudo-instruction `SETCTL ch, none` (R147). -/
inductive AsmLine where
  | update
  | setctl (ch duty : Nat)
  | setctlNone (ch : Nat)
  | clrctl (ch : Nat)
  | dump
  deriving DecidableEq, Repr

/-- The command of a line; a channel outside 0..31 or a duty outside 0..255 is refused (R146). `SETCTL ch, none` is
`CLRCTL ch` (R147). -/
def AsmLine.assemble : AsmLine → Option Instr
  | .update => some .update
  | .setctl ch duty => if ch < 32 ∧ duty < 256 then some (.setctl ch (BitVec.ofNat 8 duty)) else none
  | .setctlNone ch => if ch < 32 then some (.clrctl ch) else none
  | .clrctl ch => if ch < 32 then some (.clrctl ch) else none
  | .dump => some .dump

/-- The value of a hexadecimal digit. -/
def digitValue (c : Char) : Option Nat :=
  if '0' ≤ c ∧ c ≤ '9' then some (c.toNat - '0'.toNat)
  else if 'a' ≤ c ∧ c ≤ 'f' then some (c.toNat - 'a'.toNat + 10)
  else if 'A' ≤ c ∧ c ≤ 'F' then some (c.toNat - 'A'.toNat + 10)
  else none

/-- Digits in a base, most significant first. -/
def readDigits (base : Nat) : Nat → List Char → Option Nat
  | acc, [] => some acc
  | acc, c :: cs =>
    match digitValue c with
    | some d => if d < base then readDigits base (acc * base + d) cs else none
    | none => none

/-- A decimal or `0x` hexadecimal integer (R146). -/
def readNumber : List Char → Option Nat
  | [] => none
  | ['0', 'x'] => none
  | '0' :: 'x' :: cs => readDigits 16 0 cs
  | cs => readDigits 10 0 cs

/-- Split a line into words at spaces, a comma being a word of its own. `word` is the current word, reversed. -/
def tokens : List Char → List Char → List (List Char)
  | [], [] => []
  | [], word => [word.reverse]
  | c :: cs, word =>
    let flushed := if word.isEmpty then [] else [word.reverse]
    if c = ' ' then flushed ++ tokens cs []
    else if c = ',' then flushed ++ [','] :: tokens cs []
    else tokens cs (c :: word)

/-- A line of the syntax of R146 and R147. -/
def parseLine (line : List Char) : Option AsmLine :=
  match tokens line [] with
  | [['U', 'P', 'D', 'A', 'T', 'E']] => some .update
  | [['D', 'U', 'M', 'P']] => some .dump
  | [['C', 'L', 'R', 'C', 'T', 'L'], ch] => (readNumber ch).map .clrctl
  | [['S', 'E', 'T', 'C', 'T', 'L'], ch, [','], ['n', 'o', 'n', 'e']] => (readNumber ch).map .setctlNone
  | [['S', 'E', 'T', 'C', 'T', 'L'], ch, [','], duty] =>
    match readNumber ch, readNumber duty with
    | some c, some d => some (.setctl c d)
    | _, _ => none
  | _ => none

/-- The word of a line of assembly. -/
def assembleText (line : List Char) : Option Word :=
  match parseLine line with
  | some l => (l.assemble).map encode
  | none => none

end Sys2Proof.Machine
end

