-- ==== Sys2Proof/Safety.lean ====
section
/-! DEFINITION. The terms in which claims are stated: the lock discipline of a trace, the values a chip that does not
change gives, the events of one register access, and the invariant of the block. -/

namespace Sys2Proof.Machine

/-! ## Several steps -/

/-- `n` steps, stopping at the first refusal. -/
def steps : Nat → State → Host.Outcome State Fault Refusal
  | 0, s => .next s
  | n + 1, s =>
    match step s with
    | .next t => steps n t
    | .fault f => .fault f
    | .refused r => .refused r

/-! ## The lock discipline (spec/20_memory.md R91, R112 to R114) -/

/-- Whether an event is allowed by the lock discipline, and whether the lock is held after it: no nested acquisition and
no release of a lock that is not held (R114), port events (R91) and delays (40_internal_ops.md R182) only under it. -/
def lockNext (held : Bool) : BusEvent → Option Bool
  | .acq _ .ok => if held then none else some true
  | .acq _ .timeout => if held then none else some false
  | .rel => if held then some false else none
  | .pw _ _ => if held then some true else none
  | .pr _ _ => if held then some true else none
  | .dly _ => if held then some true else none

/-- A whole trace: `some held` at its end if every event is allowed. -/
def lockRun : Bool → List BusEvent → Option Bool
  | held, [] => some held
  | held, e :: es =>
    match lockNext held e with
    | some h => lockRun h es
    | none => none

/-- An acquisition of the bus lock, obtained or not. -/
def BusEvent.isAcquire : BusEvent → Bool
  | .acq _ _ => true
  | .rel => false
  | .pw _ _ => false
  | .pr _ _ => false
  | .dly _ => false

/-- A release of the bus lock. -/
def BusEvent.isRelease : BusEvent → Bool
  | .acq _ _ => false
  | .rel => true
  | .pw _ _ => false
  | .pr _ _ => false
  | .dly _ => false

/-- A program that keeps the lock discipline, whatever the chip and the lock answer, and ends without the lock. -/
def Prog.Balanced {α : Type} : Bool → Prog α → Prop
  | held, .done _ => held = false
  | held, .portWrite _ _ k => held = true ∧ Prog.Balanced held k
  | held, .portRead _ k => held = true ∧ ∀ v, Prog.Balanced held (k v)
  | held, .acquire _ k => held = false ∧ Prog.Balanced true (k .ok) ∧ Prog.Balanced false (k .timeout)
  | held, .release k => held = true ∧ Prog.Balanced false k
  | held, .delay _ k => held = true ∧ Prog.Balanced held k

/-! ## The events of one register access (95_test_vectors.md section 0; spec/20_memory.md R95 to R99) -/

/-- `BR(a) = v` and `PRd(a) = v`. -/
def readEvents (h : Handshake) (a : Addr) (v : Byte) : List BusEvent :=
  match h with
  | .bank cmd ap dp => [.pw ap cmd, .pw dp (hiByte a), .pw ap (loByte a), .pr dp v]
  | .paged cmd pp ip edp => [.pw pp cmd, .pw pp (hiByte a), .pw ip (loByte a), .pr edp v]
  | .absent => []

/-- `BW(a, v)` and `PWr(a, v)`. -/
def writeEvents (h : Handshake) (a : Addr) (v : Byte) : List BusEvent :=
  match h with
  | .bank cmd ap dp => [.pw ap cmd, .pw dp (hiByte a), .pw ap (loByte a), .pw dp v]
  | .paged cmd pp ip edp => [.pw pp cmd, .pw pp (hiByte a), .pw ip (loByte a), .pw edp v]
  | .absent => []

/-- The EC request sequence of 42_fan_control.md R265 and R272 after the mode register is written. -/
def ecApplyEvents (h : Handshake) (p : Profile) (ch : ControlChannel) (d : Byte) : List BusEvent :=
  writeEvents h ch.reqReg p.reqLoad ++ [.dly p.settleMs] ++ writeEvents h ch.cmdReg d ++
    writeEvents h ch.reqReg p.reqApply ++ [.dly p.settleMs]

/-! ## What a register reads as on a reference device -/

/-- A read on the bank-switched model (20_memory.md R121): mem[a], or the bank itself where the low byte is the selection
command (95_test_vectors.md BH-3). -/
def BankDevice.view (d : BankDevice) (a : Addr) : Byte :=
  if loByte a = d.selectCmd then hiByte a else d.mem.read a.toNat

/-- A read on the paged model (20_memory.md R122): mem[a]. -/
def PagedDevice.view (d : PagedDevice) (a : Addr) : Byte := d.mem.read a.toNat

/-- The chip is a reference device of a handshake, at its ports, which are distinct, and ready for an access, and `f` is
what its registers read as. -/
def Chip.ReadsAs (h : Handshake) (c : Chip) (f : Addr → Byte) : Prop :=
  match h, c with
  | .bank cmd ap dp, .bank d => d.ap = ap ∧ d.dp = dp ∧ ap ≠ dp ∧ d.selectCmd = cmd ∧ f = d.view
  | .paged cmd pp ip edp, .paged d =>
    d.pp = pp ∧ d.ip = ip ∧ d.edp = edp ∧ pp ≠ ip ∧ pp ≠ edp ∧ ip ≠ edp ∧ d.selectCmd = cmd ∧ d.armed = false ∧ f = d.view
  | _, _ => False

/-- The chip is a reference device of the block's handshake at the block's ports, and `f` is what its registers read as. -/
def ReadsAs (s : State) (f : Addr → Byte) : Prop := Chip.ReadsAs s.handshake s.env.chip f

/-- The memory of the chip, where it is a reference device. -/
def Chip.memory : Chip → Memory
  | .oracle _ => []
  | .bank d => d.mem
  | .paged d => d.mem

/-! ## UPDATE's results when registers read as `f` (spec/41_update.md) -/

/-- The value of a voltage channel before the VBAT gate (R201 to R203). -/
def rawVoltView (s : State) (f : Addr → Byte) (ch : VoltChannel) : Option ℚ :=
  if s.profile.family = .ec then
    ecVolt s.config.literals s.config.ecVoltLayout ch.factor (f ch.reg) (f (nextAddr ch.reg))
  else bankVolt s.config.literals (f ch.reg)

/-- VOLT of a channel (R204): the VBAT channel is null when the enable bit is 0. -/
def voltView (s : State) (f : Addr → Byte) (ch : VoltChannel) : Option ℚ :=
  if s.profile.vbatAddr = some ch.reg ∧ vbatEnabled (f s.profile.vbatCtrlReg) = false then none
  else rawVoltView s f ch

/-- The gated value of a primary slot (R206, R207). -/
def slotView (s : State) (f : Addr → Byte) (slot : TempSlot) : Option ℚ :=
  gate s.config.literals
    (if slot.halfBit.val > 0 then halfDegrees (f slot.reg) (f slot.halfReg) slot.halfBit.val
     else wholeDegrees (f slot.reg))

/-- The slots whose source byte names the logical sensor (R208). -/
def slotsFor (s : State) (f : Addr → Byte) (sensor : TempSlot) : List TempSlot :=
  s.profile.temps.filter fun slot => f slot.srcReg == sensor.srcId

/-- TEMP of a bank-family logical sensor (R208, R209, R211): the last slot that names it; else its alternate register;
else null. -/
def bankTempView (s : State) (f : Addr → Byte) (sensor : TempSlot) : Option ℚ :=
  match (slotsFor s f sensor).getLast? with
  | some slot => slotView s f slot
  | none =>
    match sensor.alt with
    | some a => gate s.config.literals (wholeDegrees (f a))
    | none => none

/-- TEMP of a logical sensor (R212). -/
def tempView (s : State) (f : Addr → Byte) (sensor : TempSlot) : Option ℚ :=
  if s.profile.family = .ec then
    ecTemp s.config.literals s.config.ecTempGate (f sensor.reg) (f (nextAddr sensor.reg))
  else bankTempView s f sensor

/-- FAN of a channel (R213 to R217). -/
def fanView (s : State) (f : Addr → Byte) (reg : Addr) : Option ℚ := fanValue s (f reg) (f (nextAddr reg))

/-! ## UPDATE's bus events when registers read as `f` (spec/41_update.md R221, R225) -/

/-- Reads of registers in order, each with the byte that `f` gives. -/
def readsOf (h : Handshake) (f : Addr → Byte) (regs : List Addr) : List BusEvent :=
  regs.flatMap fun a => readEvents h a (f a)

/-- The quirk step probes (40_internal_ops.md R177). -/
abbrev Probes (s : State) : Prop := s.revision ∈ s.profile.quirkRevisions ∧ s.profile.hasVendorId = true

/-- The registers of the quirk step's probe, the high one first (40_internal_ops.md R173, R175). -/
def probeReads (s : State) : List Addr := if Probes s then [s.profile.vendorHiReg, s.profile.vendorLoReg] else []

/-- The registers of a voltage channel: its own, and the enable register of a valid VBAT channel (R201, R202, R204). -/
def voltReads (s : State) (f : Addr → Byte) (ch : VoltChannel) : List Addr :=
  (if s.profile.family = .ec then [ch.reg, nextAddr ch.reg] else [ch.reg]) ++
    (if s.profile.vbatAddr = some ch.reg ∧ (rawVoltView s f ch).isSome then [s.profile.vbatCtrlReg] else [])

/-- The registers of a primary slot: value, half degree, source (R206, R208). -/
def slotReads (slot : TempSlot) : List Addr :=
  [slot.reg] ++ (if 0 < slot.halfBit.val then [slot.halfReg] else []) ++ [slot.srcReg]

/-- The alternate register of a sensor that no slot names (R209). -/
def fallbackReads (s : State) (f : Addr → Byte) (sensor : TempSlot) : List Addr :=
  if (slotsFor s f sensor).isEmpty then sensor.alt.toList else []

/-- The registers of the temperatures: on a bank family all slots and then the fallbacks (R210 to R212). -/
def tempReads (s : State) (f : Addr → Byte) : List Addr :=
  if s.profile.family = .ec then s.profile.temps.flatMap fun sensor => [sensor.reg, nextAddr sensor.reg]
  else s.profile.temps.flatMap slotReads ++ s.profile.temps.flatMap (fallbackReads s f)

/-- The registers of steps 3 to 7 in the order of R221: voltages, temperatures, fans, controls. -/
def phaseReads (s : State) (f : Addr → Byte) : List Addr :=
  s.profile.volts.flatMap (voltReads s f) ++ tempReads s f ++
    (s.profile.fans.flatMap fun reg => [reg, nextAddr reg]) ++ s.profile.ctrls.map ControlChannel.outReg

/-- The bus event that an element of UNLOCK_SEQ issues: a read gives any byte (40_internal_ops.md R178). -/
def UnlockEvent.Issues : UnlockEvent → BusEvent → Prop
  | .write p v, e => e = .pw p v
  | .read p, e => ∃ v, e = .pr p v

/-- An element of UNLOCK_SEQ that reads. -/
def UnlockEvent.isRead : UnlockEvent → Bool
  | .write _ _ => false
  | .read _ => true

/-- The probe fails, so that the quirk step unlocks (40_internal_ops.md R177). -/
abbrev Unlocks (s : State) (f : Addr → Byte) : Prop :=
  Probes s ∧ f s.profile.vendorHiReg ++ f s.profile.vendorLoReg ≠ s.profile.vendorId

/-- The bus events of the quirk step's unlock: those of UNLOCK_SEQ in order, or none. -/
def UnlockEventsOk (s : State) (f : Addr → Byte) (evs : List BusEvent) : Prop :=
  (Unlocks s f → List.Forall₂ UnlockEvent.Issues s.profile.unlockSeq evs) ∧ (¬Unlocks s f → evs = [])

/-- The ports of a handshake. -/
def Handshake.ports : Handshake → List Addr
  | .bank _ ap dp => [ap, dp]
  | .paged _ pp ip edp => [pp, ip, edp]
  | .absent => []

/-- UNLOCK_SEQ writes none of the handshake's ports, so that its writes do not reach a reference device (log 16). -/
def UnlockAvoidsPorts (s : State) : Prop :=
  ∀ (p : Addr) (v : Byte), UnlockEvent.write p v ∈ s.profile.unlockSeq → p ∉ s.handshake.ports

/-! ## UPDATE's results in the spec's own numbers -/

/-- D0's range of temperatures, both ends kept (R207). -/
def inRange (q : ℚ) : Option ℚ := if -55 ≤ q ∧ q ≤ 125 then some q else none

/-- The block holds a channel back as VBAT: it is the VBAT channel and bit 0 of VBAT_CTRL_REG is 0 (R204). -/
abbrev VbatOff (s : State) (f : Addr → Byte) (ch : VoltChannel) : Prop :=
  s.profile.vbatAddr = some ch.reg ∧ (f s.profile.vbatCtrlReg).toNat % 2 = 0

/-- The two bytes of an EC voltage as 12 bits (R202): `(b0 << 4) | (b1 >> 4)`, or `((b0 & 0x0F) << 8) | b1`. -/
def voltBits12 (layout : EcVoltLayout) (b0 b1 : Nat) : Nat :=
  match layout with
  | .hi8LoNib => 16 * b0 + b1 / 16
  | .hi4Lo8 => 256 * (b0 % 16) + b1

/-- The two bytes of a fan counter as 13 bits (R213): `((b0 & 0x1F) << 8) | b1`, or `(b0 << 5) | (b1 & 0x1F)`. -/
def fanBits13 (layout : FanALayout) (b0 b1 : Nat) : Nat :=
  match layout with
  | .hi5Lo8 => 256 * (b0 % 32) + b1
  | .hi8Lo5 => 32 * b0 + b1 % 32

/-- D0's EC_VFACTOR set (R11). -/
def vFactorNumber : VFactor → Nat
  | .x12 => 12
  | .x5 => 5
  | .x2 => 2
  | .x1 => 1

/-- What UPDATE leaves in `t`, written with the numbers of 41_update.md, when the registers read as `f`. -/
structure DecodedInNumbers (s : State) (f : Addr → Byte) (t : State) : Prop where
  /-- R201, R204: 8 millivolts a step, null at 0 and for a disabled VBAT. -/
  bankVolt : s.profile.family ≠ .ec → ∀ (i : Nat) (ch : VoltChannel), s.profile.volts[i]? = some ch →
    t.volt[i]? = some (if (f ch.reg).toNat = 0 ∨ VbatOff s f ch then none
      else some (8 * ((f ch.reg).toNat : ℚ) / 1000))
  /-- R202, R203, R204: 1 millivolt a step, times 12, 5, 2 or 1. -/
  ecVolt : s.profile.family = .ec → ∀ (i : Nat) (ch : VoltChannel), s.profile.volts[i]? = some ch →
    t.volt[i]? = some
      (if voltBits12 s.config.ecVoltLayout (f ch.reg).toNat (f (ch.reg + 1)).toNat = 0 ∨ VbatOff s f ch then none
       else some ((voltBits12 s.config.ecVoltLayout (f ch.reg).toNat (f (ch.reg + 1)).toNat : ℚ) *
         (vFactorNumber ch.factor : ℚ) / 1000))
  /-- R206 to R209: half degrees of the last slot that names the sensor, else whole degrees of its alternate register. -/
  bankTemp : s.profile.family ≠ .ec → ∀ (j : Nat) (sensor : TempSlot), s.profile.temps[j]? = some sensor →
    t.temp[j]? = some
      (match (s.profile.temps.filter fun slot => f slot.srcReg == sensor.srcId).getLast?, sensor.alt with
        | some slot, _ => inRange (((f slot.reg).toInt : ℚ) +
            (if 0 < slot.halfBit.val ∧ (f slot.halfReg).toNat / 2 ^ slot.halfBit.val % 2 = 1 then 1 / 2 else 0))
        | none, some a => inRange ((f a).toInt : ℚ)
        | none, none => none)
  /-- R210: bit 7 of the second byte is a half degree; the range applies only with EC_TEMP_GATE. -/
  ecTemp : s.profile.family = .ec → ∀ (j : Nat) (sensor : TempSlot), s.profile.temps[j]? = some sensor →
    t.temp[j]? = some
      (if s.config.ecTempGate = true then
        inRange (((f sensor.reg).toInt : ℚ) + (if 128 ≤ (f (sensor.reg + 1)).toNat then 1 / 2 else 0))
       else some (((f sensor.reg).toInt : ℚ) + (if 128 ≤ (f (sensor.reg + 1)).toNat then 1 / 2 else 0)))
  /-- R213, R214: FAN_CLK / count, null outside FAN_MIN_COUNT ≤ count < FAN_MAX_COUNT and at 0. -/
  fanA : s.profile.fanStrategy = .aCounter13 → ∀ (i : Nat) (reg : Addr), s.profile.fans[i]? = some reg →
    ∃ n : Nat, n = fanBits13 s.config.fanALayout (f reg).toNat (f (reg + 1)).toNat ∧
      t.fan[i]? = some (if n = 0 ∨ n < s.profile.fanMinCount.toNat ∨ s.profile.fanMaxCount.toNat ≤ n then none
        else some ((s.profile.fanClk : ℚ) / n))
  /-- R215: converted above FAN_MIN_RPM, else 0. -/
  fanB : s.profile.fanStrategy = .bPeriod16 → ∀ (i : Nat) (reg : Addr), s.profile.fans[i]? = some reg →
    ∃ n : Nat, n = 256 * (f reg).toNat + (f (reg + 1)).toNat ∧
      t.fan[i]? = some (some (if s.profile.fanMinRpm.toNat < n
        then (Config.fanBConvert s.variant (BitVec.ofNat 16 n) : ℚ) else 0))
  /-- R216: the two bytes are the RPM. -/
  fanC : s.profile.fanStrategy = .cRpm16 → ∀ (i : Nat) (reg : Addr), s.profile.fans[i]? = some reg →
    t.fan[i]? = some (some (256 * ((f reg).toNat : ℚ) + ((f (reg + 1)).toNat : ℚ)))
  /-- R218: raw · 100 / 255. -/
  bankCtrl : s.profile.family ≠ .ec → ∀ (c : Nat) (ch : ControlChannel), s.profile.ctrls[c]? = some ch →
    t.ctrl[c]? = some (some (((f ch.outReg).toNat : ℚ) * 100 / 255))
  /-- R219: the integer nearest to it. -/
  ecCtrl : s.profile.family = .ec → ∀ (c : Nat) (ch : ControlChannel), s.profile.ctrls[c]? = some ch →
    ∃ n : Int, t.ctrl[c]? = some (some (n : ℚ)) ∧ |(n : ℚ) - ((f ch.outReg).toNat : ℚ) * 100 / 255| < 1 / 2

/-! ## Invariants -/

/-- A profile with every field in the type that R9 and R14 give it: what an implementation may choose. -/
def Profile.wellTyped (p : Profile) : Bool :=
  decide (p.volts.length ≤ Config.maxChannels) && decide (p.temps.length ≤ Config.maxChannels) &&
  decide (p.fans.length ≤ Config.maxChannels) && decide (p.ctrls.length ≤ Config.maxChannels) &&
  decide (p.dumpWindows.length ≤ Config.maxWindows) && (p.dumpWindows.all fun w => decide (w.toNat % 16 = 0)) &&
  decide (0 < p.fanClk) && decide (0 < p.settleMs) &&
  match p.family with
  | .unsupported => decide (p = emptyProfile)
  | .ec => decide (p.fanStrategy = .cRpm16) && !p.hasVendorId && p.quirkRevisions.isEmpty &&
      p.ctrls.all fun a => p.ctrls.all fun b => decide (a.modeReg = b.modeReg)
  | .bankClassic => decide (p.fanStrategy ≠ .cRpm16)
  | .bankMultifan => decide (p.fanStrategy ≠ .cRpm16)
  | .bankLpc => decide (p.fanStrategy ≠ .cRpm16)

/-- A configuration with every parameter in its type: T_DUMP > T_UPDATE (R10), dump windows that fit the buffer (R14), an
injective `variant_code` (R51), a divisor other than 0, and well-typed profiles. No step checks this (log 8). -/
def Config.wellTyped (c : Config) : Bool :=
  decide (c.tUpdate < c.tDump) && decide (Config.maxWindows * c.literals.windowSize ≤ Config.dumpRecords) &&
  decide (c.literals.ctrlDiv ≠ 0) && decide (c.variants.map VariantEntry.code).Nodup &&
  c.variants.all fun e => decide (e.profile.family = .unsupported) || Profile.wellTyped e.profile

/-- The control fields agree with each other (10_state.md R48, 60_exceptions.md R321): codes 3 to 15 never occur, and ERR
is set exactly with a code. -/
def ErrorFieldsOk (s : State) : Prop :=
  (s.err = false ∧ s.errcode = 0) ∨ (s.err = true ∧ (s.errcode = 1 ∨ s.errcode = 2))

/-- Every array has the length of its profile table (10_state.md R34, R36, R58). -/
structure LengthsOk (s : State) : Prop where
  volt : s.volt.length = s.profile.volts.length
  temp : s.temp.length = s.profile.temps.length
  fan : s.fan.length = s.profile.fans.length
  ctrl : s.ctrl.length = s.profile.ctrls.length
  raw : s.ctrlRaw.length = s.profile.ctrls.length
  ovr : s.ovr.length = s.profile.ctrls.length

/-- The lock is held only inside a window that the running program will close (20_memory.md R113; 10_state.md R39). -/
def LockOk (s : State) : Prop :=
  match s.seq with
  | .idle => s.lockHeld = false
  | .resetting evs => Prog.Balanced s.lockHeld ((resetProg s).resume evs)
  | .exec w evs => Prog.Balanced s.lockHeld ((wordProg w s).resume evs)

/-- The invariant of the block. -/
structure State.Inv (s : State) : Prop where
  config : Config.wellTyped s.config = true
  profile : Profile.wellTyped s.profile = true
  counts : Profile.ecCountsFit s.config.literals s.profile = true
  lengths : LengthsOk s
  errors : ErrorFieldsOk s
  dumpCount : s.dumpCount ≤ Config.dumpRecords ∧ s.dumpCount ≤ s.dumpRec.length
  unsupported : s.profile.family = .unsupported → s.vok = false
  lock : LockOk s
  chip : Chip.wf s.env.chip = true

/-- The exact values each array may hold with D0's literals (30_encoding.md R140 to R144). -/
structure RangesOk (s : State) : Prop where
  volt : ∀ q, some q ∈ s.volt → ∃ n : Nat, 1 ≤ n ∧ n ≤ 49140 ∧ q = (n : ℚ) / 1000
  temp : ∀ q, some q ∈ s.temp → ∃ k : Int, -256 ≤ k ∧ k ≤ 255 ∧ q = (k : ℚ) / 2
  fan : ∀ q, some q ∈ s.fan → 0 ≤ q
  ctrl : ∀ q, some q ∈ s.ctrl → 0 ≤ q ∧ q ≤ 100

end Sys2Proof.Machine
end

