-- ==== Sys2Proof/Certificates/Slice0/Obligations.lean ====
section
/-! DEFINITION. The statements about the block, for the provers. Each docstring names the rules of spec/ it formalises. -/

open Sys2Proof Sys2Proof.Machine

/-! ## Encoding (spec/30_encoding.md) -/

/-- Every well-formed command decodes from its own word, with every operand at every value (R130, R131, R132, R146). -/
def Obligations.DecodeOfEncode : Prop :=
  ∀ i : Instr, i.wf = true → decode (encode i) = .ok i

/-- A word that decodes to a command is that command's only word, and the command is well-formed (R131, R132, R135). -/
def Obligations.EncodeOfDecode : Prop :=
  ∀ (w : Word) (i : Instr), decode w = .ok i → i.wf = true ∧ encode i = w

/-- "At most one test matches any w" (R132): two tests of the decoder that match one word are the same test. -/
def Obligations.DecoderTestsExclusive : Prop :=
  ∀ (w : Word) (r₁ r₂ : OpcodeRow), r₁ ∈ opcodeRows → r₂ ∈ opcodeRows → rowMatches r₁ w = true →
    rowMatches r₂ w = true → r₁ = r₂

/-- A word is ILLEGAL exactly when its opcode is reserved (R133) or a must-be-zero field of its opcode is not 0 (R131,
R134); the two rejections are told apart by the opcode alone. -/
def Obligations.IllegalWordsAreTheReservedOnes : Prop :=
  ∀ w : Word,
    (decode w = .error .reservedOpcode ↔ ((w.extractLsb' 0 4).toNat = 0 ∨ 5 ≤ (w.extractLsb' 0 4).toNat)) ∧
    (decode w = .error .mustBeZero ↔
      ((w.extractLsb' 0 4).toNat = 1 ∧ w.extractLsb' 4 28 ≠ 0) ∨
      ((w.extractLsb' 0 4).toNat = 2 ∧ (w.extractLsb' 4 4 ≠ 0 ∨ w.extractLsb' 13 3 ≠ 0 ∨ w.extractLsb' 24 8 ≠ 0)) ∨
      ((w.extractLsb' 0 4).toNat = 3 ∧ (w.extractLsb' 4 4 ≠ 0 ∨ w.extractLsb' 13 19 ≠ 0)) ∨
      ((w.extractLsb' 0 4).toNat = 4 ∧ w.extractLsb' 4 28 ≠ 0))

/-- Words of 95_test_vectors.md section 2.2 and the commands they stand for (R131, R132). -/
def Obligations.SpecWordsDecode : Prop :=
  decode 0x00000001 = .ok .update ∧ decode 0x00800002 = .ok (.setctl 0 128) ∧
  decode 0x00FF1F02 = .ok (.setctl 31 255) ∧ decode 0x00001F03 = .ok (.clrctl 31) ∧ decode 0x00000004 = .ok .dump ∧
  decode 0x00000000 = .error .reservedOpcode ∧ decode 0x00010003 = .error .mustBeZero

/-- "`SETCTL ch, none`" assembles to the word of `CLRCTL ch` for every channel 0..31, and to nothing for another (R147,
R146). -/
def Obligations.PseudoInstructionIsClrctl : Prop :=
  ∀ ch : Nat, (AsmLine.setctlNone ch).assemble = (AsmLine.clrctl ch).assemble ∧
    ((AsmLine.setctlNone ch).assemble).map encode = (if ch < 32 then some (BitVec.ofNat 32 (ch * 256 + 3)) else none)

/-! ## The step -/

/-- With nothing from the host pending, the step runs the command whose word is in the command register
(10_state.md R31, R44; 30_encoding.md R132). -/
def Obligations.StepRunsTheDecodedCommand : Prop :=
  ∀ (s : State) (w : Word) (evs : List BusEvent) (i : Instr),
    s.hostIn = [] → s.seq = .exec w evs → decode w = .ok i → step s = exec i s

/-- A word placed as the host's accepted CMD write leaves it is what the very next step runs (10_state.md R44). -/
def Obligations.StepRunsThePlacedWord : Prop :=
  ∀ (s : State) (w : Nat) (i : Instr), decodeTableWord 32 w = some i →
    step (s.withFetchWord 32 w) = exec i (s.withFetchWord 32 w)

/-- ILLEGAL execution (30_encoding.md R134): an accepted word that decodes to ILLEGAL issues no bus event, whatever VOK
is, and completes with ERR = 1 and ERRCODE = 2 (60_exceptions.md R323); nothing else changes. A defined opcode whose
must-be-zero field is not 0 is such a word. -/
def Obligations.IllegalCommandCompletes : Prop :=
  (∀ (s : State) (w : Word) (r : DecodeReject), s.hostIn = [] → s.seq = .exec w [] → s.lockHeld = false →
    decode w = .error r →
    step s = .next { s with done := true, err := true, errcode := 2, seq := .idle }) ∧
  (∀ w : Word, ((w.extractLsb' 0 4).toNat = 1 ∨ (w.extractLsb' 0 4).toNat = 4) → w.extractLsb' 4 28 ≠ 0 →
    decode w = .error .mustBeZero) ∧
  (∀ w : Word, (w.extractLsb' 0 4).toNat = 2 → (w.extractLsb' 4 4 ≠ 0 ∨ w.extractLsb' 13 3 ≠ 0 ∨ w.extractLsb' 24 8 ≠ 0) →
    decode w = .error .mustBeZero) ∧
  (∀ w : Word, (w.extractLsb' 0 4).toNat = 3 → (w.extractLsb' 4 4 ≠ 0 ∨ w.extractLsb' 13 19 ≠ 0) →
    decode w = .error .mustBeZero)

/-- Running a command (or the reset sequence) in one step gives what running it one bus event at a time gives
(70_reset_and_hazards.md R379): the same trace, the same commit, the same state. -/
def Obligations.TicksReachTheSameCommit : Prop :=
  ∀ s : State, ∃ n : Nat,
    steps n { s with hostIn := List.replicate n .tick } = step { s with hostIn := [] }

/-- One tick of a running command either issues exactly one bus event, k advances by one and no word of the host register
space changes (10_state.md R31, R60), or is the commit: no event, DONE = 1, SEQ = IDLE. -/
def Obligations.TickIsOneEventOrTheCommit : Prop :=
  ∀ (s : State) (w : Word) (evs : List BusEvent) (rest : List HostEvent),
    s.seq = .exec w evs → LockOk s → s.hostIn = .tick :: rest →
    ∃ t, step s = .next t ∧
      ((∃ e, t.trace = s.trace ++ [e] ∧ t.seq = .exec w (evs ++ [e]) ∧ t.seq.k = s.seq.k + 1 ∧
          ∀ off, t.hostRead off = s.hostRead off) ∨
       (t.trace = s.trace ∧ t.seq = .idle ∧ t.done = true))

/-- "No condition is fatal and the block never halts" (60_exceptions.md R328): every command answers a next state, back in
IDLE with DONE = 1, and every step answers one, but for a reset to a supported variant whose profile breaks the length
invariants, which a model refuses (00_scope.md R12). -/
def Obligations.BlockNeverHalts : Prop :=
  (∀ (i : Instr) (s : State), ∃ t, exec i s = .next t ∧ t.seq = .idle ∧ t.done = true) ∧
  (∀ s : State, (∀ v r b rest, s.hostIn = .reset v r b :: rest → ∀ e ∈ s.config.variants, e.code = v →
      e.profile.family ≠ .unsupported → VariantEntry.fits s.config.literals e = true) →
    ∃ t, step s = .next t)

/-! ## Bus access (spec/20_memory.md) -/

/-- The handshake of each family and its ports (R93, R87, R88): a read and a write of one register are four port events
each, in the order of R95 and R96 (bank families) and of R98 and R99 (EC), at BASE plus the offset of each port, for every
logical address, and the read gives the byte of its last event. UNSUPPORTED has no port event. -/
def Obligations.HandshakeEvents : Prop :=
  ∀ (s : State) (a : Addr) (v : Byte) (e : Env),
    ((s.profile.family = .bankClassic ∨ s.profile.family = .bankMultifan ∨ s.profile.family = .bankLpc) →
      ((memRead s.handshake a).run e).events =
        [.pw (s.base + s.config.addrPortOff) s.config.bankSelectCmd,
          .pw (s.base + s.config.dataPortOff) (a.extractLsb' 8 8),
          .pw (s.base + s.config.addrPortOff) (a.extractLsb' 0 8),
          .pr (s.base + s.config.dataPortOff) ((memRead s.handshake a).run e).value] ∧
      ((memWrite s.handshake a v).run e).events =
        [.pw (s.base + s.config.addrPortOff) s.config.bankSelectCmd,
          .pw (s.base + s.config.dataPortOff) (a.extractLsb' 8 8),
          .pw (s.base + s.config.addrPortOff) (a.extractLsb' 0 8),
          .pw (s.base + s.config.dataPortOff) v]) ∧
    (s.profile.family = .ec →
      ((memRead s.handshake a).run e).events =
        [.pw (s.base + s.config.pagePortOff) s.config.pageSelectCmd,
          .pw (s.base + s.config.pagePortOff) (a.extractLsb' 8 8),
          .pw (s.base + s.config.indexPortOff) (a.extractLsb' 0 8),
          .pr (s.base + s.config.ecDataPortOff) ((memRead s.handshake a).run e).value] ∧
      ((memWrite s.handshake a v).run e).events =
        [.pw (s.base + s.config.pagePortOff) s.config.pageSelectCmd,
          .pw (s.base + s.config.pagePortOff) (a.extractLsb' 8 8),
          .pw (s.base + s.config.indexPortOff) (a.extractLsb' 0 8),
          .pw (s.base + s.config.ecDataPortOff) v]) ∧
    (s.profile.family = .unsupported →
      ((memRead s.handshake a).run e).events = [] ∧ ((memWrite s.handshake a v).run e).events = []) ∧
    (s.base + s.config.addrPortOff).toNat = (s.base.toNat + s.config.addrPortOff.toNat) % 65536

/-- On the bank-switched reference model at its ports, BankRead(a) gives mem[a] and leaves memory alone, and
BankWrite(a, v) changes mem[a] to v and nothing else, whenever the low byte of a is not the selection command (R121). -/
def Obligations.BankModelReadsAndWritesMemory : Prop :=
  ∀ (d : BankDevice) (a : Addr) (v : Byte) (e : Env), d.ap ≠ d.dp → d.mem.wf = true → e.chip = .bank d →
    a.extractLsb' 0 8 ≠ d.selectCmd →
    ((memRead (.bank d.selectCmd d.ap d.dp) a).run e).value = d.mem.read a.toNat ∧
    ((memRead (.bank d.selectCmd d.ap d.dp) a).run e).env.chip.memory = d.mem ∧
    (∀ b : Nat, (((memWrite (.bank d.selectCmd d.ap d.dp) a v).run e).env.chip.memory).read b =
      if b = a.toNat then v else d.mem.read b)

/-- On the paged reference model at its ports, not armed, PagedRead(a) gives mem[a] and leaves memory alone, and
PagedWrite(a, v) changes mem[a] to v and nothing else (R122). The page and the index port may coincide (R88): what the
device does then is the model's choice (log 22). -/
def Obligations.PagedModelReadsAndWritesMemory : Prop :=
  ∀ (d : PagedDevice) (a : Addr) (v : Byte) (e : Env), d.pp ≠ d.edp → d.ip ≠ d.edp → d.armed = false →
    d.mem.wf = true → e.chip = .paged d →
    ((memRead (.paged d.selectCmd d.pp d.ip d.edp) a).run e).value = d.mem.read a.toNat ∧
    ((memRead (.paged d.selectCmd d.pp d.ip d.edp) a).run e).env.chip.memory = d.mem ∧
    (∀ b : Nat, (((memWrite (.paged d.selectCmd d.pp d.ip d.edp) a v).run e).env.chip.memory).read b =
      if b = a.toNat then v else d.mem.read b)

/-- Every command, started without the lock, issues a list of events that keeps the lock discipline: port events and
delays only while the lock is held (R91), no nested acquisition and no release of a lock not held, at most one
acquisition and at most one release (R114), and a lock obtained is released before the commit (R113), whatever the chip
and the lock answer. -/
def Obligations.CommandsKeepTheLockDiscipline : Prop :=
  ∀ (i : Instr) (s : State) (w : Word), s.seq = .exec w [] → s.lockHeld = false →
    ∃ t evs, exec i s = .next t ∧ t.trace = s.trace ++ evs ∧ lockRun false evs = some false ∧ t.lockHeld = false ∧
      (evs.filter BusEvent.isAcquire).length ≤ 1 ∧ (evs.filter BusEvent.isRelease).length ≤ 1

/-- A command that ends with an error has issued no event (60_exceptions.md R327): every raise comes before the lock is
acquired. -/
def Obligations.ErrorsComeBeforeTheLock : Prop :=
  ∀ (i : Instr) (s t : State) (w : Word), s.seq = .exec w [] → s.lockHeld = false → exec i s = .next t → t.err = true →
    t.trace = s.trace

/-! ## The identity gate and the priority of conditions -/

/-- While VOK = 0, UPDATE, SETCTL, CLRCTL and DUMP complete with no event and no error, and nothing but DONE, ERR,
ERRCODE and SEQ changes (10_state.md R33; 41_update.md R223; 43_dump.md R305; 60_exceptions.md R324). -/
def Obligations.UnidentifiedBlockDoesNothing : Prop :=
  ∀ (i : Instr) (s : State) (w : Word), s.vok = false → s.seq = .exec w [] →
    exec i s = .next { s with done := true, err := false, errcode := 0, seq := .idle }

/-- CHANNEL_RANGE (60_exceptions.md R322): SETCTL and CLRCTL with VOK = 1 and CH ≥ nC complete with ERRCODE = 1 before any
bus event, on every variant and whatever the lock would have answered; nothing else changes, so CMD_LAST keeps the word,
whose bits 12:8 are the channel. -/
def Obligations.ChannelRangeIsRaised : Prop :=
  ∀ (s : State) (c : Nat) (d : Byte), s.vok = true → s.lockHeld = false → s.profile.ctrls.length ≤ c →
    (∀ w, s.seq = .exec w [] →
      exec (.setctl c d) s = .next { s with done := true, err := true, errcode := 1, seq := .idle } ∧
      exec (.clrctl c) s = .next { s with done := true, err := true, errcode := 1, seq := .idle }) ∧
    (c < 32 → ((s.accept (encode (.setctl c d))).cmdLast.extractLsb' 8 5).toNat = c ∧
      ((s.accept (encode (.clrctl c))).cmdLast.extractLsb' 8 5).toNat = c)

/-! ## UPDATE (spec/41_update.md) -/

/-- Lock timeout of UPDATE (R222): one event, nothing committed, ERR = 0; every array keeps its value. -/
def Obligations.UpdateTimeoutChangesNothing : Prop :=
  ∀ (s : State) (w : Word) (rest : List LockOutcome), s.vok = true → s.seq = .exec w [] →
    s.env.lockDraws = .timeout :: rest →
    exec .update s = .next { s with
      trace := s.trace ++ [.acq s.config.tUpdate .timeout]
      env := { s.env with lockDraws := rest }
      done := true, err := false, errcode := 0, seq := .idle }

/-- A successful UPDATE against a chip whose registers read as `f` (a reference device, R121, R122). Its bus events are the
acquisition, the quirk step's probe and, where that fails, UNLOCK_SEQ with no second probe (R177, R179), then every register
read of the phases in the order of R221, each with the byte of `f`, and the release. Every array holds the value of its
decode rule (R201 to R219), with D0's literals written out in the spec's numbers (`DecodedInNumbers`), CTRL_RAW the bytes
read; the chip's memory is unchanged, and nothing else of the block changes (R224). An UNLOCK_SEQ that is issued must not
write the device's own ports: that its writes then leave the device alone is the model's inference (log 16). -/
def Obligations.UpdateDecodesTheChip : Prop :=
  ∀ (s : State) (w : Word) (f : Addr → Byte) (rest : List LockOutcome), s.vok = true → s.seq = .exec w [] →
    (Unlocks s f → UnlockAvoidsPorts s) → s.env.lockDraws = .ok :: rest → ReadsAs s f →
    ∃ t unlocked, exec .update s = .next t ∧
      t.trace = s.trace ++ ([.acq s.config.tUpdate .ok] ++ readsOf s.handshake f (probeReads s) ++ unlocked ++
        readsOf s.handshake f (phaseReads s f) ++ [.rel]) ∧
      UnlockEventsOk s f unlocked ∧
      t.volt = s.profile.volts.map (voltView s f) ∧
      t.temp = s.profile.temps.map (tempView s f) ∧
      t.fan = s.profile.fans.map (fanView s f) ∧
      t.ctrl = s.profile.ctrls.map (fun ch => some (ctrlValue s (f ch.outReg))) ∧
      t.ctrlRaw = s.profile.ctrls.map (fun ch => f ch.outReg) ∧
      t.env.chip.memory = s.env.chip.memory ∧ ReadsAs t f ∧
      (s.config.literals = {} → DecodedInNumbers s f t) ∧
      t = { s with
        volt := t.volt, temp := t.temp, fan := t.fan, ctrl := t.ctrl, ctrlRaw := t.ctrlRaw
        trace := t.trace, env := t.env, lockHeld := false, done := true, err := false, errcode := 0, seq := .idle }

/-- The event count of a successful UPDATE (R225) against a chip whose registers read as `f`: 2 + Q + 4·(NV + NT + 2·nF + nC),
with Q = 8 where the quirk step probes and 8 + |UNLOCK_SEQ| where the probe fails, NV counting the VBAT reads of valid VBAT
channels, and NT on a bank family the half-degree reads and the fallback reads of sensors that no slot names. An UNLOCK_SEQ
that is issued must not write the device's own ports: that it then leaves the device alone is the model's inference
(log 16). -/
def Obligations.UpdateEventCount : Prop :=
  ∀ (s : State) (w : Word) (f : Addr → Byte) (rest : List LockOutcome), s.vok = true → s.seq = .exec w [] →
    (Unlocks s f → UnlockAvoidsPorts s) → s.env.lockDraws = .ok :: rest → ReadsAs s f →
    ∃ t, exec .update s = .next t ∧
      t.trace.length = s.trace.length + 2 +
        (if Unlocks s f then 8 + s.profile.unlockSeq.length else if Probes s then 8 else 0) +
        4 * ((if s.profile.family = .ec then 2 else 1) * s.profile.volts.length +
          (s.profile.volts.filter fun ch =>
            decide (s.profile.vbatAddr = some ch.reg) && (rawVoltView s f ch).isSome).length +
          2 * s.profile.temps.length +
          (if s.profile.family = .ec then 0
           else (s.profile.temps.filter fun slot => decide (0 < slot.halfBit.val)).length +
             (s.profile.temps.filter fun slot => slot.alt.isSome && (slotsFor s f slot).isEmpty).length) +
          2 * s.profile.fans.length + s.profile.ctrls.length)

/-- UPDATE changes no OVR record, no dump record, no configuration, VOK or CMD_LAST, whatever the chip answers (R224, R274;
10_state.md R32, R33). -/
def Obligations.UpdateFrame : Prop :=
  ∀ s t : State, exec .update s = .next t →
    t.config = s.config ∧ t.variant = s.variant ∧ t.revision = s.revision ∧ t.base = s.base ∧ t.profile = s.profile ∧
    t.vok = s.vok ∧ t.ovr = s.ovr ∧ t.dumpCount = s.dumpCount ∧ t.dumpRec = s.dumpRec ∧ t.cmdLast = s.cmdLast ∧
    t.cmdDropped = s.cmdDropped ∧ t.hostIn = s.hostIn ∧ t.hostOut = s.hostOut

/-- The quirk step (40_internal_ops.md R177 to R179), whatever bytes the chip answers: with the quirk, UPDATE reads the two
identity registers, issues UNLOCK_SEQ in order if they do not match, and from there goes on as the UPDATE of a block without
the quirk that meets the answers left over: the same events, with no second probe, and the same commit. VOK stays. -/
def Obligations.QuirkStepUnlocks : Prop :=
  ∀ (s : State) (w : Word) (rest : List LockOutcome) (hi lo : Byte) (unlockBytes more : List Byte), s.vok = true →
    s.seq = .exec w [] → Probes s → s.handshake ≠ .absent → s.env.lockDraws = .ok :: rest →
    s.env.chip = .oracle (hi :: lo :: (unlockBytes ++ more)) →
    unlockBytes.length = (if hi ++ lo = s.profile.vendorId then 0
      else (s.profile.unlockSeq.filter UnlockEvent.isRead).length) →
    ∃ t u unlocked after, exec .update s = .next t ∧
      exec .update { s with
        profile := { s.profile with quirkRevisions := [] }, env := { s.env with chip := .oracle more } } = .next u ∧
      (if hi ++ lo = s.profile.vendorId then unlocked = []
       else List.Forall₂ UnlockEvent.Issues s.profile.unlockSeq unlocked) ∧
      u.trace = s.trace ++ ([.acq s.config.tUpdate .ok] ++ after) ∧ u.vok = s.vok ∧
      t = { u with
        profile := s.profile
        trace := s.trace ++ ([.acq s.config.tUpdate .ok] ++ readEvents s.handshake s.profile.vendorHiReg hi ++
          readEvents s.handshake s.profile.vendorLoReg lo ++ unlocked ++ after) }

/-- With D0's CTRL_DIV the EC control value is an integer percentage within 1/2 of raw · 100 / 255 (R219), and never a tie:
by 1/102 at least it is nearer than that (R229). -/
def Obligations.EcControlIsTheNearestPercentage : Prop :=
  ∀ raw : Byte, ∃ n : Int, ecCtrl {} raw = (n : ℚ) ∧ 0 ≤ n ∧ n ≤ 100 ∧
    |(n : ℚ) - (raw.toNat : ℚ) * 100 / 255| ≤ 1 / 2 - 1 / 102

/-! ## SETCTL and CLRCTL (spec/42_fan_control.md) -/

/-- The first SETCTL of a channel on a bank family (R260, R262, R264): the two snapshot reads, mode ← 0, command ← duty;
OVR[c] takes the bytes read and becomes active; nothing else of the block changes. -/
def Obligations.SetctlFirstOnBank : Prop :=
  ∀ (s : State) (w : Word) (c : Nat) (d m k : Byte) (ch : ControlChannel) (rest : List LockOutcome) (more : List Byte),
    s.vok = true → s.seq = .exec w [] → s.profile.family ≠ .ec → s.profile.family ≠ .unsupported →
    s.profile.ctrls[c]? = some ch → (s.ovrAt c).active = false →
    s.env.lockDraws = .ok :: rest → s.env.chip = .oracle (m :: k :: more) →
    exec (.setctl c d) s = .next { s with
      trace := s.trace ++ ([.acq s.config.tControl .ok] ++ readEvents s.handshake ch.modeReg m ++
        readEvents s.handshake ch.cmdReg k ++ writeEvents s.handshake ch.modeReg 0 ++
        writeEvents s.handshake ch.cmdReg d ++ [.rel])
      ovr := s.ovr.set c ⟨true, m, k⟩
      env := { s.env with chip := .oracle more, lockDraws := rest }
      lockHeld := false, done := true, err := false, errcode := 0, seq := .idle }

/-- A later SETCTL of the channel on a bank family (R263, R264): no snapshot, the saved bytes stay. -/
def Obligations.SetctlAgainOnBank : Prop :=
  ∀ (s : State) (w : Word) (c : Nat) (d : Byte) (ch : ControlChannel) (rest : List LockOutcome) (more : List Byte),
    s.vok = true → s.seq = .exec w [] → s.profile.family ≠ .ec → s.profile.family ≠ .unsupported →
    s.profile.ctrls[c]? = some ch → (s.ovrAt c).active = true →
    s.env.lockDraws = .ok :: rest → s.env.chip = .oracle more →
    exec (.setctl c d) s = .next { s with
      trace := s.trace ++ ([.acq s.config.tControl .ok] ++ writeEvents s.handshake ch.modeReg 0 ++
        writeEvents s.handshake ch.cmdReg d ++ [.rel])
      env := { s.env with lockDraws := rest }
      lockHeld := false, done := true, err := false, errcode := 0, seq := .idle }

/-- The first SETCTL of a channel on EC (R262, R265): the two snapshot reads, a fresh read of the mode register, the
channel's bit set, LOAD, settle, duty, APPLY, settle. A channel above 7, which only another EC count than 8 gives, has no
bit: the model's choice (log 24). -/
def Obligations.SetctlFirstOnEc : Prop :=
  ∀ (s : State) (w : Word) (c : Nat) (d m k m' : Byte) (ch : ControlChannel) (rest : List LockOutcome)
    (more : List Byte),
    s.vok = true → s.seq = .exec w [] → s.profile.family = .ec →
    s.profile.ctrls[c]? = some ch → (s.ovrAt c).active = false →
    s.env.lockDraws = .ok :: rest → s.env.chip = .oracle (m :: k :: m' :: more) →
    exec (.setctl c d) s = .next { s with
      trace := s.trace ++ ([.acq s.config.tControl .ok] ++ readEvents s.handshake ch.modeReg m ++
        readEvents s.handshake ch.cmdReg k ++ readEvents s.handshake ch.modeReg m' ++
        writeEvents s.handshake ch.modeReg (m' ||| (1#8 <<< c)) ++ ecApplyEvents s.handshake s.profile ch d ++ [.rel])
      ovr := s.ovr.set c ⟨true, m, k⟩
      env := { s.env with chip := .oracle more, lockDraws := rest }
      lockHeld := false, done := true, err := false, errcode := 0, seq := .idle }

/-- A later SETCTL of the channel on EC (R263, R265; a channel above 7 as log 24 says). -/
def Obligations.SetctlAgainOnEc : Prop :=
  ∀ (s : State) (w : Word) (c : Nat) (d m : Byte) (ch : ControlChannel) (rest : List LockOutcome) (more : List Byte),
    s.vok = true → s.seq = .exec w [] → s.profile.family = .ec →
    s.profile.ctrls[c]? = some ch → (s.ovrAt c).active = true →
    s.env.lockDraws = .ok :: rest → s.env.chip = .oracle (m :: more) →
    exec (.setctl c d) s = .next { s with
      trace := s.trace ++ ([.acq s.config.tControl .ok] ++ readEvents s.handshake ch.modeReg m ++
        writeEvents s.handshake ch.modeReg (m ||| (1#8 <<< c)) ++ ecApplyEvents s.handshake s.profile ch d ++ [.rel])
      env := { s.env with chip := .oracle more, lockDraws := rest }
      lockHeld := false, done := true, err := false, errcode := 0, seq := .idle }

/-- CLRCTL of an active override on a bank family (R268, R270, R271): both saved bytes are written back verbatim, mode
first; the override becomes inactive and keeps its saved bytes. -/
def Obligations.ClrctlRestoresOnBank : Prop :=
  ∀ (s : State) (w : Word) (c : Nat) (ch : ControlChannel) (rest : List LockOutcome) (more : List Byte),
    s.vok = true → s.seq = .exec w [] → s.profile.family ≠ .ec → s.profile.family ≠ .unsupported →
    s.profile.ctrls[c]? = some ch → (s.ovrAt c).active = true →
    s.env.lockDraws = .ok :: rest → s.env.chip = .oracle more →
    exec (.clrctl c) s = .next { s with
      trace := s.trace ++ ([.acq s.config.tControl .ok] ++ writeEvents s.handshake ch.modeReg (s.ovrAt c).savedMode ++
        writeEvents s.handshake ch.cmdReg (s.ovrAt c).savedCmd ++ [.rel])
      ovr := s.ovr.set c ⟨false, (s.ovrAt c).savedMode, (s.ovrAt c).savedCmd⟩
      env := { s.env with lockDraws := rest }
      lockHeld := false, done := true, err := false, errcode := 0, seq := .idle }

/-- CLRCTL of an active override on EC (R268, R270, R272), under each EC_RESTORE_RULE (a channel above 7 as log 24 says). -/
def Obligations.ClrctlRestoresOnEc : Prop :=
  ∀ (s : State) (w : Word) (c : Nat) (m : Byte) (ch : ControlChannel) (rest : List LockOutcome) (more : List Byte),
    s.vok = true → s.seq = .exec w [] → s.profile.family = .ec →
    s.profile.ctrls[c]? = some ch → (s.ovrAt c).active = true →
    s.env.lockDraws = .ok :: rest → s.env.chip = .oracle (m :: more) →
    exec (.clrctl c) s = .next { s with
      trace := s.trace ++ ([.acq s.config.tControl .ok] ++ readEvents s.handshake ch.modeReg m ++
        writeEvents s.handshake ch.modeReg
          (match s.config.ecRestoreRule with
            | .andNotSaved => m &&& ~~~(s.ovrAt c).savedMode
            | .andNotBit => m &&& ~~~(1#8 <<< c)) ++
        ecApplyEvents s.handshake s.profile ch (s.ovrAt c).savedCmd ++ [.rel])
      ovr := s.ovr.set c ⟨false, (s.ovrAt c).savedMode, (s.ovrAt c).savedCmd⟩
      env := { s.env with chip := .oracle more, lockDraws := rest }
      lockHeld := false, done := true, err := false, errcode := 0, seq := .idle }

/-- CLRCTL with no active override (R269): the lock is taken and released, no port event, OVR unchanged. -/
def Obligations.ClrctlInactiveTakesAndReleases : Prop :=
  ∀ (s : State) (w : Word) (c : Nat) (ch : ControlChannel) (rest : List LockOutcome),
    s.vok = true → s.seq = .exec w [] → s.profile.ctrls[c]? = some ch → c < s.ovr.length →
    (s.ovrAt c).active = false → s.env.lockDraws = .ok :: rest →
    exec (.clrctl c) s = .next { s with
      trace := s.trace ++ [.acq s.config.tControl .ok, .rel]
      env := { s.env with lockDraws := rest }
      lockHeld := false, done := true, err := false, errcode := 0, seq := .idle }

/-- Lock timeout of SETCTL and CLRCTL (R267): only the acquisition event, no write, OVR unchanged, ERR = 0. -/
def Obligations.ControlTimeoutChangesNothing : Prop :=
  ∀ (s : State) (w : Word) (c : Nat) (d : Byte) (rest : List LockOutcome), s.vok = true → s.seq = .exec w [] →
    c < s.profile.ctrls.length → s.env.lockDraws = .timeout :: rest →
    exec (.setctl c d) s = .next { s with
      trace := s.trace ++ [.acq s.config.tControl .timeout]
      env := { s.env with lockDraws := rest }
      done := true, err := false, errcode := 0, seq := .idle } ∧
    exec (.clrctl c) s = .next { s with
      trace := s.trace ++ [.acq s.config.tControl .timeout]
      env := { s.env with lockDraws := rest }
      done := true, err := false, errcode := 0, seq := .idle }

/-- The frame of SETCTL and CLRCTL, whatever the chip and the lock answer (R260, R266, R268; 10_state.md R35, R37): no
array, no dump record, no configuration and no other channel's OVR record changes. -/
def Obligations.FanControlFrame : Prop :=
  ∀ (s t : State) (c : Nat) (d : Byte), (exec (.setctl c d) s = .next t ∨ exec (.clrctl c) s = .next t) →
    t.config = s.config ∧ t.variant = s.variant ∧ t.revision = s.revision ∧ t.base = s.base ∧ t.profile = s.profile ∧
    t.vok = s.vok ∧ t.volt = s.volt ∧ t.temp = s.temp ∧ t.fan = s.fan ∧ t.ctrl = s.ctrl ∧ t.ctrlRaw = s.ctrlRaw ∧
    t.dumpCount = s.dumpCount ∧ t.dumpRec = s.dumpRec ∧ t.cmdLast = s.cmdLast ∧ t.cmdDropped = s.cmdDropped ∧
    t.hostIn = s.hostIn ∧ t.hostOut = s.hostOut ∧ (∀ c' : Nat, c' ≠ c → t.ovr[c']? = s.ovr[c']?)

/-- What SETCTL stores in a reference device (R264, R265): on a bank family the mode register becomes 0 and the command
register the duty; on EC the channel's bit is set in the mode register, the command register holds the duty and the
request register the APPLY code; every other register reads as before. A later store to the same register wins. An EC
channel above 7 has no bit (log 24). -/
def Obligations.SetctlStoresInTheChip : Prop :=
  ∀ (s : State) (w : Word) (c : Nat) (d : Byte) (ch : ControlChannel) (f : Addr → Byte) (rest : List LockOutcome),
    s.vok = true → s.seq = .exec w [] → s.profile.ctrls[c]? = some ch → s.env.lockDraws = .ok :: rest → ReadsAs s f →
    Chip.wf s.env.chip = true →
    ((s.profile.family ≠ .ec → loByte ch.modeReg ≠ s.config.bankSelectCmd → loByte ch.cmdReg ≠ s.config.bankSelectCmd →
      ∃ t, exec (.setctl c d) s = .next t ∧
        ReadsAs t (fun a => if a = ch.cmdReg then d else if a = ch.modeReg then 0 else f a)) ∧
     (s.profile.family = .ec → ∃ t, exec (.setctl c d) s = .next t ∧
        ReadsAs t (fun a => if a = ch.reqReg then s.profile.reqApply else if a = ch.cmdReg then d
          else if a = ch.modeReg then f ch.modeReg ||| (1#8 <<< c) else f a)))

/-- What CLRCTL of an active override stores in a reference device (R271, R272): on a bank family the saved mode byte and
the saved command byte; on EC the mode byte of EC_RESTORE_RULE, the saved command byte and the APPLY code; every other
register reads as before. A later store to the same register wins. An EC channel above 7 has no bit (log 24). -/
def Obligations.ClrctlStoresInTheChip : Prop :=
  ∀ (s : State) (w : Word) (c : Nat) (ch : ControlChannel) (f : Addr → Byte) (rest : List LockOutcome),
    s.vok = true → s.seq = .exec w [] → s.profile.ctrls[c]? = some ch → (s.ovrAt c).active = true →
    s.env.lockDraws = .ok :: rest → ReadsAs s f → Chip.wf s.env.chip = true →
    ((s.profile.family ≠ .ec → loByte ch.modeReg ≠ s.config.bankSelectCmd → loByte ch.cmdReg ≠ s.config.bankSelectCmd →
      ∃ t, exec (.clrctl c) s = .next t ∧
        ReadsAs t (fun a => if a = ch.cmdReg then (s.ovrAt c).savedCmd else if a = ch.modeReg then (s.ovrAt c).savedMode
          else f a)) ∧
     (s.profile.family = .ec → ∃ t, exec (.clrctl c) s = .next t ∧
        ReadsAs t (fun a => if a = ch.reqReg then s.profile.reqApply
          else if a = ch.cmdReg then (s.ovrAt c).savedCmd
          else if a = ch.modeReg then
            (match s.config.ecRestoreRule with
              | .andNotSaved => f ch.modeReg &&& ~~~(s.ovrAt c).savedMode
              | .andNotBit => f ch.modeReg &&& ~~~(1#8 <<< c))
          else f a)))

/-- On a bank family, a first SETCTL and then a CLRCTL of the same channel leave every register of a reference device as it
was (R275: "restores exactly the pre-override mode and duty bytes"). -/
def Obligations.SetThenClearRestoresTheChip : Prop :=
  ∀ (s : State) (w w' : Word) (c : Nat) (d : Byte) (ch : ControlChannel) (f : Addr → Byte) (rest : List LockOutcome),
    s.vok = true → s.seq = .exec w [] → s.profile.family ≠ .ec → s.profile.ctrls[c]? = some ch → c < s.ovr.length →
    (s.ovrAt c).active = false → loByte ch.modeReg ≠ s.config.bankSelectCmd →
    loByte ch.cmdReg ≠ s.config.bankSelectCmd → s.env.lockDraws = .ok :: .ok :: rest → ReadsAs s f →
    Chip.wf s.env.chip = true →
    ∃ t u, exec (.setctl c d) s = .next t ∧ exec (.clrctl c) (t.accept w') = .next u ∧ ReadsAs u f ∧
      (u.ovrAt c).active = false

/-! ## DUMP (spec/43_dump.md) -/

/-- Lock timeout of DUMP (R304): one event, DUMP_COUNT = 0, ERR = 0. What the records hold is left open here: they read as
0 from then on (R302). -/
def Obligations.DumpTimeoutIsEmpty : Prop :=
  ∀ (s : State) (w : Word) (rest : List LockOutcome), s.vok = true → s.seq = .exec w [] →
    s.env.lockDraws = .timeout :: rest →
    ∃ recs, exec .dump s = .next { s with
      trace := s.trace ++ [.acq s.config.tDump .timeout]
      env := { s.env with lockDraws := rest }
      dumpCount := 0, dumpRec := recs, done := true, err := false, errcode := 0, seq := .idle }

/-- DUMP on EC against a reference device (R300, R303; 30_encoding.md R145): its bus events are the acquisition, one register
read for every address of EC_DUMP_RANGE in ascending order, which is 0x000 to 0xFFF in D0, and the release; the word of
record k is address k and the byte register k reads as; the chip reads as before (R306). -/
def Obligations.EcDumpReadsEveryRegister : Prop :=
  ∀ (s : State) (w : Word) (f : Addr → Byte) (rest : List LockOutcome), s.vok = true → s.seq = .exec w [] →
    s.profile.family = .ec → s.env.lockDraws = .ok :: rest → ReadsAs s f →
    ∃ t, exec .dump s = .next t ∧ t.dumpCount = s.config.literals.ecDumpLast.toNat + 1 ∧
      (s.config.literals = {} → t.dumpCount = 4096) ∧
      t.trace = s.trace ++ ([.acq s.config.tDump .ok] ++
        readsOf s.handshake f ((List.range t.dumpCount).map (BitVec.ofNat 16)) ++ [.rel]) ∧
      (∀ k : Nat, k < t.dumpCount → t.dumpRecWord k = BitVec.ofNat 32 (256 * k + (f (BitVec.ofNat 16 k)).toNat)) ∧
      t.env.chip.memory = s.env.chip.memory ∧ ReadsAs t f

/-- DUMP on a bank family against a reference device (R300, R301, R302): its bus events are the acquisition, the register
reads of each window in list order and ascending within it, DUMP_WINDOW_SIZE of them, 16 in D0, and the release; each record
has its address and the byte it reads as; the chip reads as before (R306). -/
def Obligations.BankDumpReadsTheWindows : Prop :=
  ∀ (s : State) (w : Word) (f : Addr → Byte) (rest : List LockOutcome), s.vok = true → s.seq = .exec w [] →
    s.profile.family ≠ .ec → s.env.lockDraws = .ok :: rest → ReadsAs s f →
    ∃ t, exec .dump s = .next t ∧ t.dumpCount = s.config.literals.windowSize * s.profile.dumpWindows.length ∧
      (s.config.literals = {} → t.dumpCount = 16 * s.profile.dumpWindows.length) ∧
      t.trace = s.trace ++ ([.acq s.config.tDump .ok] ++
        readsOf s.handshake f (s.profile.dumpWindows.flatMap fun base =>
          (List.range s.config.literals.windowSize).map fun i => base + BitVec.ofNat 16 i) ++ [.rel]) ∧
      (∀ (j i : Nat) (base : Addr), s.profile.dumpWindows[j]? = some base → i < s.config.literals.windowSize →
        t.dumpRec[s.config.literals.windowSize * j + i]? = some ⟨base + BitVec.ofNat 16 i, f (base + BitVec.ofNat 16 i)⟩) ∧
      t.env.chip.memory = s.env.chip.memory ∧ ReadsAs t f

/-- DUMP changes no array, no OVR record and no configuration, whatever the chip and the lock answer (R302, R306). -/
def Obligations.DumpFrame : Prop :=
  ∀ s t : State, exec .dump s = .next t →
    t.config = s.config ∧ t.variant = s.variant ∧ t.revision = s.revision ∧ t.base = s.base ∧ t.profile = s.profile ∧
    t.vok = s.vok ∧ t.volt = s.volt ∧ t.temp = s.temp ∧ t.fan = s.fan ∧ t.ctrl = s.ctrl ∧ t.ctrlRaw = s.ctrlRaw ∧
    t.ovr = s.ovr ∧ t.cmdLast = s.cmdLast ∧ t.cmdDropped = s.cmdDropped ∧ t.hostIn = s.hostIn ∧ t.hostOut = s.hostOut

/-- The event counts of 70_reset_and_hazards.md R378, whatever the chip answers: none for VOK = 0 and for an error; 1 for a
failed lock; with the lock, for a variant with any channel counts, the bound of UPDATE (its exact count is
`UpdateEventCount`) and 2 + 4·16·|DUMP_WINDOWS| or, on EC, 16386 for DUMP, the window size and the range being D0's; for a
channel in range, 18 and 10 events for a first and a later SETCTL on a bank family, 32 and 24 on EC (42_fan_control.md R266),
10 and 24 for a CLRCTL that restores, 2 for one that does not. -/
def Obligations.EventCounts : Prop :=
  (∀ (s t : State) (w : Word) (i : Instr), s.seq = .exec w [] → s.lockHeld = false → exec i s = .next t →
    (s.vok = false ∨ t.err = true) → t.trace = s.trace) ∧
  (∀ (s : State) (w : Word) (r : LockOutcome) (rest : List LockOutcome), s.vok = true →
    s.seq = .exec w [] → s.profile.family ≠ .unsupported → s.env.lockDraws = r :: rest →
    ∃ u x, exec .update s = .next u ∧ exec .dump s = .next x ∧
      (r = .timeout → u.trace.length = s.trace.length + 1 ∧ x.trace.length = s.trace.length + 1) ∧
      (r = .ok →
        u.trace.length ≤ s.trace.length + 2 + 8 + s.profile.unlockSeq.length + 4 * (3 * s.profile.volts.length +
          4 * s.profile.temps.length + 2 * s.profile.fans.length + s.profile.ctrls.length) ∧
        x.trace.length = s.trace.length + 2 +
          (if s.profile.family = .ec then 4 * (s.config.literals.ecDumpLast.toNat + 1)
           else 4 * s.config.literals.windowSize * s.profile.dumpWindows.length) ∧
        (s.config.literals = {} → x.trace.length = s.trace.length +
          (if s.profile.family = .ec then 16386 else 2 + 4 * 16 * s.profile.dumpWindows.length)))) ∧
  (∀ (s : State) (w : Word) (c : Nat) (d : Byte) (r : LockOutcome) (rest : List LockOutcome), s.vok = true →
    s.seq = .exec w [] → s.profile.family ≠ .unsupported → s.env.lockDraws = r :: rest → c < s.profile.ctrls.length →
    ∃ t v, exec (.setctl c d) s = .next t ∧ exec (.clrctl c) s = .next v ∧
      (r = .timeout → t.trace.length = s.trace.length + 1 ∧ v.trace.length = s.trace.length + 1) ∧
      (r = .ok →
        t.trace.length = s.trace.length + (if s.profile.family = .ec then (if (s.ovrAt c).active then 24 else 32)
          else (if (s.ovrAt c).active then 10 else 18)) ∧
        v.trace.length = s.trace.length + (if (s.ovrAt c).active then (if s.profile.family = .ec then 24 else 10)
          else 2)))

/-! ## Reset (spec/70_reset_and_hazards.md) -/

/-- Reset from any state, with the profile resolved (R361, R365): two steps later every piece of state has its reset value,
SEQ = IDLE and the lock is free, and a lock that was held is released first. VOK is 0 for UNSUPPORTED, 1 without identity
registers, 0 after a timeout of the probe, and else whether the two bytes read are the VENDOR_ID (R362 to R364). -/
def Obligations.ResetGivesTheResetValues : Prop :=
  ∀ (s : State) (v r : Byte) (b : Addr) (p : Profile), s.hostIn = [.reset v r b] → resolveProfile s.config v = some p →
    ∃ t evs, steps 2 s = .next t ∧
      t.variant = v ∧ t.revision = r ∧ t.base = b ∧ t.profile = p ∧ t.config = s.config ∧
      t.volt = List.replicate p.volts.length none ∧ t.temp = List.replicate p.temps.length none ∧
      t.fan = List.replicate p.fans.length none ∧ t.ctrl = List.replicate p.ctrls.length none ∧
      t.ctrlRaw = List.replicate p.ctrls.length 0 ∧ t.ovr = List.replicate p.ctrls.length ⟨false, 0, 0⟩ ∧
      t.dumpCount = 0 ∧ t.cmdLast = 0 ∧ t.done = false ∧ t.err = false ∧ t.errcode = 0 ∧ t.cmdDropped = false ∧
      t.seq = .idle ∧ t.lockHeld = false ∧ t.hostIn = [] ∧ t.hostOut = s.hostOut ∧
      t.trace = s.trace ++ (if s.lockHeld then [.rel] else []) ++ evs ∧ lockRun false evs = some false ∧
      (p.family = .unsupported → t.vok = false ∧ evs = []) ∧
      (p.family ≠ .unsupported → p.hasVendorId = false → t.vok = true ∧ evs = []) ∧
      (p.family ≠ .unsupported → p.hasVendorId = true → ∀ rest, s.env.lockDraws = .timeout :: rest →
        t.vok = false ∧ evs = [.acq s.config.tProbe .timeout]) ∧
      (p.family ≠ .unsupported → p.hasVendorId = true → ∀ rest hi lo more, s.env.lockDraws = .ok :: rest →
        s.env.chip = .oracle (hi :: lo :: more) → t.vok = decide (hi ++ lo = p.vendorId) ∧ evs.length = 10)

/-- VOK after reset (R362 to R364): 0 for UNSUPPORTED and 1 without identity registers, both with no event; else the probe
of R362: a timeout gives 0 and one event, and the two bytes read give 1 exactly when they are the VENDOR_ID, with ten
events. -/
def Obligations.ResetProbeDecidesVok : Prop :=
  ∀ (s : State), s.hostIn = [] → s.seq = .resetting [] → s.lockHeld = false →
    (s.profile.family = .unsupported → step s = .next { s with vok := false, seq := .idle }) ∧
    (s.profile.family ≠ .unsupported → s.profile.hasVendorId = false →
      step s = .next { s with vok := true, seq := .idle }) ∧
    (s.profile.family ≠ .unsupported → s.profile.hasVendorId = true → ∀ rest, s.env.lockDraws = .timeout :: rest →
      step s = .next { s with vok := false, seq := .idle, trace := s.trace ++ [.acq s.config.tProbe .timeout],
                              env := { s.env with lockDraws := rest } }) ∧
    (s.profile.family ≠ .unsupported → s.profile.hasVendorId = true → ∀ rest hi lo more,
      s.env.lockDraws = .ok :: rest → s.env.chip = .oracle (hi :: lo :: more) →
      step s = .next { s with
        vok := decide (hi ++ lo = s.profile.vendorId), seq := .idle
        trace := s.trace ++ ([.acq s.config.tProbe .ok] ++ readEvents s.handshake s.profile.vendorHiReg hi ++
          readEvents s.handshake s.profile.vendorLoReg lo ++ [.rel])
        env := { s.env with chip := .oracle more, lockDraws := rest } })

/-- An UNSUPPORTED variant, or a tag for which `profile` has no entry, resolves to the empty profile (40_internal_ops.md
R171), whatever else its entry holds: its reset issues no event and leaves the block in IDLE, with empty arrays, VOK = 0 and
no error (R363). -/
def Obligations.UnknownVariantIsHarmless : Prop :=
  ∀ (s : State) (v r : Byte) (b : Addr), s.hostIn = [.reset v r b] →
    (∀ e ∈ s.config.variants, e.code = v → e.profile.family = .unsupported) →
    ∃ t, steps 2 s = .next t ∧ t.profile = emptyProfile ∧ t.seq = .idle ∧ t.vok = false ∧ t.err = false ∧
      t.volt = [] ∧ t.temp = [] ∧ t.fan = [] ∧ t.ctrl = [] ∧ t.ctrlRaw = [] ∧ t.ovr = [] ∧
      t.trace = s.trace ++ (if s.lockHeld then [.rel] else [])

/-- State.reset is what the reset sequence gives for its construction inputs. It rests on the model's choice of them (log 6,
log 7). -/
def Obligations.ResetStateIsTheSequencesEnd : Prop :=
  steps 2 { State.reset with hostIn := [.reset Config.openVariantCode Config.openRevision Config.openBase] } =
    .next State.reset

/-! ## The host port (spec/10_state.md, spec/20_memory.md) -/

/-- A host access that breaks R83 (not 32 bits, not 4-byte aligned, or outside the map) gets a bus error and changes no
state of the block (R84; 60_exceptions.md R329). -/
def Obligations.HostBusErrorChangesNothing : Prop :=
  ∀ (s : State) (bits off : Nat) (v : Word) (rest : List HostEvent), (bits ≠ 32 ∨ off % 4 ≠ 0 ∨ 0x7FFF < off) →
    (s.hostIn = .access (.read bits off) :: rest ∨ s.hostIn = .access (.write bits off v) :: rest) →
    step s = .next { s with hostIn := rest, hostOut := s.hostOut ++ [.busError] }

/-- A host write to an offset other than CMD and STATUS is ignored, mapped read-only or unmapped, and an offset that R43
does not map reads 0 (R85, R86). -/
def Obligations.OtherHostWritesAreIgnored : Prop :=
  (∀ (s : State) (off : Nat) (v : Word) (rest : List HostEvent), off % 4 = 0 → 4 < off → off < 0x8000 →
    s.hostIn = .access (.write 32 off v) :: rest →
    step s = .next { s with hostIn := rest, hostOut := s.hostOut ++ [.written] }) ∧
  (∀ (s : State) (off : Nat), (0x18 ≤ off ∧ off < 0x100) ∨ (0x380 ≤ off ∧ off < 0x4000) → s.hostRead off = 0)

/-- No host read has a side effect (R62): the reply is the register's word and nothing else changes, at any moment of any
command. -/
def Obligations.HostReadsHaveNoSideEffect : Prop :=
  ∀ (s : State) (off : Nat) (rest : List HostEvent), off % 4 = 0 → off < 0x8000 →
    s.hostIn = .access (.read 32 off) :: rest →
    step s = .next { s with hostIn := rest, hostOut := s.hostOut ++ [.data (s.hostRead off)] }

/-- A CMD write (R44): accepted in IDLE (CMD_LAST ← w, SEQ ← EXEC(w, 0), which is BUSY = 1, DONE, ERR and ERRCODE ← 0), and
dropped otherwise, where nothing changes except STATUS.OVR ← 1 (R330). CMD reads as CMD_LAST. -/
def Obligations.CommandWriteIsAcceptedOrDropped : Prop :=
  ∀ (s : State) (w : Word) (rest : List HostEvent), s.hostIn = .access (.write 32 0 w) :: rest →
    (s.seq = .idle → step s = .next { s with
      hostIn := rest, hostOut := s.hostOut ++ [.written], cmdLast := w, seq := .exec w [], done := false, err := false
      errcode := 0 }) ∧
    (s.seq ≠ .idle → step s = .next { s with
      hostIn := rest, hostOut := s.hostOut ++ [.written], cmdDropped := true }) ∧
    s.hostRead 0 = s.cmdLast

/-- A STATUS write (R45) clears DONE if bit 1 of the written word is 1 and OVR if bit 8 is 1, and changes nothing else. -/
def Obligations.StatusWriteClearsOnlyItsBits : Prop :=
  ∀ (s : State) (w : Word) (rest : List HostEvent), s.hostIn = .access (.write 32 4 w) :: rest →
    step s = .next { s with
      hostIn := rest, hostOut := s.hostOut ++ [.written]
      done := if w.getLsbD 1 then false else s.done
      cmdDropped := if w.getLsbD 8 then false else s.cmdDropped }

/-- What every register of the host map reads (R43): CMD (R44), the fields of STATUS (R42, R45, R50), CONFIG0 to CONFIG2 (R51 to R53)
and DUMP_COUNT (R54), and which offset gives which element's word, 0 at and beyond the array's length (R55 to R59, R61). -/
def Obligations.HostReadsGiveTheRegisterWords : Prop :=
  ∀ s : State, s.hostRead 0 = s.cmdLast ∧
    ((s.hostRead 4).getLsbD 0 = decide (s.seq ≠ .idle) ∧ (s.hostRead 4).getLsbD 1 = s.done ∧
      (s.hostRead 4).getLsbD 2 = s.err ∧ (s.hostRead 4).getLsbD 3 = false ∧ (s.hostRead 4).extractLsb' 4 4 = s.errcode ∧
      (s.hostRead 4).getLsbD 8 = s.cmdDropped ∧ (s.hostRead 4).extractLsb' 10 22 = 0 ∧
      ((∀ evs, s.seq ≠ .resetting evs) → (s.hostRead 4).getLsbD 9 = s.vok)) ∧
    ((s.hostRead 0x8).extractLsb' 0 8 = s.variant ∧ (s.hostRead 0x8).extractLsb' 8 8 = s.revision ∧
      (s.hostRead 0x8).extractLsb' 16 16 = s.base) ∧
    ((s.hostRead 0xC).extractLsb' 0 8 = BitVec.ofNat 8 s.profile.volts.length ∧
      (s.hostRead 0xC).extractLsb' 8 8 = BitVec.ofNat 8 s.profile.temps.length ∧
      (s.hostRead 0xC).extractLsb' 16 8 = BitVec.ofNat 8 s.profile.fans.length ∧
      (s.hostRead 0xC).extractLsb' 24 8 = BitVec.ofNat 8 s.profile.ctrls.length) ∧
    (((s.hostRead 0x10).extractLsb' 0 3).toNat =
        (match s.profile.family with
          | .unsupported => 0
          | .bankClassic => 1
          | .bankMultifan => 2
          | .bankLpc => 3
          | .ec => 4) ∧
      ((s.hostRead 0x10).extractLsb' 3 2).toNat =
        (match s.profile.family, s.profile.fanStrategy with
          | .unsupported, _ => 3
          | _, .aCounter13 => 0
          | _, .bPeriod16 => 1
          | _, .cRpm16 => 2) ∧
      (s.hostRead 0x10).getLsbD 5 = s.profile.hasVendorId ∧
      (s.hostRead 0x10).getLsbD 6 = decide (s.revision ∈ s.profile.quirkRevisions) ∧
      (s.hostRead 0x10).extractLsb' 7 25 = 0) ∧
    (s.dumpCount ≤ 4096 → (s.hostRead 0x14).toNat = s.dumpCount) ∧
    (∀ i : Nat, i < 32 →
      s.hostRead (0x100 + 4 * i) = (match s.volt[i]? with | some q => encVolt q | none => 0) ∧
      s.hostRead (0x180 + 4 * i) = (match s.temp[i]? with | some q => encTemp q | none => 0) ∧
      s.hostRead (0x200 + 4 * i) = (match s.fan[i]? with | some q => encFan q | none => 0) ∧
      (∀ raw, s.ctrlRaw[i]? = some raw →
        s.hostRead (0x280 + 4 * i) = (match s.ctrl[i]? with | some q => encCtrl q raw | none => 0)) ∧
      (s.ctrl[i]? = none → s.hostRead (0x280 + 4 * i) = 0) ∧
      (s.hostRead (0x300 + 4 * i)).toNat =
        (match s.ovr[i]? with
          | some o => (if o.active then 65536 else 0) + 256 * o.savedMode.toNat + o.savedCmd.toNat
          | none => 0)) ∧
    (∀ k : Nat, k < 4096 → (s.hostRead (0x4000 + 4 * k)).toNat =
      (match s.dumpRec[k]? with
        | some rec => if k < s.dumpCount then 256 * rec.addr.toNat + rec.value.toNat else 0
        | none => 0))

/-- The result words are exact (30_encoding.md R140 to R143): n millivolts read as 0x80000000 | n, k half degrees as
0x80000000 | (k mod 2^16), an RPM of 0 or more as its integer part with the bound 0x7FFFFFFF, a percentage as its hundredths
without the rest above the raw byte, the bank path's raw · 100 / 255 and EC's integers among them; null reads 0. -/
def Obligations.ResultWordsAreExact : Prop :=
  (∀ n : Nat, 1 ≤ n → n ≤ 49140 → encVolt (some ((n : ℚ) / 1000)) = 0x80000000#32 ||| BitVec.ofNat 32 n) ∧
  (∀ k : Int, -256 ≤ k → k ≤ 255 →
    encTemp (some ((k : ℚ) / 2)) = 0x80000000#32 ||| BitVec.ofNat 32 (k % 65536).toNat) ∧
  (∀ (q : ℚ) (n : Nat), (n : ℚ) ≤ q → q < (n : ℚ) + 1 →
    encFan (some q) = 0x80000000#32 ||| BitVec.ofNat 32 (min n 0x7FFFFFFF)) ∧
  (∀ (q : ℚ) (n : Nat) (raw : Byte), n ≤ 10000 → (n : ℚ) ≤ q * 100 → q * 100 < (n : ℚ) + 1 →
    encCtrl (some q) raw = 0x80000000#32 ||| (BitVec.ofNat 32 n <<< 8) ||| BitVec.ofNat 32 raw.toNat) ∧
  (∀ raw : Byte, encCtrl (some ((raw.toNat : ℚ) * 100 / 255)) raw =
    0x80000000#32 ||| (BitVec.ofNat 32 (raw.toNat * 10000 / 255) <<< 8) ||| BitVec.ofNat 32 raw.toNat) ∧
  encVolt none = 0 ∧ encTemp none = 0 ∧ encFan none = 0 ∧ ∀ raw, encCtrl none raw = 0

/-! ## Whole-machine rules -/

/-- SensorState changes only at the end of an UPDATE, or at a reset (10_state.md R35): for every step. -/
def Obligations.SensorsChangeOnlyByUpdate : Prop :=
  ∀ s t : State, step s = .next t →
    (t.volt ≠ s.volt ∨ t.temp ≠ s.temp ∨ t.fan ≠ s.fan ∨ t.ctrl ≠ s.ctrl ∨ t.ctrlRaw ≠ s.ctrlRaw) →
    (∃ w evs, s.seq = .exec w evs ∧ decode w = .ok .update ∧ t.seq = .idle) ∨
    (∃ v r b rest, s.hostIn = .reset v r b :: rest)

/-- An OVR record changes only at the end of a SETCTL or CLRCTL of its channel, or at a reset (10_state.md R37). -/
def Obligations.OverridesChangeOnlyByFanControl : Prop :=
  ∀ (s t : State) (c : Nat), step s = .next t → t.ovr[c]? ≠ s.ovr[c]? →
    (∃ w evs, s.seq = .exec w evs ∧ ((∃ d, decode w = .ok (.setctl c d)) ∨ decode w = .ok (.clrctl c)) ∧
      t.seq = .idle) ∨
    (∃ v r b rest, s.hostIn = .reset v r b :: rest)

/-- The dump buffer changes only at the end of a DUMP, or at a reset (10_state.md R38). -/
def Obligations.DumpBufferChangesOnlyByDump : Prop :=
  ∀ s t : State, step s = .next t → (t.dumpCount ≠ s.dumpCount ∨ t.dumpRec ≠ s.dumpRec) →
    (∃ w evs, s.seq = .exec w evs ∧ decode w = .ok .dump ∧ t.seq = .idle) ∨
    (∃ v r b rest, s.hostIn = .reset v r b :: rest)

/-- The configuration and VOK (10_state.md R32, R33): no step but those of a reset sequence changes VARIANT, REVISION, BASE,
PROFILE or VOK, and no step changes the implementation's parameters. -/
def Obligations.ConfigurationIsFixed : Prop :=
  ∀ s t : State, step s = .next t → t.config = s.config ∧
    ((t.variant ≠ s.variant ∨ t.revision ≠ s.revision ∨ t.base ≠ s.base ∨ t.profile ≠ s.profile) →
      ∃ v r b rest, s.hostIn = .reset v r b :: rest) ∧
    (t.vok ≠ s.vok → (∃ v r b rest, s.hostIn = .reset v r b :: rest) ∨ ∃ evs, s.seq = .resetting evs)

/-- Every step keeps the invariant of the block (`State.Inv`: array lengths, dump bound, error codes, lock window, profile
rules, the chip memory's canonical form), from every state that meets it, reached or not. -/
def Obligations.EveryStepKeepsTheInvariant : Prop :=
  ∀ s t : State, s.Inv → step s = .next t → t.Inv

/-- State.reset meets the invariant. -/
def Obligations.ResetMeetsTheInvariant : Prop := State.reset.Inv

/-- With D0's literals every step keeps every array element in its range (30_encoding.md R140, R141, R144). -/
def Obligations.EveryStepKeepsTheRanges : Prop :=
  ∀ s t : State, s.config.literals = {} → RangesOk s → step s = .next t → RangesOk t
end

