-- ==== Sys2Proof/Laws/Program.lean ====
section
/-! SUPPORT. Programs: what bind, forEach, run, resume and one event at a time do, the lock discipline of a program, and
properties of every result a program can end with. -/

namespace Sys2Proof.Machine

variable {α β ι : Type}

/-! ## Running -/

@[simp] theorem Ran.cons_value (e : BusEvent) (r : Ran α) : (r.cons e).value = r.value := rfl
@[simp] theorem Ran.cons_events (e : BusEvent) (r : Ran α) : (r.cons e).events = e :: r.events := rfl
@[simp] theorem Ran.cons_env (e : BusEvent) (r : Ran α) : (r.cons e).env = r.env := rfl

@[simp] theorem Prog.bind_done (a : α) (f : α → Prog β) : (Prog.done a).bind f = f a := rfl

/-- A sequence runs its first part, then the rest from where the first part left the environment. -/
theorem Prog.run_bind (p : Prog α) (f : α → Prog β) (e : Env) :
    (p.bind f).run e =
      ⟨((f (p.run e).value).run (p.run e).env).value, (p.run e).events ++ ((f (p.run e).value).run (p.run e).env).events,
        ((f (p.run e).value).run (p.run e).env).env⟩ := by
  induction p generalizing e with
  | done a => rfl
  | portWrite p v k ih => simp [Prog.bind, Prog.run, ih, Ran.cons]
  | portRead p k ih => simp [Prog.bind, Prog.run, ih, Ran.cons]
  | acquire t k ih => simp [Prog.bind, Prog.run, ih, Ran.cons]
  | release k ih => simp [Prog.bind, Prog.run, ih, Ran.cons]
  | delay ms k ih => simp [Prog.bind, Prog.run, ih, Ran.cons]

/-- One event, then the rest of the program, is the whole run. -/
theorem Prog.run_of_issues {p : Prog α} {e : Env} {ev : BusEvent} {e' : Env} (h : p.peek e = .issues ev e') :
    p.run e = ((p.after ev).run e').cons ev := by
  cases p <;> simp_all [Prog.peek, Prog.run, Prog.after] <;> obtain ⟨rfl, rfl⟩ := h <;> rfl

/-- A program that is over has nothing left to run. -/
theorem Prog.run_of_ends {p : Prog α} {e : Env} {a : α} (h : p.peek e = .ends a) : p.run e = ⟨a, [], e⟩ := by
  cases p <;> simp_all [Prog.peek, Prog.run]

/-! ## Resuming -/

@[simp] theorem Prog.resume_nil (p : Prog α) : p.resume [] = p := rfl

theorem Prog.resume_append (p : Prog α) (es fs : List BusEvent) : p.resume (es ++ fs) = (p.resume es).resume fs :=
  List.foldl_append

theorem Prog.resume_snoc (p : Prog α) (es : List BusEvent) (e : BusEvent) :
    p.resume (es ++ [e]) = (p.resume es).after e := by simp [Prog.resume]

/-! ## Every result -/

/-- Every result that a program can end with satisfies `P`, whatever the chip and the lock answer. -/
def Prog.All (P : α → Prop) : Prog α → Prop
  | .done a => P a
  | .portWrite _ _ k => Prog.All P k
  | .portRead _ k => ∀ v, Prog.All P (k v)
  | .acquire _ k => ∀ r, Prog.All P (k r)
  | .release k => Prog.All P k
  | .delay _ k => Prog.All P k

theorem Prog.All.mono {P Q : α → Prop} {p : Prog α} (h : Prog.All P p) (hPQ : ∀ a, P a → Q a) : Prog.All Q p := by
  induction p with
  | done a => exact hPQ a h
  | portWrite _ _ _ ih => exact ih h
  | portRead _ _ ih => exact fun v => ih v (h v)
  | acquire _ _ ih => exact fun r => ih r (h r)
  | release _ ih => exact ih h
  | delay _ _ ih => exact ih h

theorem Prog.All.bind {P : α → Prop} {Q : β → Prop} {p : Prog α} {f : α → Prog β} (h : Prog.All P p)
    (hf : ∀ a, P a → Prog.All Q (f a)) : Prog.All Q (p.bind f) := by
  induction p with
  | done a => exact hf a h
  | portWrite _ _ _ ih => exact ih h
  | portRead _ _ ih => exact fun v => ih v (h v)
  | acquire _ _ ih => exact fun r => ih r (h r)
  | release _ ih => exact ih h
  | delay _ _ ih => exact ih h

theorem Prog.All.trivial (p : Prog α) : Prog.All (fun _ => True) p := by
  induction p with
  | done a => exact True.intro
  | portWrite _ _ _ ih => exact ih
  | portRead _ _ ih => exact ih
  | acquire _ _ ih => exact ih
  | release _ ih => exact ih
  | delay _ _ ih => exact ih

/-- The results of a loop: one for each element, each satisfying `P`. -/
theorem Prog.All.forEach {P : α → Prop} {f : ι → Prog α} (xs : List ι) (h : ∀ x, Prog.All P (f x)) :
    Prog.All (fun as => as.length = xs.length ∧ ∀ a ∈ as, P a) (Prog.forEach f xs) := by
  induction xs with
  | nil => simp [Prog.forEach, Prog.All]
  | cons x xs ih =>
    refine (h x).bind fun a ha => ih.bind fun as has => ?_
    simp [Prog.All, has.1, ha]
    exact has.2

theorem Prog.All.after {P : α → Prop} {p : Prog α} (h : Prog.All P p) (e : BusEvent) : Prog.All P (p.after e) := by
  cases p with
  | done a => exact h
  | portWrite _ _ _ => exact h
  | portRead _ k => cases e <;> first | exact h _ | exact h
  | acquire _ k => cases e <;> first | exact h _ | exact h
  | release _ => exact h
  | delay _ _ => exact h

theorem Prog.All.resume {P : α → Prop} {p : Prog α} (h : Prog.All P p) (es : List BusEvent) :
    Prog.All P (p.resume es) := by
  induction es generalizing p with
  | nil => exact h
  | cons e es ih => exact ih (h.after e)

theorem Prog.All.run {P : α → Prop} {p : Prog α} (h : Prog.All P p) (e : Env) : P (p.run e).value := by
  induction p generalizing e with
  | done a => exact h
  | portWrite _ _ _ ih => exact ih h _
  | portRead _ _ ih => exact ih _ (h _) _
  | acquire _ _ ih => exact ih _ (h _) _
  | release _ ih => exact ih h _
  | delay _ _ ih => exact ih h _

theorem Prog.All.ends {P : α → Prop} {p : Prog α} (h : Prog.All P p) {e : Env} {a : α} (he : p.peek e = .ends a) :
    P a := by
  have := h.run e
  rwa [Prog.run_of_ends he] at this

/-! ## The lock discipline -/

/-- A program that takes no lock event and issues ports and delays only under the lock: the inside of a window. -/
def Prog.Inside : Prog α → Prop
  | .done _ => True
  | .portWrite _ _ k => Prog.Inside k
  | .portRead _ k => ∀ v, Prog.Inside (k v)
  | .acquire _ _ => False
  | .release _ => False
  | .delay _ k => Prog.Inside k

theorem Prog.Inside.bind {p : Prog α} {f : α → Prog β} (h : p.Inside) (hf : ∀ a, (f a).Inside) : (p.bind f).Inside := by
  induction p with
  | done a => exact hf a
  | portWrite _ _ _ ih => exact ih h
  | portRead _ _ ih => exact fun v => ih v (h v)
  | acquire _ _ _ => exact h.elim
  | release _ _ => exact h.elim
  | delay _ _ ih => exact ih h

theorem Prog.Inside.forEach {f : ι → Prog α} (xs : List ι) (h : ∀ x, (f x).Inside) : (Prog.forEach f xs).Inside := by
  induction xs with
  | nil => exact True.intro
  | cons x xs ih => exact (h x).bind fun _ => ih.bind fun _ => True.intro

/-- The inside of a window, then a program that is balanced from inside it. -/
theorem Prog.Inside.balanced {p : Prog α} {f : α → Prog β} (h : p.Inside) (hf : ∀ a, (f a).Balanced true) :
    (p.bind f).Balanced true := by
  induction p with
  | done a => exact hf a
  | portWrite _ _ _ ih => exact ⟨rfl, ih h⟩
  | portRead _ _ ih => exact ⟨rfl, fun v => ih v (h v)⟩
  | acquire _ _ _ => exact h.elim
  | release _ _ => exact h.elim
  | delay _ _ ih => exact ⟨rfl, ih h⟩

/-- LOCK_HELD follows the discipline. -/
theorem lockNext_heldAfter {held held' : Bool} {e : BusEvent} (h : lockNext held e = some held') :
    heldAfter held e = held' := by
  cases e with
  | acq t r => cases held <;> cases r <;> simp_all [lockNext, heldAfter]
  | rel => cases held <;> simp_all [lockNext, heldAfter]
  | pw p v => cases held <;> simp_all [lockNext, heldAfter]
  | pr p v => cases held <;> simp_all [lockNext, heldAfter]
  | dly ms => cases held <;> simp_all [lockNext, heldAfter]

/-- The next event of a balanced program is allowed, and the rest is balanced. -/
theorem Prog.Balanced.issues {held : Bool} {p : Prog α} (h : p.Balanced held) {e e' : Env} {ev : BusEvent}
    (hp : p.peek e = .issues ev e') :
    lockNext held ev = some (heldAfter held ev) ∧ (p.after ev).Balanced (heldAfter held ev) := by
  cases p with
  | done a => simp [Prog.peek] at hp
  | portWrite p v k =>
    obtain ⟨rfl, hk⟩ := h
    simp only [Prog.peek, NextEvent.issues.injEq] at hp
    obtain ⟨rfl, rfl⟩ := hp
    exact ⟨rfl, hk⟩
  | portRead p k =>
    obtain ⟨rfl, hk⟩ := h
    simp only [Prog.peek, NextEvent.issues.injEq] at hp
    obtain ⟨rfl, rfl⟩ := hp
    exact ⟨rfl, hk _⟩
  | acquire t k =>
    obtain ⟨rfl, hok, hto⟩ := h
    simp only [Prog.peek, NextEvent.issues.injEq] at hp
    obtain ⟨rfl, rfl⟩ := hp
    cases hd : e.drawLock.1
    · exact ⟨rfl, by simpa [Prog.after, heldAfter] using hok⟩
    · exact ⟨rfl, by simpa [Prog.after, heldAfter] using hto⟩
  | release k =>
    obtain ⟨rfl, hk⟩ := h
    simp only [Prog.peek, NextEvent.issues.injEq] at hp
    obtain ⟨rfl, rfl⟩ := hp
    exact ⟨rfl, hk⟩
  | delay ms k =>
    obtain ⟨rfl, hk⟩ := h
    simp only [Prog.peek, NextEvent.issues.injEq] at hp
    obtain ⟨rfl, rfl⟩ := hp
    exact ⟨rfl, hk⟩

/-- A balanced program that is over does not hold the lock. -/
theorem Prog.Balanced.ends {held : Bool} {p : Prog α} (h : p.Balanced held) {e : Env} {a : α}
    (hp : p.peek e = .ends a) : held = false := by
  cases p <;> simp [Prog.peek] at hp
  exact h

theorem lockRun_cons {held held' : Bool} {ev : BusEvent} {evs : List BusEvent} (h : lockNext held ev = some held') :
    lockRun held (ev :: evs) = lockRun held' evs := by simp [lockRun, h]

/-- The events of a balanced program keep the lock discipline and end without the lock. -/
theorem Prog.Balanced.run {held : Bool} {p : Prog α} (h : p.Balanced held) (e : Env) :
    lockRun held (p.run e).events = some false := by
  induction p generalizing e held with
  | done a => exact congrArg some h
  | portWrite p v k ih => obtain ⟨rfl, hk⟩ := h; exact ih hk _
  | portRead p k ih => obtain ⟨rfl, hk⟩ := h; exact ih _ (hk _) _
  | acquire t k ih =>
    obtain ⟨rfl, hok, hto⟩ := h
    cases hd : e.drawLock.1
    · simpa [Prog.run, lockRun, lockNext, hd] using ih .ok hok _
    · simpa [Prog.run, lockRun, lockNext, hd] using ih .timeout hto _
  | release k ih => obtain ⟨rfl, hk⟩ := h; exact ih hk _
  | delay ms k ih => obtain ⟨rfl, hk⟩ := h; exact ih hk _

/-- LOCK_HELD after a disciplined list of events. -/
theorem lockRun_heldAfterAll {held held' : Bool} {evs : List BusEvent} (h : lockRun held evs = some held') :
    heldAfterAll held evs = held' := by
  induction evs generalizing held with
  | nil => simpa [lockRun, heldAfterAll] using h
  | cons e es ih =>
    rw [lockRun] at h
    split at h
    · rename_i k hk
      rw [heldAfterAll, List.foldl_cons, lockNext_heldAfter hk]
      exact ih h
    · cases h

end Sys2Proof.Machine
end

