-- ==== Sys2Proof/Laws/State.lean ====
section
/-! SUPPORT. One lemma per field per update of the state: every update reads back without being unfolded. -/

namespace Sys2Proof.Machine

/-! ## Issuing events -/

@[simp] theorem State.issue_config (evs : List BusEvent) (e : Env) (s : State) : (s.issue evs e).config = s.config := rfl
@[simp] theorem State.issue_variant (evs : List BusEvent) (e : Env) (s : State) : (s.issue evs e).variant = s.variant := rfl
@[simp] theorem State.issue_revision (evs : List BusEvent) (e : Env) (s : State) : (s.issue evs e).revision = s.revision := rfl
@[simp] theorem State.issue_base (evs : List BusEvent) (e : Env) (s : State) : (s.issue evs e).base = s.base := rfl
@[simp] theorem State.issue_profile (evs : List BusEvent) (e : Env) (s : State) : (s.issue evs e).profile = s.profile := rfl
@[simp] theorem State.issue_vok (evs : List BusEvent) (e : Env) (s : State) : (s.issue evs e).vok = s.vok := rfl
@[simp] theorem State.issue_volt (evs : List BusEvent) (e : Env) (s : State) : (s.issue evs e).volt = s.volt := rfl
@[simp] theorem State.issue_temp (evs : List BusEvent) (e : Env) (s : State) : (s.issue evs e).temp = s.temp := rfl
@[simp] theorem State.issue_fan (evs : List BusEvent) (e : Env) (s : State) : (s.issue evs e).fan = s.fan := rfl
@[simp] theorem State.issue_ctrl (evs : List BusEvent) (e : Env) (s : State) : (s.issue evs e).ctrl = s.ctrl := rfl
@[simp] theorem State.issue_ctrlRaw (evs : List BusEvent) (e : Env) (s : State) : (s.issue evs e).ctrlRaw = s.ctrlRaw := rfl
@[simp] theorem State.issue_ovr (evs : List BusEvent) (e : Env) (s : State) : (s.issue evs e).ovr = s.ovr := rfl
@[simp] theorem State.issue_dumpCount (evs : List BusEvent) (e : Env) (s : State) : (s.issue evs e).dumpCount = s.dumpCount := rfl
@[simp] theorem State.issue_dumpRec (evs : List BusEvent) (e : Env) (s : State) : (s.issue evs e).dumpRec = s.dumpRec := rfl
@[simp] theorem State.issue_cmdLast (evs : List BusEvent) (e : Env) (s : State) : (s.issue evs e).cmdLast = s.cmdLast := rfl
@[simp] theorem State.issue_done (evs : List BusEvent) (e : Env) (s : State) : (s.issue evs e).done = s.done := rfl
@[simp] theorem State.issue_err (evs : List BusEvent) (e : Env) (s : State) : (s.issue evs e).err = s.err := rfl
@[simp] theorem State.issue_errcode (evs : List BusEvent) (e : Env) (s : State) : (s.issue evs e).errcode = s.errcode := rfl
@[simp] theorem State.issue_cmdDropped (evs : List BusEvent) (e : Env) (s : State) : (s.issue evs e).cmdDropped = s.cmdDropped := rfl
@[simp] theorem State.issue_seq (evs : List BusEvent) (e : Env) (s : State) : (s.issue evs e).seq = s.seq.advance evs := rfl
@[simp] theorem State.issue_lockHeld (evs : List BusEvent) (e : Env) (s : State) : (s.issue evs e).lockHeld = heldAfterAll s.lockHeld evs := rfl
@[simp] theorem State.issue_trace (evs : List BusEvent) (e : Env) (s : State) : (s.issue evs e).trace = s.trace ++ evs := rfl
@[simp] theorem State.issue_env (evs : List BusEvent) (e : Env) (s : State) : (s.issue evs e).env = e := rfl
@[simp] theorem State.issue_hostIn (evs : List BusEvent) (e : Env) (s : State) : (s.issue evs e).hostIn = s.hostIn := rfl
@[simp] theorem State.issue_hostOut (evs : List BusEvent) (e : Env) (s : State) : (s.issue evs e).hostOut = s.hostOut := rfl

/-! ## Freeing the lock -/

@[simp] theorem State.freeLock_config (s : State) : (s.freeLock).config = s.config := by
  unfold State.freeLock; split <;> rfl
@[simp] theorem State.freeLock_variant (s : State) : (s.freeLock).variant = s.variant := by
  unfold State.freeLock; split <;> rfl
@[simp] theorem State.freeLock_revision (s : State) : (s.freeLock).revision = s.revision := by
  unfold State.freeLock; split <;> rfl
@[simp] theorem State.freeLock_base (s : State) : (s.freeLock).base = s.base := by
  unfold State.freeLock; split <;> rfl
@[simp] theorem State.freeLock_profile (s : State) : (s.freeLock).profile = s.profile := by
  unfold State.freeLock; split <;> rfl
@[simp] theorem State.freeLock_vok (s : State) : (s.freeLock).vok = s.vok := by
  unfold State.freeLock; split <;> rfl
@[simp] theorem State.freeLock_volt (s : State) : (s.freeLock).volt = s.volt := by
  unfold State.freeLock; split <;> rfl
@[simp] theorem State.freeLock_temp (s : State) : (s.freeLock).temp = s.temp := by
  unfold State.freeLock; split <;> rfl
@[simp] theorem State.freeLock_fan (s : State) : (s.freeLock).fan = s.fan := by
  unfold State.freeLock; split <;> rfl
@[simp] theorem State.freeLock_ctrl (s : State) : (s.freeLock).ctrl = s.ctrl := by
  unfold State.freeLock; split <;> rfl
@[simp] theorem State.freeLock_ctrlRaw (s : State) : (s.freeLock).ctrlRaw = s.ctrlRaw := by
  unfold State.freeLock; split <;> rfl
@[simp] theorem State.freeLock_ovr (s : State) : (s.freeLock).ovr = s.ovr := by
  unfold State.freeLock; split <;> rfl
@[simp] theorem State.freeLock_dumpCount (s : State) : (s.freeLock).dumpCount = s.dumpCount := by
  unfold State.freeLock; split <;> rfl
@[simp] theorem State.freeLock_dumpRec (s : State) : (s.freeLock).dumpRec = s.dumpRec := by
  unfold State.freeLock; split <;> rfl
@[simp] theorem State.freeLock_cmdLast (s : State) : (s.freeLock).cmdLast = s.cmdLast := by
  unfold State.freeLock; split <;> rfl
@[simp] theorem State.freeLock_done (s : State) : (s.freeLock).done = s.done := by
  unfold State.freeLock; split <;> rfl
@[simp] theorem State.freeLock_err (s : State) : (s.freeLock).err = s.err := by
  unfold State.freeLock; split <;> rfl
@[simp] theorem State.freeLock_errcode (s : State) : (s.freeLock).errcode = s.errcode := by
  unfold State.freeLock; split <;> rfl
@[simp] theorem State.freeLock_cmdDropped (s : State) : (s.freeLock).cmdDropped = s.cmdDropped := by
  unfold State.freeLock; split <;> rfl
@[simp] theorem State.freeLock_env (s : State) : (s.freeLock).env = s.env := by
  unfold State.freeLock; split <;> rfl
@[simp] theorem State.freeLock_hostIn (s : State) : (s.freeLock).hostIn = s.hostIn := by
  unfold State.freeLock; split <;> rfl
@[simp] theorem State.freeLock_hostOut (s : State) : (s.freeLock).hostOut = s.hostOut := by
  unfold State.freeLock; split <;> rfl

@[simp] theorem State.freeLock_lockHeld (s : State) : s.freeLock.lockHeld = false := by
  unfold State.freeLock; split <;> simp_all [heldAfterAll, heldAfter]

@[simp] theorem State.freeLock_trace (s : State) :
    s.freeLock.trace = s.trace ++ (if s.lockHeld then [.rel] else []) := by
  unfold State.freeLock; split <;> simp_all

/-! ## Completion -/

@[simp] theorem State.finish_config (s : State) : (s.finish).config = s.config := rfl
@[simp] theorem State.finish_variant (s : State) : (s.finish).variant = s.variant := rfl
@[simp] theorem State.finish_revision (s : State) : (s.finish).revision = s.revision := rfl
@[simp] theorem State.finish_base (s : State) : (s.finish).base = s.base := rfl
@[simp] theorem State.finish_profile (s : State) : (s.finish).profile = s.profile := rfl
@[simp] theorem State.finish_vok (s : State) : (s.finish).vok = s.vok := rfl
@[simp] theorem State.finish_volt (s : State) : (s.finish).volt = s.volt := rfl
@[simp] theorem State.finish_temp (s : State) : (s.finish).temp = s.temp := rfl
@[simp] theorem State.finish_fan (s : State) : (s.finish).fan = s.fan := rfl
@[simp] theorem State.finish_ctrl (s : State) : (s.finish).ctrl = s.ctrl := rfl
@[simp] theorem State.finish_ctrlRaw (s : State) : (s.finish).ctrlRaw = s.ctrlRaw := rfl
@[simp] theorem State.finish_ovr (s : State) : (s.finish).ovr = s.ovr := rfl
@[simp] theorem State.finish_dumpCount (s : State) : (s.finish).dumpCount = s.dumpCount := rfl
@[simp] theorem State.finish_dumpRec (s : State) : (s.finish).dumpRec = s.dumpRec := rfl
@[simp] theorem State.finish_cmdLast (s : State) : (s.finish).cmdLast = s.cmdLast := rfl
@[simp] theorem State.finish_done (s : State) : (s.finish).done = true := rfl
@[simp] theorem State.finish_err (s : State) : (s.finish).err = false := rfl
@[simp] theorem State.finish_errcode (s : State) : (s.finish).errcode = 0 := rfl
@[simp] theorem State.finish_cmdDropped (s : State) : (s.finish).cmdDropped = s.cmdDropped := rfl
@[simp] theorem State.finish_seq (s : State) : (s.finish).seq = .idle := rfl
@[simp] theorem State.finish_lockHeld (s : State) : (s.finish).lockHeld = s.lockHeld := rfl
@[simp] theorem State.finish_trace (s : State) : (s.finish).trace = s.trace := rfl
@[simp] theorem State.finish_env (s : State) : (s.finish).env = s.env := rfl
@[simp] theorem State.finish_hostIn (s : State) : (s.finish).hostIn = s.hostIn := rfl
@[simp] theorem State.finish_hostOut (s : State) : (s.finish).hostOut = s.hostOut := rfl

@[simp] theorem State.raiseError_config (e : ErrorCode) (s : State) : (s.raiseError e).config = s.config := by
  simp [State.raiseError]
@[simp] theorem State.raiseError_variant (e : ErrorCode) (s : State) : (s.raiseError e).variant = s.variant := by
  simp [State.raiseError]
@[simp] theorem State.raiseError_revision (e : ErrorCode) (s : State) : (s.raiseError e).revision = s.revision := by
  simp [State.raiseError]
@[simp] theorem State.raiseError_base (e : ErrorCode) (s : State) : (s.raiseError e).base = s.base := by
  simp [State.raiseError]
@[simp] theorem State.raiseError_profile (e : ErrorCode) (s : State) : (s.raiseError e).profile = s.profile := by
  simp [State.raiseError]
@[simp] theorem State.raiseError_vok (e : ErrorCode) (s : State) : (s.raiseError e).vok = s.vok := by
  simp [State.raiseError]
@[simp] theorem State.raiseError_volt (e : ErrorCode) (s : State) : (s.raiseError e).volt = s.volt := by
  simp [State.raiseError]
@[simp] theorem State.raiseError_temp (e : ErrorCode) (s : State) : (s.raiseError e).temp = s.temp := by
  simp [State.raiseError]
@[simp] theorem State.raiseError_fan (e : ErrorCode) (s : State) : (s.raiseError e).fan = s.fan := by
  simp [State.raiseError]
@[simp] theorem State.raiseError_ctrl (e : ErrorCode) (s : State) : (s.raiseError e).ctrl = s.ctrl := by
  simp [State.raiseError]
@[simp] theorem State.raiseError_ctrlRaw (e : ErrorCode) (s : State) : (s.raiseError e).ctrlRaw = s.ctrlRaw := by
  simp [State.raiseError]
@[simp] theorem State.raiseError_ovr (e : ErrorCode) (s : State) : (s.raiseError e).ovr = s.ovr := by
  simp [State.raiseError]
@[simp] theorem State.raiseError_dumpCount (e : ErrorCode) (s : State) : (s.raiseError e).dumpCount = s.dumpCount := by
  simp [State.raiseError]
@[simp] theorem State.raiseError_dumpRec (e : ErrorCode) (s : State) : (s.raiseError e).dumpRec = s.dumpRec := by
  simp [State.raiseError]
@[simp] theorem State.raiseError_cmdLast (e : ErrorCode) (s : State) : (s.raiseError e).cmdLast = s.cmdLast := by
  simp [State.raiseError]
@[simp] theorem State.raiseError_done (e : ErrorCode) (s : State) : (s.raiseError e).done = true := by
  simp [State.raiseError]
@[simp] theorem State.raiseError_err (e : ErrorCode) (s : State) : (s.raiseError e).err = true := by
  simp [State.raiseError]
@[simp] theorem State.raiseError_errcode (e : ErrorCode) (s : State) : (s.raiseError e).errcode = e.code := by
  simp [State.raiseError]
@[simp] theorem State.raiseError_cmdDropped (e : ErrorCode) (s : State) : (s.raiseError e).cmdDropped = s.cmdDropped := by
  simp [State.raiseError]
@[simp] theorem State.raiseError_seq (e : ErrorCode) (s : State) : (s.raiseError e).seq = .idle := by
  simp [State.raiseError]
@[simp] theorem State.raiseError_lockHeld (e : ErrorCode) (s : State) : (s.raiseError e).lockHeld = false := by
  simp [State.raiseError]
@[simp] theorem State.raiseError_trace (e : ErrorCode) (s : State) : (s.raiseError e).trace = s.trace ++ (if s.lockHeld then [.rel] else []) := by
  simp [State.raiseError]
@[simp] theorem State.raiseError_env (e : ErrorCode) (s : State) : (s.raiseError e).env = s.env := by
  simp [State.raiseError]
@[simp] theorem State.raiseError_hostIn (e : ErrorCode) (s : State) : (s.raiseError e).hostIn = s.hostIn := by
  simp [State.raiseError]
@[simp] theorem State.raiseError_hostOut (e : ErrorCode) (s : State) : (s.raiseError e).hostOut = s.hostOut := by
  simp [State.raiseError]

/-! ## Accepting a command -/

@[simp] theorem State.accept_config (w : Word) (s : State) : (s.accept w).config = s.config := rfl
@[simp] theorem State.accept_variant (w : Word) (s : State) : (s.accept w).variant = s.variant := rfl
@[simp] theorem State.accept_revision (w : Word) (s : State) : (s.accept w).revision = s.revision := rfl
@[simp] theorem State.accept_base (w : Word) (s : State) : (s.accept w).base = s.base := rfl
@[simp] theorem State.accept_profile (w : Word) (s : State) : (s.accept w).profile = s.profile := rfl
@[simp] theorem State.accept_vok (w : Word) (s : State) : (s.accept w).vok = s.vok := rfl
@[simp] theorem State.accept_volt (w : Word) (s : State) : (s.accept w).volt = s.volt := rfl
@[simp] theorem State.accept_temp (w : Word) (s : State) : (s.accept w).temp = s.temp := rfl
@[simp] theorem State.accept_fan (w : Word) (s : State) : (s.accept w).fan = s.fan := rfl
@[simp] theorem State.accept_ctrl (w : Word) (s : State) : (s.accept w).ctrl = s.ctrl := rfl
@[simp] theorem State.accept_ctrlRaw (w : Word) (s : State) : (s.accept w).ctrlRaw = s.ctrlRaw := rfl
@[simp] theorem State.accept_ovr (w : Word) (s : State) : (s.accept w).ovr = s.ovr := rfl
@[simp] theorem State.accept_dumpCount (w : Word) (s : State) : (s.accept w).dumpCount = s.dumpCount := rfl
@[simp] theorem State.accept_dumpRec (w : Word) (s : State) : (s.accept w).dumpRec = s.dumpRec := rfl
@[simp] theorem State.accept_cmdLast (w : Word) (s : State) : (s.accept w).cmdLast = w := rfl
@[simp] theorem State.accept_done (w : Word) (s : State) : (s.accept w).done = false := rfl
@[simp] theorem State.accept_err (w : Word) (s : State) : (s.accept w).err = false := rfl
@[simp] theorem State.accept_errcode (w : Word) (s : State) : (s.accept w).errcode = 0 := rfl
@[simp] theorem State.accept_cmdDropped (w : Word) (s : State) : (s.accept w).cmdDropped = s.cmdDropped := rfl
@[simp] theorem State.accept_seq (w : Word) (s : State) : (s.accept w).seq = .exec w [] := rfl
@[simp] theorem State.accept_lockHeld (w : Word) (s : State) : (s.accept w).lockHeld = s.lockHeld := rfl
@[simp] theorem State.accept_trace (w : Word) (s : State) : (s.accept w).trace = s.trace := rfl
@[simp] theorem State.accept_env (w : Word) (s : State) : (s.accept w).env = s.env := rfl
@[simp] theorem State.accept_hostIn (w : Word) (s : State) : (s.accept w).hostIn = s.hostIn := rfl
@[simp] theorem State.accept_hostOut (w : Word) (s : State) : (s.accept w).hostOut = s.hostOut := rfl

@[simp] theorem State.commanded_config (w : Word) (s : State) : (s.commanded w).config = s.config := rfl
@[simp] theorem State.commanded_variant (w : Word) (s : State) : (s.commanded w).variant = s.variant := rfl
@[simp] theorem State.commanded_revision (w : Word) (s : State) : (s.commanded w).revision = s.revision := rfl
@[simp] theorem State.commanded_base (w : Word) (s : State) : (s.commanded w).base = s.base := rfl
@[simp] theorem State.commanded_profile (w : Word) (s : State) : (s.commanded w).profile = s.profile := rfl
@[simp] theorem State.commanded_vok (w : Word) (s : State) : (s.commanded w).vok = s.vok := rfl
@[simp] theorem State.commanded_volt (w : Word) (s : State) : (s.commanded w).volt = s.volt := rfl
@[simp] theorem State.commanded_temp (w : Word) (s : State) : (s.commanded w).temp = s.temp := rfl
@[simp] theorem State.commanded_fan (w : Word) (s : State) : (s.commanded w).fan = s.fan := rfl
@[simp] theorem State.commanded_ctrl (w : Word) (s : State) : (s.commanded w).ctrl = s.ctrl := rfl
@[simp] theorem State.commanded_ctrlRaw (w : Word) (s : State) : (s.commanded w).ctrlRaw = s.ctrlRaw := rfl
@[simp] theorem State.commanded_ovr (w : Word) (s : State) : (s.commanded w).ovr = s.ovr := rfl
@[simp] theorem State.commanded_dumpCount (w : Word) (s : State) : (s.commanded w).dumpCount = s.dumpCount := rfl
@[simp] theorem State.commanded_dumpRec (w : Word) (s : State) : (s.commanded w).dumpRec = s.dumpRec := rfl
@[simp] theorem State.commanded_cmdLast (w : Word) (s : State) : (s.commanded w).cmdLast = w := rfl
@[simp] theorem State.commanded_done (w : Word) (s : State) : (s.commanded w).done = false := rfl
@[simp] theorem State.commanded_err (w : Word) (s : State) : (s.commanded w).err = false := rfl
@[simp] theorem State.commanded_errcode (w : Word) (s : State) : (s.commanded w).errcode = 0 := rfl
@[simp] theorem State.commanded_cmdDropped (w : Word) (s : State) : (s.commanded w).cmdDropped = s.cmdDropped := rfl
@[simp] theorem State.commanded_seq (w : Word) (s : State) : (s.commanded w).seq = .exec w [] := rfl
@[simp] theorem State.commanded_lockHeld (w : Word) (s : State) : (s.commanded w).lockHeld = s.lockHeld := rfl
@[simp] theorem State.commanded_trace (w : Word) (s : State) : (s.commanded w).trace = s.trace := rfl
@[simp] theorem State.commanded_env (w : Word) (s : State) : (s.commanded w).env = s.env := rfl
@[simp] theorem State.commanded_hostIn (w : Word) (s : State) : (s.commanded w).hostIn = [] := rfl
@[simp] theorem State.commanded_hostOut (w : Word) (s : State) : (s.commanded w).hostOut = s.hostOut := rfl

/-! ## Host side -/

@[simp] theorem State.writeStatus_config (w : Word) (s : State) : (s.writeStatus w).config = s.config := rfl
@[simp] theorem State.writeStatus_variant (w : Word) (s : State) : (s.writeStatus w).variant = s.variant := rfl
@[simp] theorem State.writeStatus_revision (w : Word) (s : State) : (s.writeStatus w).revision = s.revision := rfl
@[simp] theorem State.writeStatus_base (w : Word) (s : State) : (s.writeStatus w).base = s.base := rfl
@[simp] theorem State.writeStatus_profile (w : Word) (s : State) : (s.writeStatus w).profile = s.profile := rfl
@[simp] theorem State.writeStatus_vok (w : Word) (s : State) : (s.writeStatus w).vok = s.vok := rfl
@[simp] theorem State.writeStatus_volt (w : Word) (s : State) : (s.writeStatus w).volt = s.volt := rfl
@[simp] theorem State.writeStatus_temp (w : Word) (s : State) : (s.writeStatus w).temp = s.temp := rfl
@[simp] theorem State.writeStatus_fan (w : Word) (s : State) : (s.writeStatus w).fan = s.fan := rfl
@[simp] theorem State.writeStatus_ctrl (w : Word) (s : State) : (s.writeStatus w).ctrl = s.ctrl := rfl
@[simp] theorem State.writeStatus_ctrlRaw (w : Word) (s : State) : (s.writeStatus w).ctrlRaw = s.ctrlRaw := rfl
@[simp] theorem State.writeStatus_ovr (w : Word) (s : State) : (s.writeStatus w).ovr = s.ovr := rfl
@[simp] theorem State.writeStatus_dumpCount (w : Word) (s : State) : (s.writeStatus w).dumpCount = s.dumpCount := rfl
@[simp] theorem State.writeStatus_dumpRec (w : Word) (s : State) : (s.writeStatus w).dumpRec = s.dumpRec := rfl
@[simp] theorem State.writeStatus_cmdLast (w : Word) (s : State) : (s.writeStatus w).cmdLast = s.cmdLast := rfl
@[simp] theorem State.writeStatus_done (w : Word) (s : State) : (s.writeStatus w).done = (s.done && !w.getLsbD 1) := rfl
@[simp] theorem State.writeStatus_err (w : Word) (s : State) : (s.writeStatus w).err = s.err := rfl
@[simp] theorem State.writeStatus_errcode (w : Word) (s : State) : (s.writeStatus w).errcode = s.errcode := rfl
@[simp] theorem State.writeStatus_cmdDropped (w : Word) (s : State) : (s.writeStatus w).cmdDropped = (s.cmdDropped && !w.getLsbD 8) := rfl
@[simp] theorem State.writeStatus_seq (w : Word) (s : State) : (s.writeStatus w).seq = s.seq := rfl
@[simp] theorem State.writeStatus_lockHeld (w : Word) (s : State) : (s.writeStatus w).lockHeld = s.lockHeld := rfl
@[simp] theorem State.writeStatus_trace (w : Word) (s : State) : (s.writeStatus w).trace = s.trace := rfl
@[simp] theorem State.writeStatus_env (w : Word) (s : State) : (s.writeStatus w).env = s.env := rfl
@[simp] theorem State.writeStatus_hostIn (w : Word) (s : State) : (s.writeStatus w).hostIn = s.hostIn := rfl
@[simp] theorem State.writeStatus_hostOut (w : Word) (s : State) : (s.writeStatus w).hostOut = s.hostOut := rfl

@[simp] theorem State.reply_config (r : HostReply) (s : State) : (s.reply r).config = s.config := rfl
@[simp] theorem State.reply_variant (r : HostReply) (s : State) : (s.reply r).variant = s.variant := rfl
@[simp] theorem State.reply_revision (r : HostReply) (s : State) : (s.reply r).revision = s.revision := rfl
@[simp] theorem State.reply_base (r : HostReply) (s : State) : (s.reply r).base = s.base := rfl
@[simp] theorem State.reply_profile (r : HostReply) (s : State) : (s.reply r).profile = s.profile := rfl
@[simp] theorem State.reply_vok (r : HostReply) (s : State) : (s.reply r).vok = s.vok := rfl
@[simp] theorem State.reply_volt (r : HostReply) (s : State) : (s.reply r).volt = s.volt := rfl
@[simp] theorem State.reply_temp (r : HostReply) (s : State) : (s.reply r).temp = s.temp := rfl
@[simp] theorem State.reply_fan (r : HostReply) (s : State) : (s.reply r).fan = s.fan := rfl
@[simp] theorem State.reply_ctrl (r : HostReply) (s : State) : (s.reply r).ctrl = s.ctrl := rfl
@[simp] theorem State.reply_ctrlRaw (r : HostReply) (s : State) : (s.reply r).ctrlRaw = s.ctrlRaw := rfl
@[simp] theorem State.reply_ovr (r : HostReply) (s : State) : (s.reply r).ovr = s.ovr := rfl
@[simp] theorem State.reply_dumpCount (r : HostReply) (s : State) : (s.reply r).dumpCount = s.dumpCount := rfl
@[simp] theorem State.reply_dumpRec (r : HostReply) (s : State) : (s.reply r).dumpRec = s.dumpRec := rfl
@[simp] theorem State.reply_cmdLast (r : HostReply) (s : State) : (s.reply r).cmdLast = s.cmdLast := rfl
@[simp] theorem State.reply_done (r : HostReply) (s : State) : (s.reply r).done = s.done := rfl
@[simp] theorem State.reply_err (r : HostReply) (s : State) : (s.reply r).err = s.err := rfl
@[simp] theorem State.reply_errcode (r : HostReply) (s : State) : (s.reply r).errcode = s.errcode := rfl
@[simp] theorem State.reply_cmdDropped (r : HostReply) (s : State) : (s.reply r).cmdDropped = s.cmdDropped := rfl
@[simp] theorem State.reply_seq (r : HostReply) (s : State) : (s.reply r).seq = s.seq := rfl
@[simp] theorem State.reply_lockHeld (r : HostReply) (s : State) : (s.reply r).lockHeld = s.lockHeld := rfl
@[simp] theorem State.reply_trace (r : HostReply) (s : State) : (s.reply r).trace = s.trace := rfl
@[simp] theorem State.reply_env (r : HostReply) (s : State) : (s.reply r).env = s.env := rfl
@[simp] theorem State.reply_hostIn (r : HostReply) (s : State) : (s.reply r).hostIn = s.hostIn := rfl
@[simp] theorem State.reply_hostOut (r : HostReply) (s : State) : (s.reply r).hostOut = s.hostOut ++ [r] := rfl

/-! ## Reset -/

@[simp] theorem State.endReset_config (ok : Bool) (s : State) : (s.endReset ok).config = s.config := rfl
@[simp] theorem State.endReset_variant (ok : Bool) (s : State) : (s.endReset ok).variant = s.variant := rfl
@[simp] theorem State.endReset_revision (ok : Bool) (s : State) : (s.endReset ok).revision = s.revision := rfl
@[simp] theorem State.endReset_base (ok : Bool) (s : State) : (s.endReset ok).base = s.base := rfl
@[simp] theorem State.endReset_profile (ok : Bool) (s : State) : (s.endReset ok).profile = s.profile := rfl
@[simp] theorem State.endReset_vok (ok : Bool) (s : State) : (s.endReset ok).vok = ok := rfl
@[simp] theorem State.endReset_volt (ok : Bool) (s : State) : (s.endReset ok).volt = s.volt := rfl
@[simp] theorem State.endReset_temp (ok : Bool) (s : State) : (s.endReset ok).temp = s.temp := rfl
@[simp] theorem State.endReset_fan (ok : Bool) (s : State) : (s.endReset ok).fan = s.fan := rfl
@[simp] theorem State.endReset_ctrl (ok : Bool) (s : State) : (s.endReset ok).ctrl = s.ctrl := rfl
@[simp] theorem State.endReset_ctrlRaw (ok : Bool) (s : State) : (s.endReset ok).ctrlRaw = s.ctrlRaw := rfl
@[simp] theorem State.endReset_ovr (ok : Bool) (s : State) : (s.endReset ok).ovr = s.ovr := rfl
@[simp] theorem State.endReset_dumpCount (ok : Bool) (s : State) : (s.endReset ok).dumpCount = s.dumpCount := rfl
@[simp] theorem State.endReset_dumpRec (ok : Bool) (s : State) : (s.endReset ok).dumpRec = s.dumpRec := rfl
@[simp] theorem State.endReset_cmdLast (ok : Bool) (s : State) : (s.endReset ok).cmdLast = s.cmdLast := rfl
@[simp] theorem State.endReset_done (ok : Bool) (s : State) : (s.endReset ok).done = s.done := rfl
@[simp] theorem State.endReset_err (ok : Bool) (s : State) : (s.endReset ok).err = s.err := rfl
@[simp] theorem State.endReset_errcode (ok : Bool) (s : State) : (s.endReset ok).errcode = s.errcode := rfl
@[simp] theorem State.endReset_cmdDropped (ok : Bool) (s : State) : (s.endReset ok).cmdDropped = s.cmdDropped := rfl
@[simp] theorem State.endReset_seq (ok : Bool) (s : State) : (s.endReset ok).seq = .idle := rfl
@[simp] theorem State.endReset_lockHeld (ok : Bool) (s : State) : (s.endReset ok).lockHeld = s.lockHeld := rfl
@[simp] theorem State.endReset_trace (ok : Bool) (s : State) : (s.endReset ok).trace = s.trace := rfl
@[simp] theorem State.endReset_env (ok : Bool) (s : State) : (s.endReset ok).env = s.env := rfl
@[simp] theorem State.endReset_hostIn (ok : Bool) (s : State) : (s.endReset ok).hostIn = s.hostIn := rfl
@[simp] theorem State.endReset_hostOut (ok : Bool) (s : State) : (s.endReset ok).hostOut = s.hostOut := rfl

@[simp] theorem State.initialise_config (p : Profile) (v r : Byte) (b : Addr) (s : State) : (s.initialise p v r b).config = s.config := rfl
@[simp] theorem State.initialise_variant (p : Profile) (v r : Byte) (b : Addr) (s : State) : (s.initialise p v r b).variant = v := rfl
@[simp] theorem State.initialise_revision (p : Profile) (v r : Byte) (b : Addr) (s : State) : (s.initialise p v r b).revision = r := rfl
@[simp] theorem State.initialise_base (p : Profile) (v r : Byte) (b : Addr) (s : State) : (s.initialise p v r b).base = b := rfl
@[simp] theorem State.initialise_profile (p : Profile) (v r : Byte) (b : Addr) (s : State) : (s.initialise p v r b).profile = p := rfl
@[simp] theorem State.initialise_vok (p : Profile) (v r : Byte) (b : Addr) (s : State) : (s.initialise p v r b).vok = false := rfl
@[simp] theorem State.initialise_volt (p : Profile) (v r : Byte) (b : Addr) (s : State) : (s.initialise p v r b).volt = List.replicate p.volts.length none := rfl
@[simp] theorem State.initialise_temp (p : Profile) (v r : Byte) (b : Addr) (s : State) : (s.initialise p v r b).temp = List.replicate p.temps.length none := rfl
@[simp] theorem State.initialise_fan (p : Profile) (v r : Byte) (b : Addr) (s : State) : (s.initialise p v r b).fan = List.replicate p.fans.length none := rfl
@[simp] theorem State.initialise_ctrl (p : Profile) (v r : Byte) (b : Addr) (s : State) : (s.initialise p v r b).ctrl = List.replicate p.ctrls.length none := rfl
@[simp] theorem State.initialise_ctrlRaw (p : Profile) (v r : Byte) (b : Addr) (s : State) : (s.initialise p v r b).ctrlRaw = List.replicate p.ctrls.length 0 := rfl
@[simp] theorem State.initialise_ovr (p : Profile) (v r : Byte) (b : Addr) (s : State) : (s.initialise p v r b).ovr = List.replicate p.ctrls.length {} := rfl
@[simp] theorem State.initialise_dumpCount (p : Profile) (v r : Byte) (b : Addr) (s : State) : (s.initialise p v r b).dumpCount = 0 := rfl
@[simp] theorem State.initialise_dumpRec (p : Profile) (v r : Byte) (b : Addr) (s : State) : (s.initialise p v r b).dumpRec = [] := rfl
@[simp] theorem State.initialise_cmdLast (p : Profile) (v r : Byte) (b : Addr) (s : State) : (s.initialise p v r b).cmdLast = 0 := rfl
@[simp] theorem State.initialise_done (p : Profile) (v r : Byte) (b : Addr) (s : State) : (s.initialise p v r b).done = false := rfl
@[simp] theorem State.initialise_err (p : Profile) (v r : Byte) (b : Addr) (s : State) : (s.initialise p v r b).err = false := rfl
@[simp] theorem State.initialise_errcode (p : Profile) (v r : Byte) (b : Addr) (s : State) : (s.initialise p v r b).errcode = 0 := rfl
@[simp] theorem State.initialise_cmdDropped (p : Profile) (v r : Byte) (b : Addr) (s : State) : (s.initialise p v r b).cmdDropped = false := rfl
@[simp] theorem State.initialise_seq (p : Profile) (v r : Byte) (b : Addr) (s : State) : (s.initialise p v r b).seq = .resetting [] := rfl
@[simp] theorem State.initialise_lockHeld (p : Profile) (v r : Byte) (b : Addr) (s : State) : (s.initialise p v r b).lockHeld = s.lockHeld := rfl
@[simp] theorem State.initialise_trace (p : Profile) (v r : Byte) (b : Addr) (s : State) : (s.initialise p v r b).trace = s.trace := rfl
@[simp] theorem State.initialise_env (p : Profile) (v r : Byte) (b : Addr) (s : State) : (s.initialise p v r b).env = s.env := rfl
@[simp] theorem State.initialise_hostIn (p : Profile) (v r : Byte) (b : Addr) (s : State) : (s.initialise p v r b).hostIn = s.hostIn := rfl
@[simp] theorem State.initialise_hostOut (p : Profile) (v r : Byte) (b : Addr) (s : State) : (s.initialise p v r b).hostOut = s.hostOut := rfl

/-! ## The commit: what each field becomes -/

/-- ERR after a commit (10_state.md R48). -/
def Commit.isError : Commit → Bool
  | .error _ => true
  | .silent => false
  | .sensors _ _ _ _ _ => false
  | .override _ _ => false
  | .dump _ => false

/-- ERRCODE after a commit (10_state.md R48). -/
def Commit.code : Commit → BitVec 4
  | .error e => e.code
  | .silent => 0
  | .sensors _ _ _ _ _ => 0
  | .override _ _ => 0
  | .dump _ => 0

@[simp] theorem State.commit_config (c : Commit) (s : State) : (s.commit c).config = s.config := by
  cases c <;> simp [State.commit]
@[simp] theorem State.commit_variant (c : Commit) (s : State) : (s.commit c).variant = s.variant := by
  cases c <;> simp [State.commit]
@[simp] theorem State.commit_revision (c : Commit) (s : State) : (s.commit c).revision = s.revision := by
  cases c <;> simp [State.commit]
@[simp] theorem State.commit_base (c : Commit) (s : State) : (s.commit c).base = s.base := by
  cases c <;> simp [State.commit]
@[simp] theorem State.commit_profile (c : Commit) (s : State) : (s.commit c).profile = s.profile := by
  cases c <;> simp [State.commit]
@[simp] theorem State.commit_vok (c : Commit) (s : State) : (s.commit c).vok = s.vok := by
  cases c <;> simp [State.commit]
@[simp] theorem State.commit_cmdLast (c : Commit) (s : State) : (s.commit c).cmdLast = s.cmdLast := by
  cases c <;> simp [State.commit]
@[simp] theorem State.commit_done (c : Commit) (s : State) : (s.commit c).done = true := by
  cases c <;> simp [State.commit]
@[simp] theorem State.commit_cmdDropped (c : Commit) (s : State) : (s.commit c).cmdDropped = s.cmdDropped := by
  cases c <;> simp [State.commit]
@[simp] theorem State.commit_seq (c : Commit) (s : State) : (s.commit c).seq = .idle := by
  cases c <;> simp [State.commit]
@[simp] theorem State.commit_env (c : Commit) (s : State) : (s.commit c).env = s.env := by
  cases c <;> simp [State.commit]
@[simp] theorem State.commit_hostIn (c : Commit) (s : State) : (s.commit c).hostIn = s.hostIn := by
  cases c <;> simp [State.commit]
@[simp] theorem State.commit_hostOut (c : Commit) (s : State) : (s.commit c).hostOut = s.hostOut := by
  cases c <;> simp [State.commit]

@[simp] theorem State.commit_err (c : Commit) (s : State) : (s.commit c).err = c.isError := by
  cases c <;> simp [State.commit, Commit.isError]

@[simp] theorem State.commit_errcode (c : Commit) (s : State) : (s.commit c).errcode = c.code := by
  cases c <;> simp [State.commit, Commit.code]

theorem State.commit_lockHeld (c : Commit) (s : State) (h : s.lockHeld = false) : (s.commit c).lockHeld = false := by
  cases c <;> simp [State.commit, h]

theorem State.commit_trace (c : Commit) (s : State) (h : s.lockHeld = false) : (s.commit c).trace = s.trace := by
  cases c <;> simp [State.commit, h]

end Sys2Proof.Machine
end

