-- ==== Sys2Proof/Laws/Commands.lean ====
section
/-! SUPPORT. What each program of the block can do: it keeps the lock discipline, and its results have the right shape. -/

namespace Sys2Proof.Machine

/-! ## Inside the lock window -/

theorem memRead_inside (h : Handshake) (a : Addr) : (memRead h a).Inside := by
  cases h <;> simp [memRead, Prog.Inside]

theorem memWrite_inside (h : Handshake) (a : Addr) (v : Byte) : (memWrite h a v).Inside := by
  cases h <;> simp [memWrite, Prog.Inside]

theorem memReadPair_inside (h : Handshake) (a : Addr) : (memReadPair h a).Inside :=
  (memRead_inside h a).bind fun _ => (memRead_inside h _).bind fun _ => True.intro

theorem vendorProbe_inside (h : Handshake) (p : Profile) : (vendorProbe h p).Inside := by
  unfold vendorProbe
  split
  · exact (memRead_inside _ _).bind fun _ => (memRead_inside _ _).bind fun _ => True.intro
  · exact True.intro

theorem unlock_inside (us : List UnlockEvent) : (unlock us).Inside := by
  induction us with
  | nil => exact True.intro
  | cons u us ih =>
    refine Prog.Inside.bind ?_ fun _ => ih
    cases u with
    | write p v => exact True.intro
    | read p => exact fun _ => True.intro

theorem quirkStep_inside (s : State) : (quirkStep s).Inside := by
  unfold quirkStep
  split
  · refine (vendorProbe_inside _ _).bind fun ok => ?_
    split
    · exact True.intro
    · exact unlock_inside _
  · exact True.intro

theorem channelVolt_inside (s : State) (ch : VoltChannel) : (channelVolt s ch).Inside := by
  unfold channelVolt
  split
  · exact (memReadPair_inside _ _).bind fun _ => True.intro
  · exact (memRead_inside _ _).bind fun _ => True.intro

theorem vbatGate_inside (s : State) (ch : VoltChannel) (v : Option ℚ) : (vbatGate s ch v).Inside := by
  unfold vbatGate
  split
  · exact (memRead_inside _ _).bind fun _ => True.intro
  · exact True.intro

theorem voltagePhase_inside (s : State) : (voltagePhase s).Inside :=
  Prog.Inside.forEach _ fun ch => (channelVolt_inside s ch).bind fun v => vbatGate_inside s ch v

theorem slotValue_inside (s : State) (slot : TempSlot) : (slotValue s slot).Inside := by
  refine (memRead_inside _ _).bind fun _ => ?_
  split
  · exact (memRead_inside _ _).bind fun _ => True.intro
  · exact True.intro

theorem primarySlots_inside (s : State) (slots : List TempSlot) (w : TempWork) : (primarySlots s slots w).Inside := by
  induction slots generalizing w with
  | nil => exact True.intro
  | cons slot rest ih => exact (slotValue_inside s slot).bind fun _ => (memRead_inside _ _).bind fun _ => ih _

theorem fallbackSensor_inside (s : State) (alt : Option Addr) (m : Bool) (t : Option ℚ) :
    (fallbackSensor s alt m t).Inside := by
  unfold fallbackSensor
  split
  · exact (memRead_inside _ _).bind fun _ => True.intro
  · exact True.intro
  · exact True.intro

theorem tempPhase_inside (s : State) : (tempPhase s).Inside := by
  unfold tempPhase
  split
  · exact Prog.Inside.forEach _ fun slot => (memReadPair_inside _ _).bind fun _ => True.intro
  · exact (primarySlots_inside s _ _).bind fun w => Prog.Inside.forEach _ fun x => fallbackSensor_inside s _ _ _

theorem fanPhase_inside (s : State) : (fanPhase s).Inside :=
  Prog.Inside.forEach _ fun _ => (memReadPair_inside _ _).bind fun _ => True.intro

theorem controlPhase_inside (s : State) : (controlPhase s).Inside :=
  Prog.Inside.forEach _ fun _ => memRead_inside _ _

theorem snapshotOnce_inside (h : Handshake) (ch : ControlChannel) (o : Override) : (snapshotOnce h ch o).Inside := by
  unfold snapshotOnce
  split
  · exact True.intro
  · exact (memRead_inside _ _).bind fun _ => (memRead_inside _ _).bind fun _ => True.intro

theorem ecApply_inside (h : Handshake) (p : Profile) (ch : ControlChannel) (d : Byte) : (ecApply h p ch d).Inside :=
  (memWrite_inside _ _ _).bind fun _ => (memWrite_inside _ _ _).bind fun _ => (memWrite_inside _ _ _).bind fun _ =>
    True.intro

theorem setManual_inside (s : State) (ch : ControlChannel) (c : Nat) (d : Byte) : (setManual s ch c d).Inside := by
  unfold setManual
  split
  · exact (memRead_inside _ _).bind fun _ => (memWrite_inside _ _ _).bind fun _ => ecApply_inside _ _ _ _
  · exact (memWrite_inside _ _ _).bind fun _ => memWrite_inside _ _ _

theorem restoreSaved_inside (s : State) (ch : ControlChannel) (c : Nat) (o : Override) :
    (restoreSaved s ch c o).Inside := by
  unfold restoreSaved
  split
  · exact (memRead_inside _ _).bind fun _ => (memWrite_inside _ _ _).bind fun _ => ecApply_inside _ _ _ _
  · exact (memWrite_inside _ _ _).bind fun _ => memWrite_inside _ _ _

/-! ## The lock discipline of every program (spec/20_memory.md R113, R114) -/

theorem released_balanced {α : Type} (a : α) : (Prog.release (.done a)).Balanced true := ⟨rfl, rfl⟩

theorem refresh_balanced (s : State) : (refresh s).Balanced true :=
  (quirkStep_inside s).balanced fun _ => (voltagePhase_inside s).balanced fun _ => (tempPhase_inside s).balanced fun _ =>
    (fanPhase_inside s).balanced fun _ => (controlPhase_inside s).balanced fun _ => released_balanced _

theorem updateProg_balanced (s : State) : (updateProg s).Balanced false := by
  unfold updateProg
  split
  · exact ⟨rfl, refresh_balanced s, rfl⟩
  · rfl

theorem withChannel_balanced (s : State) (c : Nat) (window : ControlChannel → Prog Commit)
    (h : ∀ ch, (window ch).Balanced true) : (withChannel s c window).Balanced false := by
  unfold withChannel
  split
  · split
    · rfl
    · exact ⟨rfl, h _, rfl⟩
  · rfl

theorem setctlProg_balanced (c : Nat) (d : Byte) (s : State) : (setctlProg c d s).Balanced false :=
  withChannel_balanced s c _ fun ch =>
    (snapshotOnce_inside _ ch _).balanced fun _ => (setManual_inside s ch c d).balanced fun _ => released_balanced _

theorem clrctlProg_balanced (c : Nat) (s : State) : (clrctlProg c s).Balanced false :=
  withChannel_balanced s c _ fun ch => by
    unfold clearWindow
    split
    · exact (restoreSaved_inside s ch c _).balanced fun _ => released_balanced _
    · exact released_balanced _

theorem dumpProg_balanced (s : State) : (dumpProg s).Balanced false := by
  unfold dumpProg
  split
  · have h : ∀ a : Addr, ((memRead s.handshake a).bind fun v => Prog.done (DumpRecord.mk a v)).Inside :=
      fun a => (memRead_inside _ a).bind fun _ => True.intro
    exact ⟨rfl, (Prog.Inside.forEach _ h).balanced fun _ => released_balanced _, rfl⟩
  · rfl

theorem commandProg_balanced (i : Instr) (s : State) : (commandProg i s).Balanced false := by
  cases i with
  | update => exact updateProg_balanced s
  | setctl ch duty => exact setctlProg_balanced ch duty s
  | clrctl ch => exact clrctlProg_balanced ch s
  | dump => exact dumpProg_balanced s

theorem wordProg_balanced (w : Word) (s : State) : (wordProg w s).Balanced false := by
  unfold wordProg
  split
  · exact commandProg_balanced _ s
  · rfl

theorem resetProg_balanced (s : State) : (resetProg s).Balanced false := by
  unfold resetProg
  split
  · rfl
  · split
    · exact ⟨rfl, (vendorProbe_inside _ _).balanced fun _ => released_balanced _, rfl⟩
    · rfl

/-! ## The shape of every result -/

/-- A commit that keeps the lengths of 10_state.md R34 and the bound of R38. -/
def Commit.Fits (s : State) : Commit → Prop
  | .sensors v t f k raw => v.length = s.profile.volts.length ∧ t.length = s.profile.temps.length ∧
      f.length = s.profile.fans.length ∧ k.length = s.profile.ctrls.length ∧ raw.length = s.profile.ctrls.length
  | .dump recs => recs.length ≤ Config.dumpRecords
  | .silent => True
  | .override _ _ => True
  | .error _ => True

theorem TempWork.scatter_temp_length (ids : List Byte) (src : Byte) (t : Option ℚ) (w : TempWork)
    (h : w.temp.length = ids.length) : (w.scatter ids src t).temp.length = ids.length := by
  simp [TempWork.scatter, h]

theorem TempWork.scatter_mask_length (ids : List Byte) (src : Byte) (t : Option ℚ) (w : TempWork)
    (h : w.mask.length = ids.length) : (w.scatter ids src t).mask.length = ids.length := by
  simp [TempWork.scatter, h]

theorem primarySlots_lengths (s : State) (slots : List TempSlot) (w : TempWork)
    (hw : w.temp.length = s.profile.temps.length ∧ w.mask.length = s.profile.temps.length) :
    Prog.All (fun w' => w'.temp.length = s.profile.temps.length ∧ w'.mask.length = s.profile.temps.length)
      (primarySlots s slots w) := by
  induction slots generalizing w with
  | nil => exact hw
  | cons slot rest ih =>
    refine (Prog.All.trivial _).bind fun q _ => (Prog.All.trivial _).bind fun src _ => ih _ ?_
    have hl : s.profile.temps.length = (srcTable s.profile).length := by simp [srcTable]
    rw [hl] at hw ⊢
    exact ⟨TempWork.scatter_temp_length _ _ _ _ hw.1, TempWork.scatter_mask_length _ _ _ _ hw.2⟩

theorem tempPhase_length (s : State) : Prog.All (fun t => t.length = s.profile.temps.length) (tempPhase s) := by
  unfold tempPhase
  split
  · exact (Prog.All.forEach (P := fun _ => True) _ fun _ => Prog.All.trivial _).mono fun _ h => h.1
  · refine (primarySlots_lengths s _ _ ?_).bind fun w hw => ?_
    · simp [TempWork.start]
    · exact (Prog.All.forEach (P := fun _ => True) _ fun _ => Prog.All.trivial _).mono fun _ h => by simp [h.1, hw]

theorem forEach_length {ι α : Type} (f : ι → Prog α) (xs : List ι) :
    Prog.All (fun as => as.length = xs.length) (Prog.forEach f xs) :=
  (Prog.All.forEach (P := fun _ => True) xs fun _ => Prog.All.trivial _).mono fun _ h => h.1

theorem updateProg_fits (s : State) : Prog.All (Commit.Fits s) (updateProg s) := by
  unfold updateProg
  split
  · intro r
    cases r with
    | timeout => exact True.intro
    | ok =>
      refine (Prog.All.trivial _).bind fun _ _ => (forEach_length _ _).bind fun v hv => (tempPhase_length s).bind fun t ht =>
        (forEach_length _ _).bind fun f hf => (forEach_length _ _).bind fun raw hr => ?_
      exact ⟨hv, ht, hf, by simp [hr], hr⟩
  · exact True.intro

/-- The dump of the block fits its buffer (00_scope.md R14). -/
def DumpFits (s : State) : Prop :=
  s.profile.dumpWindows.length ≤ Config.maxWindows ∧
    Config.maxWindows * s.config.literals.windowSize ≤ Config.dumpRecords

theorem windows_length (lits : Literals) (ws : List Addr) :
    (ws.flatMap (windowAddresses lits)).length = ws.length * lits.windowSize := by
  induction ws with
  | nil => simp
  | cons w ws ih => simp [windowAddresses, ih, Nat.add_mul, Nat.add_comm]

theorem dumpAddresses_length (s : State) (h : DumpFits s) :
    (dumpAddresses s.config.literals s.profile).length ≤ Config.dumpRecords := by
  unfold dumpAddresses
  split
  · have := s.config.literals.ecDumpLast.isLt
    simp [Config.dumpRecords]
    omega
  · rw [windows_length]
    exact (Nat.mul_le_mul_right _ h.1).trans h.2

theorem dumpProg_fits (s : State) (h : DumpFits s) : Prog.All (Commit.Fits s) (dumpProg s) := by
  unfold dumpProg
  split
  · intro r
    cases r with
    | timeout => exact Nat.zero_le _
    | ok =>
      refine (forEach_length _ _).bind fun recs hr => ?_
      exact hr.trans_le (dumpAddresses_length _ h)
  · exact True.intro

theorem withChannel_all (P : Commit → Prop) (s : State) (c : Nat) (window : ControlChannel → Prog Commit)
    (hs : P .silent) (he : P (.error .channelRange)) (hw : ∀ ch, Prog.All P (window ch)) :
    Prog.All P (withChannel s c window) := by
  unfold withChannel
  split
  · split
    · exact he
    · intro r
      cases r with
      | timeout => exact hs
      | ok => exact hw _
  · exact hs

/-- SETCTL and CLRCTL commit nothing but OVR[c]. -/
def Commit.IsControl (c : Nat) : Commit → Prop
  | .override c' _ => c' = c
  | .silent => True
  | .error e => e = .channelRange
  | .sensors _ _ _ _ _ => False
  | .dump _ => False

theorem setctlProg_control (c : Nat) (d : Byte) (s : State) : Prog.All (Commit.IsControl c) (setctlProg c d s) :=
  withChannel_all _ s c _ True.intro rfl fun _ =>
    (Prog.All.trivial _).bind fun _ _ => (Prog.All.trivial _).bind fun _ _ => rfl

theorem clrctlProg_control (c : Nat) (s : State) : Prog.All (Commit.IsControl c) (clrctlProg c s) :=
  withChannel_all _ s c _ True.intro rfl fun ch => by
    unfold clearWindow
    split
    · exact (Prog.All.trivial _).bind fun _ _ => rfl
    · exact rfl

/-- UPDATE commits nothing but SensorState. -/
def Commit.IsSensors : Commit → Prop
  | .sensors _ _ _ _ _ => True
  | .silent => True
  | .override _ _ => False
  | .dump _ => False
  | .error _ => False

theorem updateProg_sensors (s : State) : Prog.All Commit.IsSensors (updateProg s) := by
  unfold updateProg
  split
  · intro r
    cases r with
    | timeout => exact True.intro
    | ok =>
      exact (Prog.All.trivial _).bind fun _ _ => (Prog.All.trivial _).bind fun _ _ => (Prog.All.trivial _).bind fun _ _ =>
        (Prog.All.trivial _).bind fun _ _ => (Prog.All.trivial _).bind fun _ _ => True.intro
  · exact True.intro

/-- DUMP commits nothing but the dump buffer. -/
def Commit.IsDump : Commit → Prop
  | .dump _ => True
  | .silent => True
  | .sensors _ _ _ _ _ => False
  | .override _ _ => False
  | .error _ => False

theorem dumpProg_dump (s : State) : Prog.All Commit.IsDump (dumpProg s) := by
  unfold dumpProg
  split
  · intro r
    cases r with
    | timeout => exact True.intro
    | ok => exact (Prog.All.trivial _).bind fun _ _ => True.intro
  · exact True.intro

/-! ## What each kind of commit leaves alone -/

/-- UPDATE's commit leaves the OVR records and the dump buffer alone. -/
theorem Commit.IsSensors.keeps {c : Commit} (h : c.IsSensors) (s : State) :
    (s.commit c).ovr = s.ovr ∧ (s.commit c).dumpCount = s.dumpCount ∧ (s.commit c).dumpRec = s.dumpRec := by
  cases c <;> first | exact h.elim | exact ⟨rfl, rfl, rfl⟩

/-- The commit of SETCTL and CLRCTL leaves SensorState, the dump buffer and the other channels' records alone. -/
theorem Commit.IsControl.keeps {c : Commit} {ch : Nat} (h : c.IsControl ch) (s : State) :
    (s.commit c).volt = s.volt ∧ (s.commit c).temp = s.temp ∧ (s.commit c).fan = s.fan ∧ (s.commit c).ctrl = s.ctrl ∧
    (s.commit c).ctrlRaw = s.ctrlRaw ∧ (s.commit c).dumpCount = s.dumpCount ∧ (s.commit c).dumpRec = s.dumpRec ∧
    ∀ c' : Nat, c' ≠ ch → (s.commit c).ovr[c']? = s.ovr[c']? := by
  cases c with
  | silent => exact ⟨rfl, rfl, rfl, rfl, rfl, rfl, rfl, fun _ _ => rfl⟩
  | override c₀ o =>
    cases h
    exact ⟨rfl, rfl, rfl, rfl, rfl, rfl, rfl, fun c' hc => List.getElem?_set_ne (Ne.symm hc)⟩
  | error e => simp [State.commit]
  | sensors _ _ _ _ _ => exact h.elim
  | dump _ => exact h.elim

/-- DUMP's commit leaves SensorState and the OVR records alone. -/
theorem Commit.IsDump.keeps {c : Commit} (h : c.IsDump) (s : State) :
    (s.commit c).volt = s.volt ∧ (s.commit c).temp = s.temp ∧ (s.commit c).fan = s.fan ∧ (s.commit c).ctrl = s.ctrl ∧
    (s.commit c).ctrlRaw = s.ctrlRaw ∧ (s.commit c).ovr = s.ovr := by
  cases c <;> first | exact h.elim | exact ⟨rfl, rfl, rfl, rfl, rfl, rfl⟩

theorem commandProg_fits (i : Instr) (s : State) (h : DumpFits s) :
    Prog.All (Commit.Fits s) (commandProg i s) := by
  cases i with
  | update => exact updateProg_fits s
  | setctl ch duty =>
    exact (setctlProg_control ch duty s).mono fun c hc => by cases c <;> simp_all [Commit.Fits, Commit.IsControl]
  | clrctl ch =>
    exact (clrctlProg_control ch s).mono fun c hc => by cases c <;> simp_all [Commit.Fits, Commit.IsControl]
  | dump => exact dumpProg_fits s h

theorem wordProg_fits (w : Word) (s : State) (h : DumpFits s) :
    Prog.All (Commit.Fits s) (wordProg w s) := by
  unfold wordProg
  split
  · exact commandProg_fits _ s h
  · exact True.intro

/-! ## One operation: run a command to its commit -/

/-- Every command's meaning runs its program to the commit; the block never stops on a command (60_exceptions.md R328). -/
theorem exec_eq (i : Instr) (s : State) : exec i s = .next (runCommand (commandProg i s) s) := by cases i <;> rfl

end Sys2Proof.Machine
end

