-- ==== Sys2Proof/Laws/Memory.lean ====
section
/-! SUPPORT. The memory of a reference device: its canonical form is kept by every operation, and reads give what was
written; every event keeps the form of the chip's memory. -/

namespace Sys2Proof.Machine

/-! ## The canonical form -/

theorem Memory.sortedAbove_weaken {m : Memory} {b : Nat} (h : Memory.sortedAbove (some b) m = true) (c : Nat)
    (hc : c ≤ b) : Memory.sortedAbove (some c) m = true := by
  cases m with
  | nil => rfl
  | cons x rest =>
    obtain ⟨a, v⟩ := x
    simp only [Memory.sortedAbove, Bool.and_eq_true, decide_eq_true_eq] at h ⊢
    exact ⟨⟨by omega, h.1.2⟩, h.2⟩

/-- A bound below every listed address, or none. -/
def Memory.below (low : Option Nat) (a : Nat) : Prop :=
  match low with
  | none => True
  | some b => b < a

theorem Memory.sortedAbove_cons (low : Option Nat) (a : Nat) (v : Byte) (rest : Memory) :
    Memory.sortedAbove low ((a, v) :: rest) = true ↔
      Memory.below low a ∧ v ≠ Memory.unlisted ∧ Memory.sortedAbove (some a) rest = true := by
  cases low <;> simp [Memory.sortedAbove, Memory.below, and_assoc]

/-- Nothing is listed at or below the bound. -/
theorem Memory.read_below {m : Memory} {b a : Nat} (h : Memory.sortedAbove (some b) m = true) (ha : a ≤ b) :
    m.read a = Memory.unlisted := by
  induction m generalizing b with
  | nil => rfl
  | cons x rest ih =>
    obtain ⟨c, v⟩ := x
    rw [Memory.sortedAbove_cons] at h
    have hc : b < c := h.1
    rw [Memory.read, if_neg (by omega)]
    exact ih h.2.2 (by omega)

theorem Memory.cell_sorted {low : Option Nat} {a : Nat} {v : Byte} {rest : Memory} (hlow : Memory.below low a)
    (h : Memory.sortedAbove (some a) rest = true) : Memory.sortedAbove low (Memory.cell a v rest) = true := by
  unfold Memory.cell
  split
  · cases low with
    | none =>
      cases rest with
      | nil => rfl
      | cons x r =>
        obtain ⟨c, w⟩ := x
        rw [Memory.sortedAbove_cons] at h ⊢
        exact ⟨True.intro, h.2⟩
    | some b => exact Memory.sortedAbove_weaken h b (Nat.le_of_lt hlow)
  · rename_i hv
    rw [Memory.sortedAbove_cons]
    exact ⟨hlow, hv, h⟩

theorem Memory.write_sorted {low : Option Nat} {m : Memory} (a : Nat) (v : Byte)
    (h : Memory.sortedAbove low m = true) (hlow : Memory.below low a) :
    Memory.sortedAbove low (m.write a v) = true := by
  induction m generalizing low with
  | nil => exact Memory.cell_sorted hlow rfl
  | cons x rest ih =>
    obtain ⟨b, w⟩ := x
    rw [Memory.write]
    rw [Memory.sortedAbove_cons] at h
    split
    · rename_i hab
      exact Memory.cell_sorted hlow (by rw [Memory.sortedAbove_cons]; exact ⟨hab, h.2⟩)
    · split
      · rename_i hab; subst hab; exact Memory.cell_sorted hlow h.2.2
      · rw [Memory.sortedAbove_cons]
        exact ⟨h.1, h.2.1, ih h.2.2 (show b < a by omega)⟩

/-- A write keeps the canonical form. -/
theorem Memory.write_wf (m : Memory) (a : Nat) (v : Byte) (h : m.wf = true) : (m.write a v).wf = true :=
  Memory.write_sorted a v h True.intro

/-- The memory with nothing listed is in canonical form. -/
theorem Memory.nil_wf : Memory.wf [] = true := rfl

theorem Memory.read_cell (a : Nat) (v : Byte) (rest : Memory) (b : Nat)
    (h : Memory.sortedAbove (some a) rest = true) :
    (Memory.cell a v rest).read b = if b = a then v else rest.read b := by
  unfold Memory.cell
  split
  · rename_i hv
    split
    · rename_i hb; subst hb; subst hv; exact Memory.read_below h le_rfl
    · rfl
  · rw [Memory.read]

/-- Read after write. -/
theorem Memory.read_write_sorted {low : Option Nat} {m : Memory} (a : Nat) (v : Byte) (b : Nat)
    (h : Memory.sortedAbove low m = true) : (m.write a v).read b = if b = a then v else m.read b := by
  induction m generalizing low with
  | nil => exact Memory.read_cell a v [] b rfl
  | cons x rest ih =>
    obtain ⟨c, w⟩ := x
    rw [Memory.sortedAbove_cons] at h
    rw [Memory.write]
    split
    · rename_i hac
      rw [Memory.read_cell _ _ _ _ (by rw [Memory.sortedAbove_cons]; exact ⟨hac, h.2⟩)]
    · split
      · rename_i hac
        subst hac
        rw [Memory.read_cell _ _ _ _ h.2.2]
        by_cases hb : b = a
        · simp [hb]
        · rw [if_neg hb, if_neg hb, Memory.read, if_neg hb]
      · rename_i h1 h2
        rw [Memory.read, Memory.read]
        by_cases hb : b = c
        · subst hb
          rw [if_pos rfl, if_pos rfl, if_neg (by omega)]
        · rw [if_neg hb, if_neg hb]
          exact ih h.2.2

/-- Read after write, on a memory in canonical form. -/
theorem Memory.read_write (m : Memory) (a : Nat) (v : Byte) (b : Nat) (h : m.wf = true) :
    (m.write a v).read b = if b = a then v else m.read b := Memory.read_write_sorted a v b h

/-! ## The chip -/

theorem BankDevice.writePort_wf (d : BankDevice) (p : Addr) (v : Byte) (h : d.mem.wf = true) :
    (d.writePort p v).mem.wf = true := by
  simp only [BankDevice.writePort]
  split
  · exact Memory.write_wf _ _ _ h
  · exact h

theorem PagedDevice.writePort_wf (d : PagedDevice) (p : Addr) (v : Byte) (h : d.mem.wf = true) :
    (d.writePort p v).mem.wf = true := by
  simp only [PagedDevice.writePort]
  split
  · exact Memory.write_wf _ _ _ h
  · exact h

theorem Env.writePort_wf (p : Addr) (v : Byte) (e : Env) (h : Chip.wf e.chip = true) :
    Chip.wf (e.writePort p v).chip = true := by
  unfold Env.writePort
  split
  · exact h
  · rename_i d hd; rw [hd] at h; exact BankDevice.writePort_wf d p v h
  · rename_i d hd; rw [hd] at h; exact PagedDevice.writePort_wf d p v h

theorem Env.readPort_wf (p : Addr) (e : Env) (h : Chip.wf e.chip = true) : Chip.wf (e.readPort p).2.chip = true := by
  unfold Env.readPort
  split
  · exact h
  · rfl
  · split <;> exact h
  · split <;> exact h

theorem Env.drawLock_chip (e : Env) : e.drawLock.2.chip = e.chip := by
  unfold Env.drawLock; split <;> rfl

/-- A run keeps the canonical form of the chip's memory. -/
theorem Prog.run_wf {α : Type} (p : Prog α) (e : Env) (h : Chip.wf e.chip = true) :
    Chip.wf (p.run e).env.chip = true := by
  induction p generalizing e with
  | done a => exact h
  | portWrite p v k ih => exact ih _ (Env.writePort_wf p v e h)
  | portRead p k ih => exact ih _ _ (Env.readPort_wf p e h)
  | acquire t k ih => exact ih _ _ (by rw [Env.drawLock_chip]; exact h)
  | release k ih => exact ih _ h
  | delay ms k ih => exact ih _ h

/-- One event keeps the canonical form of the chip's memory. -/
theorem Prog.peek_wf {α : Type} {p : Prog α} {e e' : Env} {ev : BusEvent} (hp : p.peek e = .issues ev e')
    (h : Chip.wf e.chip = true) : Chip.wf e'.chip = true := by
  cases p <;> simp only [Prog.peek, NextEvent.issues.injEq, reduceCtorEq] at hp <;> obtain ⟨-, rfl⟩ := hp
  · exact Env.writePort_wf _ _ e h
  · exact Env.readPort_wf _ e h
  · rw [Env.drawLock_chip]; exact h
  · exact h
  · exact h

end Sys2Proof.Machine
end

