-- ==== Sys2Proof/Laws/Device.lean ====
section
/-! SUPPORT. What one register access does, through each handshake: its events and its byte on the oracle, and what the
reference devices answer and store. -/

namespace Sys2Proof.Machine

variable {α β ι : Type}

/-! ## Addresses -/

theorem word16_bytes (a : Addr) : word16 (hiByte a) (loByte a) = a := by
  apply BitVec.eq_of_getLsbD_eq
  intro i hi
  simp only [word16, hiByte, loByte, BitVec.getLsbD_append, BitVec.getLsbD_extractLsb']
  by_cases h : i < 8
  · simp [h]
  · simp only [h, decide_false, Bool.false_and, if_false]
    have : i - 8 < 8 := by omega
    simp [this, show 8 + (i - 8) = i by omega]

theorem toNat_ne_of_ne {a b : Addr} (h : b ≠ a) : b.toNat ≠ a.toNat := fun e => h (BitVec.eq_of_toNat_eq e)

/-! ## On the oracle -/

/-- A handshake that has ports. -/
theorem memRead_oracle {h : Handshake} (hh : h ≠ .absent) (a : Addr) (e : Env) {v : Byte} {rest : List Byte}
    (hc : e.chip = .oracle (v :: rest)) :
    (memRead h a).run e = ⟨v, readEvents h a v, { e with chip := .oracle rest }⟩ := by
  obtain ⟨chip, draws, drawn⟩ := e
  subst hc
  cases h <;> simp_all [memRead, Prog.run, Ran.cons, Env.writePort, Env.readPort, readEvents]

theorem memWrite_oracle (h : Handshake) (a : Addr) (v : Byte) (e : Env) {more : List Byte}
    (hc : e.chip = .oracle more) : (memWrite h a v).run e = ⟨(), writeEvents h a v, e⟩ := by
  obtain ⟨chip, draws, drawn⟩ := e
  subst hc
  cases h <;> simp [memWrite, Prog.run, Ran.cons, Env.writePort, writeEvents]

/-- A write issues its events, whatever the chip is. -/
theorem memWrite_events (h : Handshake) (a : Addr) (v : Byte) (e : Env) :
    ((memWrite h a v).run e).events = writeEvents h a v := by
  cases h <;> simp [memWrite, Prog.run, writeEvents]

/-- A read issues its events, whatever the chip is. -/
theorem memRead_events (h : Handshake) (a : Addr) (e : Env) :
    ((memRead h a).run e).events = readEvents h a ((memRead h a).run e).value := by
  cases h <;> simp [memRead, Prog.run, readEvents]

/-! ## On a reference device -/

/-- Against a device whose registers read as `f`, the program ends with `a`; the device reads as before, its memory and
the pending lock outcomes are untouched. -/
def Prog.Gives (h : Handshake) (f : Addr → Byte) (p : Prog α) (a : α) : Prop :=
  ∀ e : Env, Chip.ReadsAs h e.chip f → (p.run e).value = a ∧ Chip.ReadsAs h (p.run e).env.chip f ∧
    (p.run e).env.chip.memory = e.chip.memory ∧ (p.run e).env.lockDraws = e.lockDraws

theorem Prog.Gives.done {h : Handshake} {f : Addr → Byte} (a : α) : Prog.Gives h f (.done a) a :=
  fun _ he => ⟨rfl, he, rfl, rfl⟩

theorem Prog.Gives.bind {h : Handshake} {f : Addr → Byte} {p : Prog α} {a : α} {k : α → Prog β} {b : β}
    (hp : Prog.Gives h f p a) (hk : Prog.Gives h f (k a) b) : Prog.Gives h f (p.bind k) b := by
  intro e he
  obtain ⟨hv, hr, hm, hl⟩ := hp e he
  obtain ⟨hv', hr', hm', hl'⟩ := hk _ hr
  rw [Prog.run_bind, hv]
  exact ⟨hv', hr', hm'.trans hm, hl'.trans hl⟩

theorem Prog.Gives.forEach {h : Handshake} {f : Addr → Byte} {k : ι → Prog α} {g : ι → α} (xs : List ι)
    (hk : ∀ x, Prog.Gives h f (k x) (g x)) : Prog.Gives h f (Prog.forEach k xs) (xs.map g) := by
  induction xs with
  | nil => exact Prog.Gives.done _
  | cons x xs ih => exact (hk x).bind (ih.bind (Prog.Gives.done _))

/-- A register read gives what the register reads as (20_memory.md R121, R122). -/
theorem memRead_gives (h : Handshake) (f : Addr → Byte) (a : Addr) : Prog.Gives h f (memRead h a) (f a) := by
  intro e he
  obtain ⟨chip, draws, drawn⟩ := e
  cases h with
  | absent => exact he.elim
  | bank cmd ap dp =>
    cases chip with
    | oracle _ => exact he.elim
    | paged _ => exact he.elim
    | bank d =>
      obtain ⟨rfl, rfl, hne, rfl, rfl⟩ := he
      by_cases hl : loByte a = d.selectCmd
      · simp [memRead, Prog.run, Env.writePort, Env.readPort, BankDevice.writePort, BankDevice.dataByte, hne,
          hne.symm, BankDevice.view, hl, Chip.ReadsAs, Chip.memory]
        rfl
      · simp [memRead, Prog.run, Env.writePort, Env.readPort, BankDevice.writePort, BankDevice.dataByte, hne,
          hne.symm, BankDevice.view, hl, Chip.ReadsAs, Chip.memory, word16_bytes]
        rfl
  | paged cmd pp ip edp =>
    cases chip with
    | oracle _ => exact he.elim
    | bank _ => exact he.elim
    | paged d =>
      obtain ⟨rfl, rfl, rfl, hne, h1, h2, rfl, ha, rfl⟩ := he
      simp [memRead, Prog.run, Env.writePort, Env.readPort, PagedDevice.writePort, PagedDevice.dataByte, hne,
        hne.symm, h1, h2, ha, PagedDevice.view, Chip.ReadsAs, Chip.memory, word16_bytes]
      rfl

/-- A register write on the bank-switched model stores the byte, unless the low byte of the address is the selection
command (20_memory.md R121). -/
theorem memWrite_bank (cmd : Byte) (ap dp : Addr) (f : Addr → Byte) (a : Addr) (v : Byte) (e : Env)
    (he : Chip.ReadsAs (.bank cmd ap dp) e.chip f) (hw : Chip.wf e.chip = true) (ha : loByte a ≠ cmd) :
    Chip.ReadsAs (.bank cmd ap dp) ((memWrite (.bank cmd ap dp) a v).run e).env.chip
      (fun b => if b = a then v else f b) ∧
    ((memWrite (.bank cmd ap dp) a v).run e).env.lockDraws = e.lockDraws ∧
    ((memWrite (.bank cmd ap dp) a v).run e).env.chip.memory = e.chip.memory.write a.toNat v := by
  obtain ⟨chip, draws, drawn⟩ := e
  cases chip with
  | oracle _ => exact he.elim
  | paged _ => exact he.elim
  | bank d =>
    obtain ⟨rfl, rfl, hne, rfl, rfl⟩ := he
    have hwf : d.mem.wf = true := hw
    have hrun : (memWrite (.bank d.selectCmd d.ap d.dp) a v).run ⟨.bank d, draws, drawn⟩ =
        ⟨(), writeEvents (.bank d.selectCmd d.ap d.dp) a v,
          ⟨.bank { d with idx := loByte a, bank := hiByte a, mem := d.mem.write a.toNat v }, draws, drawn⟩⟩ := by
      simp [memWrite, Prog.run, Ran.cons, Env.writePort, BankDevice.writePort, hne, hne.symm, ha, word16_bytes, writeEvents]
    rw [hrun]
    refine ⟨⟨rfl, rfl, hne, rfl, ?_⟩, rfl, rfl⟩
    funext b
    simp only [BankDevice.view, Memory.read_write _ _ _ _ hwf]
    by_cases hb : b = a
    · subst hb; simp [ha]
    · simp [hb, toNat_ne_of_ne hb]

/-- A register write on the paged model stores the byte (20_memory.md R122). -/
theorem memWrite_paged (cmd : Byte) (pp ip edp : Addr) (f : Addr → Byte) (a : Addr) (v : Byte) (e : Env)
    (he : Chip.ReadsAs (.paged cmd pp ip edp) e.chip f) (hw : Chip.wf e.chip = true) :
    Chip.ReadsAs (.paged cmd pp ip edp) ((memWrite (.paged cmd pp ip edp) a v).run e).env.chip
      (fun b => if b = a then v else f b) ∧
    ((memWrite (.paged cmd pp ip edp) a v).run e).env.lockDraws = e.lockDraws ∧
    ((memWrite (.paged cmd pp ip edp) a v).run e).env.chip.memory = e.chip.memory.write a.toNat v := by
  obtain ⟨chip, draws, drawn⟩ := e
  cases chip with
  | oracle _ => exact he.elim
  | bank _ => exact he.elim
  | paged d =>
    obtain ⟨rfl, rfl, rfl, hne, h1, h2, rfl, ha, rfl⟩ := he
    have hwf : d.mem.wf = true := hw
    have hrun : (memWrite (.paged d.selectCmd d.pp d.ip d.edp) a v).run ⟨.paged d, draws, drawn⟩ =
        ⟨(), writeEvents (.paged d.selectCmd d.pp d.ip d.edp) a v,
          ⟨.paged { d with page := hiByte a, idx := loByte a, mem := d.mem.write a.toNat v }, draws, drawn⟩⟩ := by
      simp [memWrite, Prog.run, Ran.cons, Env.writePort, PagedDevice.writePort, hne, hne.symm, h1, h1.symm, h2, h2.symm, ha,
        word16_bytes, writeEvents]
    rw [hrun]
    refine ⟨⟨rfl, rfl, rfl, hne, h1, h2, rfl, ha, ?_⟩, rfl, rfl⟩
    funext b
    simp only [PagedDevice.view, Memory.read_write _ _ _ _ hwf]
    by_cases hb : b = a
    · subst hb; simp
    · simp [hb, toNat_ne_of_ne hb]

/-! ## Programs that store -/

/-- Against a device whose registers read as `f`, the program ends with `a` and the device then reads as `g`; the pending
lock outcomes are untouched. -/
def Prog.Stores (h : Handshake) (f g : Addr → Byte) (p : Prog α) (a : α) : Prop :=
  ∀ e : Env, Chip.ReadsAs h e.chip f → Chip.wf e.chip = true → (p.run e).value = a ∧
    Chip.ReadsAs h (p.run e).env.chip g ∧ Chip.wf (p.run e).env.chip = true ∧ (p.run e).env.lockDraws = e.lockDraws

theorem Prog.Gives.stores {h : Handshake} {f : Addr → Byte} {p : Prog α} {a : α} (hp : Prog.Gives h f p a) :
    Prog.Stores h f f p a :=
  fun e he hw => ⟨(hp e he).1, (hp e he).2.1, Prog.run_wf _ _ hw, (hp e he).2.2.2⟩

theorem Prog.Stores.done {h : Handshake} {f : Addr → Byte} (a : α) : Prog.Stores h f f (.done a) a :=
  (Prog.Gives.done a).stores

theorem Prog.Stores.bind {h : Handshake} {f g k : Addr → Byte} {p : Prog α} {a : α} {q : α → Prog β} {b : β}
    (hp : Prog.Stores h f g p a) (hq : Prog.Stores h g k (q a) b) : Prog.Stores h f k (p.bind q) b := by
  intro e he hw
  obtain ⟨h1, h2, h3, h4⟩ := hp e he hw
  obtain ⟨g1, g2, g3, g4⟩ := hq _ h2 h3
  rw [Prog.run_bind, h1]
  exact ⟨g1, g2, g3, g4.trans h4⟩

/-- The second part does not look at the first one's result. -/
theorem Prog.Stores.seq {h : Handshake} {f g k : Addr → Byte} {p : Prog α} {a : α} {q : Prog β} {b : β}
    (hp : Prog.Stores h f g p a) (hq : Prog.Stores h g k q b) : Prog.Stores h f k (p.bind fun _ => q) b := hp.bind hq

theorem Prog.Stores.delay {h : Handshake} {f g : Addr → Byte} {p : Prog α} {a : α} (ms : Nat)
    (hp : Prog.Stores h f g p a) : Prog.Stores h f g (.delay ms p) a := fun e he hw => hp e he hw

theorem Prog.Stores.release {h : Handshake} {f g : Addr → Byte} {p : Prog α} {a : α} (hp : Prog.Stores h f g p a) :
    Prog.Stores h f g (.release p) a := fun e he hw => hp e he hw

theorem memWrite_stores_bank {cmd : Byte} {ap dp a : Addr} {f : Addr → Byte} {v : Byte} (ha : loByte a ≠ cmd) :
    Prog.Stores (.bank cmd ap dp) f (fun b => if b = a then v else f b) (memWrite (.bank cmd ap dp) a v) () :=
  fun e he hw => ⟨rfl, (memWrite_bank _ _ _ f a v e he hw ha).1, Prog.run_wf _ _ hw,
    (memWrite_bank _ _ _ f a v e he hw ha).2.1⟩

theorem memWrite_stores_paged {cmd : Byte} {pp ip edp a : Addr} {f : Addr → Byte} {v : Byte} :
    Prog.Stores (.paged cmd pp ip edp) f (fun b => if b = a then v else f b)
      (memWrite (.paged cmd pp ip edp) a v) () :=
  fun e he hw => ⟨rfl, (memWrite_paged _ _ _ _ f a v e he hw).1, Prog.run_wf _ _ hw,
    (memWrite_paged _ _ _ _ f a v e he hw).2.1⟩

/-! ## The events of a program that only reads -/

/-- Against a device whose registers read as `f`, the program reads the registers `regs` in order and does nothing else. -/
def Prog.Reads (h : Handshake) (f : Addr → Byte) (p : Prog α) (regs : List Addr) : Prop :=
  ∀ e : Env, Chip.ReadsAs h e.chip f → (p.run e).events = readsOf h f regs

theorem readsOf_append (h : Handshake) (f : Addr → Byte) (xs ys : List Addr) :
    readsOf h f (xs ++ ys) = readsOf h f xs ++ readsOf h f ys := List.flatMap_append

/-- A register read is four events. -/
theorem readsOf_length {h : Handshake} (hh : h ≠ .absent) (f : Addr → Byte) (regs : List Addr) :
    (readsOf h f regs).length = 4 * regs.length := by
  have h4 : ∀ a v, (readEvents h a v).length = 4 := fun a v => by cases h <;> simp_all [readEvents]
  simp [readsOf, List.length_flatMap, h4, Nat.mul_comm]

theorem Prog.Reads.done {h : Handshake} {f : Addr → Byte} (a : α) : Prog.Reads h f (.done a) [] := fun _ _ => rfl

theorem Prog.Reads.bind {h : Handshake} {f : Addr → Byte} {p : Prog α} {a : α} {xs ys : List Addr} {k : α → Prog β}
    (hp : Prog.Gives h f p a) (rp : Prog.Reads h f p xs) (rk : Prog.Reads h f (k a) ys) :
    Prog.Reads h f (p.bind k) (xs ++ ys) := by
  intro e he
  obtain ⟨hv, hr, -⟩ := hp e he
  rw [Prog.run_bind, readsOf_append]
  simp only []
  rw [rp e he, hv, rk _ hr]

theorem Prog.Reads.forEach {h : Handshake} {f : Addr → Byte} {k : ι → Prog α} {g : ι → α} {r : ι → List Addr}
    (xs : List ι) (hk : ∀ x, Prog.Gives h f (k x) (g x)) (rk : ∀ x, Prog.Reads h f (k x) (r x)) :
    Prog.Reads h f (Prog.forEach k xs) (xs.flatMap r) := by
  induction xs with
  | nil => exact .done _
  | cons x xs ih =>
    have rest : Prog.Reads h f ((Prog.forEach k xs).bind fun as => .done (g x :: as)) (xs.flatMap r ++ []) :=
      .bind (Prog.Gives.forEach xs hk) ih (.done _)
    rw [List.append_nil] at rest
    exact .bind (hk x) (rk x) rest

theorem memRead_reads (h : Handshake) (f : Addr → Byte) (a : Addr) : Prog.Reads h f (memRead h a) [a] := by
  intro e he
  rw [memRead_events, (memRead_gives h f a e he).1]
  simp [readsOf]

end Sys2Proof.Machine
end

