-- ==== Sys2Proof/Laws/PerInstr.lean ====
section
/-! SUPPORT. The per-instruction family `EncodesInRow`: the word of a well-formed command passes its own test of the
decoder (spec/30_encoding.md R131, R132, R146). -/

namespace Sys2Proof.Laws.EncodesInRow

/-- The line of the opcode map that belongs to a command (R131). -/
def row : Instr → OpcodeRow
  | .update => rowUpdate
  | .setctl _ _ => rowSetctl
  | .clrctl _ => rowClrctl
  | .dump => rowDump

/-- The word of a well-formed command matches its line: its opcode, and 0 in every must-be-zero field. -/
def Statement (i : Instr) : Prop := i.wf = true → rowMatches (row i) (encode i) = true

theorem update : Statement .update := fun _ => by decide

theorem setctl (ch : Nat) (duty : Byte) : Statement (.setctl ch duty) := by
  intro h
  have hc : ch < 32 := by simpa [Instr.wf] using h
  clear h
  revert duty
  interval_cases ch <;> decide +kernel

theorem clrctl (ch : Nat) : Statement (.clrctl ch) := by
  intro h
  have hc : ch < 32 := by simpa [Instr.wf] using h
  clear h
  interval_cases ch <;> decide

theorem dump : Statement .dump := fun _ => by decide

end Sys2Proof.Laws.EncodesInRow
end

