-- ==== Sys2Proof/Laws/Step.lean ====
section
/-! SUPPORT. What one step can do, and that each of its parts keeps the invariant. -/

namespace Sys2Proof.Machine

/-! ## A program depends on the configuration, VOK and OVR alone -/

/-- The part of the state a command's program is made from. -/
def State.wiring (s : State) : State :=
  { State.reset with
    config := s.config, variant := s.variant, revision := s.revision, base := s.base, profile := s.profile,
    vok := s.vok, ovr := s.ovr }

theorem primarySlots_wiring (s : State) (slots : List TempSlot) (w : TempWork) :
    primarySlots s slots w = primarySlots s.wiring slots w := by
  induction slots generalizing w with
  | nil => rfl
  | cons slot rest ih => simp only [primarySlots, ih]; rfl

theorem updateProg_wiring (s : State) : updateProg s = updateProg s.wiring := by
  have ht : tempPhase s = tempPhase s.wiring := by
    unfold tempPhase bankTempPhase
    rw [primarySlots_wiring]
    rfl
  unfold updateProg refresh
  rw [ht]
  rfl

theorem commandProg_wiring (i : Instr) (s : State) : commandProg i s = commandProg i s.wiring := by
  cases i with
  | update => exact updateProg_wiring s
  | setctl ch duty => rfl
  | clrctl ch => rfl
  | dump => rfl

theorem wordProg_wiring (w : Word) (s : State) : wordProg w s = wordProg w s.wiring := by
  unfold wordProg
  split
  · exact commandProg_wiring _ s
  · rfl

theorem wordProg_congr (w : Word) {s t : State} (h : s.wiring = t.wiring) : wordProg w s = wordProg w t := by
  rw [wordProg_wiring w s, wordProg_wiring w t, h]

theorem resetProg_wiring (s : State) : resetProg s = resetProg s.wiring := rfl

theorem resetProg_congr {s t : State} (h : s.wiring = t.wiring) : resetProg s = resetProg t := by
  rw [resetProg_wiring s, resetProg_wiring t, h]

@[simp] theorem State.issue_wiring (evs : List BusEvent) (e : Env) (s : State) : (s.issue evs e).wiring = s.wiring := rfl

@[simp] theorem State.freeLock_wiring (s : State) : s.freeLock.wiring = s.wiring := by
  unfold State.freeLock; split <;> rfl

/-! ## One event at a time and all at once -/

@[simp] theorem Seq.advance_nil (q : Seq) : q.advance [] = q := by cases q <;> simp [Seq.advance]

theorem Seq.advance_append (q : Seq) (a b : List BusEvent) : (q.advance a).advance b = q.advance (a ++ b) := by
  cases q <;> simp [Seq.advance]

theorem Seq.events_advance {q : Seq} (hq : q ≠ .idle) (evs : List BusEvent) :
    (q.advance evs).events = q.events ++ evs := by cases q <;> simp_all [Seq.advance, Seq.events]

/-- Issuing nothing changes nothing. -/
theorem State.issue_nil (s : State) : s.issue [] s.env = s := by simp [State.issue, heldAfterAll]

theorem State.issue_issue (s : State) (a b : List BusEvent) (e f : Env) :
    (s.issue a e).issue b f = s.issue (a ++ b) f := by simp [State.issue, Seq.advance_append, heldAfterAll]

/-- A command whose pseudocode has run out commits. -/
theorem runCommand_ends {p : Prog Commit} {s : State} {c : Commit} (h : (p.resume s.seq.events).peek s.env = .ends c) :
    runCommand p s = s.commit c := by simp [runCommand, Prog.run_of_ends h, State.issue_nil]

/-- Running a command is one event, and then running it. -/
theorem runCommand_issues {p : Prog Commit} {s : State} {ev : BusEvent} {e : Env} (hq : s.seq ≠ .idle)
    (h : (p.resume s.seq.events).peek s.env = .issues ev e) : runCommand p s = runCommand p (s.issue [ev] e) := by
  simp [runCommand, Prog.run_of_issues h, State.issue_issue, Seq.events_advance hq, Prog.resume_snoc]

/-- A command run from its start. -/
theorem runCommand_start {p : Prog Commit} {s : State} {w : Word} (hq : s.seq = .exec w []) :
    runCommand p s = (s.issue (p.run s.env).events (p.run s.env).env).commit (p.run s.env).value := by
  simp [runCommand, hq, Seq.events]

/-- A reset sequence that has run out ends. -/
theorem runReset_ends {s : State} {ok : Bool} (h : ((resetProg s).resume s.seq.events).peek s.env = .ends ok) :
    runReset s = s.endReset ok := by simp [runReset, Prog.run_of_ends h, State.issue_nil]

/-- Running the reset sequence is one event, and then running it. -/
theorem runReset_issues {s : State} {ev : BusEvent} {e : Env} (hq : s.seq ≠ .idle)
    (h : ((resetProg s).resume s.seq.events).peek s.env = .issues ev e) : runReset s = runReset (s.issue [ev] e) := by
  simp [runReset, Prog.run_of_issues h, State.issue_issue, Seq.events_advance hq, Prog.resume_snoc,
    resetProg_congr (State.issue_wiring [ev] e s)]

/-- How the block moves on its own. -/
theorem State.proceed_eq (s : State) : s.proceed =
    match s.seq with
    | .idle => .next s
    | .resetting _ => .next (runReset s)
    | .exec w _ => .next (runCommand (wordProg w s) s) := by
  unfold State.proceed
  cases s.seq with
  | idle => rfl
  | resetting evs => rfl
  | exec w evs =>
    simp only [execWord, wordProg]
    cases decode w <;> simp [exec_eq, execIllegal]

/-! ## The parts of the invariant -/

/-- What the invariant says apart from the lock and the running program. -/
structure State.Inv0 (s : State) : Prop where
  config : Config.wellTyped s.config = true
  profile : Profile.wellTyped s.profile = true
  counts : Profile.ecCountsFit s.config.literals s.profile = true
  lengths : LengthsOk s
  errors : ErrorFieldsOk s
  dumpCount : s.dumpCount ≤ Config.dumpRecords ∧ s.dumpCount ≤ s.dumpRec.length
  unsupported : s.profile.family = .unsupported → s.vok = false
  chip : Chip.wf s.env.chip = true

theorem State.Inv.toInv0 {s : State} (h : s.Inv) : s.Inv0 :=
  ⟨h.config, h.profile, h.counts, h.lengths, h.errors, h.dumpCount, h.unsupported, h.chip⟩

theorem State.Inv0.toInv {s : State} (h : s.Inv0) (hl : LockOk s) : s.Inv :=
  ⟨h.config, h.profile, h.counts, h.lengths, h.errors, h.dumpCount, h.unsupported, hl, h.chip⟩

theorem State.Inv0.issue {s : State} (h : s.Inv0) (evs : List BusEvent) (e : Env) (he : Chip.wf e.chip = true) :
    (s.issue evs e).Inv0 :=
  ⟨h.config, h.profile, h.counts, ⟨h.lengths.volt, h.lengths.temp, h.lengths.fan, h.lengths.ctrl, h.lengths.raw, h.lengths.ovr⟩,
    h.errors, h.dumpCount, h.unsupported, he⟩

theorem ErrorCode.code_cases (e : ErrorCode) : e.code = 1 ∨ e.code = 2 := by cases e <;> simp [ErrorCode.code]

/-- A commit of a fitting result keeps the invariant. -/
theorem State.Inv0.commit {s : State} (h : s.Inv0) {c : Commit} (hc : c.Fits s) : (s.commit c).Inv0 := by
  have L := h.lengths
  cases c with
  | silent => exact ⟨h.config, h.profile, h.counts, ⟨L.volt, L.temp, L.fan, L.ctrl, L.raw, L.ovr⟩, .inl ⟨rfl, rfl⟩, h.dumpCount,
      h.unsupported, h.chip⟩
  | sensors v t f k raw =>
    obtain ⟨hv, ht, hf, hk, hr⟩ := hc
    exact ⟨h.config, h.profile, h.counts, ⟨hv, ht, hf, hk, hr, L.ovr⟩, .inl ⟨rfl, rfl⟩, h.dumpCount, h.unsupported, h.chip⟩
  | override c o =>
    exact ⟨h.config, h.profile, h.counts, ⟨L.volt, L.temp, L.fan, L.ctrl, L.raw, by simpa [State.commit] using L.ovr⟩,
      .inl ⟨rfl, rfl⟩, h.dumpCount, h.unsupported, h.chip⟩
  | dump recs =>
    refine ⟨h.config, h.profile, h.counts, ⟨L.volt, L.temp, L.fan, L.ctrl, L.raw, L.ovr⟩, .inl ⟨rfl, rfl⟩, ⟨hc, ?_⟩,
      h.unsupported, h.chip⟩
    simp [State.commit]
  | error e =>
    refine ⟨by simpa [State.commit] using h.config, by simpa [State.commit] using h.profile, by simpa [State.commit] using h.counts, ?_, ?_, ?_, ?_, ?_⟩
    · constructor <;> simp [State.commit, L.volt, L.temp, L.fan, L.ctrl, L.raw, L.ovr]
    · exact .inr ⟨by simp [State.commit], by simpa [State.commit] using e.code_cases⟩
    · simpa [State.commit] using h.dumpCount
    · simpa [State.commit] using h.unsupported
    · simpa [State.commit] using h.chip

/-! ## What a step can do -/

/-- Every way a step can end (one inversion lemma for all of them). -/
theorem step_cases {s t : State} (h : step s = .next t) :
    (s.hostIn = [] ∧ s.proceed = .next t) ∨
    (∃ rest, s.hostIn = .tick :: rest ∧ t = State.tick { s with hostIn := rest }) ∨
    (∃ rest, s.hostIn = .wait :: rest ∧ s.seq = .idle ∧ t = State.serve (.read 32 0x0004) { s with hostIn := rest }) ∨
    (∃ rest, s.hostIn = .wait :: rest ∧ s.seq ≠ .idle ∧ s.proceed = .next t) ∨
    (∃ a rest, s.hostIn = .access a :: rest ∧ t = State.serve a { s with hostIn := rest }) ∨
    (∃ v r b rest p, s.hostIn = .reset v r b :: rest ∧ resolveProfile s.config v = some p ∧
      t = State.initialise p v r b (State.freeLock { s with hostIn := rest })) := by
  unfold step State.move at h
  split at h
  · exact .inl ⟨‹_›, h⟩
  · exact .inr (.inl ⟨_, ‹_›, by simpa using h.symm⟩)
  · rename_i rest hin
    unfold State.hostWait at h
    split at h
    · exact .inr (.inr (.inl ⟨rest, hin, ‹_›, by simpa using h.symm⟩))
    · exact .inr (.inr (.inr (.inl ⟨rest, hin, by simp [*], h⟩)))
    · exact .inr (.inr (.inr (.inl ⟨rest, hin, by simp [*], h⟩)))
  · exact .inr (.inr (.inr (.inr (.inl ⟨_, _, ‹_›, by simpa using h.symm⟩))))
  · rename_i v r b rest hin
    unfold State.assertReset at h
    split at h
    · rename_i p hp
      exact .inr (.inr (.inr (.inr (.inr ⟨v, r, b, rest, p, hin, hp, by simpa using h.symm⟩))))
    · cases h

/-- Every way the block can move on its own. -/
theorem proceed_cases {s t : State} (h : s.proceed = .next t) :
    (s.seq = .idle ∧ t = s) ∨ (∃ evs, s.seq = .resetting evs ∧ t = runReset s) ∨
    (∃ w evs, s.seq = .exec w evs ∧ t = runCommand (wordProg w s) s) := by
  unfold State.proceed at h
  split at h
  · exact .inl ⟨‹_›, by simpa using h.symm⟩
  · exact .inr (.inl ⟨_, ‹_›, by simpa using h.symm⟩)
  · rename_i w evs hq
    refine .inr (.inr ⟨w, evs, hq, ?_⟩)
    unfold execWord at h
    unfold wordProg
    split at h <;> simp_all [exec_eq, execIllegal]

/-- Every way a tick can end. -/
theorem tick_cases (s : State) :
    (s.seq = .idle ∧ s.tick = s) ∨ (∃ evs, s.seq = .resetting evs ∧ s.tick = stepReset s) ∨
    (∃ w evs, s.seq = .exec w evs ∧ s.tick = stepCommand (wordProg w s) s) := by
  unfold State.tick
  split
  · exact .inl ⟨‹_›, rfl⟩
  · exact .inr (.inl ⟨_, ‹_›, rfl⟩)
  · exact .inr (.inr ⟨_, _, ‹_›, rfl⟩)

/-! ## What a step publishes -/

/-- Two states with the same configuration and the same published results. -/
structure State.SamePublished (s t : State) : Prop where
  config : t.config = s.config
  variant : t.variant = s.variant
  revision : t.revision = s.revision
  base : t.base = s.base
  profile : t.profile = s.profile
  volt : t.volt = s.volt
  temp : t.temp = s.temp
  fan : t.fan = s.fan
  ctrl : t.ctrl = s.ctrl
  ctrlRaw : t.ctrlRaw = s.ctrlRaw
  ovr : t.ovr = s.ovr
  dumpCount : t.dumpCount = s.dumpCount
  dumpRec : t.dumpRec = s.dumpRec

theorem State.SamePublished.refl (s : State) : s.SamePublished s :=
  ⟨rfl, rfl, rfl, rfl, rfl, rfl, rfl, rfl, rfl, rfl, rfl, rfl, rfl⟩

theorem State.issue_published (s : State) (evs : List BusEvent) (e : Env) : s.SamePublished (s.issue evs e) :=
  ⟨rfl, rfl, rfl, rfl, rfl, rfl, rfl, rfl, rfl, rfl, rfl, rfl, rfl⟩

/-- A host access publishes nothing and keeps VOK. -/
theorem State.serve_published (s : State) (a : HostAccess) : s.SamePublished (s.serve a) ∧ (s.serve a).vok = s.vok := by
  unfold State.serve
  split
  · split <;> exact ⟨⟨rfl, rfl, rfl, rfl, rfl, rfl, rfl, rfl, rfl, rfl, rfl, rfl, rfl⟩, rfl⟩
  · split
    · unfold State.hostWrite State.writeCmd State.writeStatus
      (repeat' split) <;> exact ⟨⟨rfl, rfl, rfl, rfl, rfl, rfl, rfl, rfl, rfl, rfl, rfl, rfl, rfl⟩, rfl⟩
    · exact ⟨⟨rfl, rfl, rfl, rfl, rfl, rfl, rfl, rfl, rfl, rfl, rfl, rfl, rfl⟩, rfl⟩

/-- The commit of the command under way: a result its program can end with, published in a state that had published
nothing of it. -/
def CommitsTo (s t : State) : Prop :=
  ∃ (w : Word) (evs : List BusEvent) (c : Commit) (u : State), s.seq = .exec w evs ∧
    (∀ P : Commit → Prop, Prog.All P (wordProg w s) → P c) ∧ t = u.commit c ∧ s.SamePublished u ∧ u.vok = s.vok

theorem proceed_publishes {s t : State} (h : s.proceed = .next t) :
    (s.SamePublished t ∧ (t.vok = s.vok ∨ ∃ evs, s.seq = .resetting evs)) ∨ CommitsTo s t := by
  rcases proceed_cases h with ⟨-, rfl⟩ | ⟨evs, hq, rfl⟩ | ⟨w, evs, hq, rfl⟩
  · exact .inl ⟨.refl _, .inl rfl⟩
  · exact .inl ⟨⟨rfl, rfl, rfl, rfl, rfl, rfl, rfl, rfl, rfl, rfl, rfl, rfl, rfl⟩,
      .inr ⟨evs, hq⟩⟩
  · exact .inr ⟨w, evs, _, _, hq, fun P hP => (hP.resume _).run _, rfl, s.issue_published _ _, rfl⟩

theorem tick_publishes (s : State) :
    (s.SamePublished s.tick ∧ (s.tick.vok = s.vok ∨ ∃ evs, s.seq = .resetting evs)) ∨ CommitsTo s s.tick := by
  rcases tick_cases s with ⟨-, h⟩ | ⟨evs, hq, h⟩ | ⟨w, evs, hq, h⟩
  · rw [h]; exact .inl ⟨.refl _, .inl rfl⟩
  · rw [h]
    unfold stepReset
    split
    · exact .inl ⟨⟨rfl, rfl, rfl, rfl, rfl, rfl, rfl, rfl, rfl, rfl, rfl, rfl, rfl⟩,
        .inr ⟨evs, hq⟩⟩
    · exact .inl ⟨s.issue_published _ _, .inr ⟨evs, hq⟩⟩
  · rw [h]
    unfold stepCommand
    split
    · rename_i c hp
      exact .inr ⟨w, evs, c, s, hq, fun P hP => (hP.resume _).ends hp, rfl, .refl s, rfl⟩
    · exact .inl ⟨s.issue_published _ _, .inl rfl⟩

/-- Every step is a reset, or publishes nothing, or is the commit of the command under way. -/
theorem step_publishes {s t : State} (h : step s = .next t) :
    ((∃ v r b rest, s.hostIn = .reset v r b :: rest) ∧ t.config = s.config) ∨
    (s.SamePublished t ∧ (t.vok = s.vok ∨ ∃ evs, s.seq = .resetting evs)) ∨ CommitsTo s t := by
  rcases step_cases h with ⟨-, h⟩ | ⟨rest, -, rfl⟩ | ⟨rest, -, -, rfl⟩ | ⟨rest, -, -, h⟩ | ⟨a, rest, -, rfl⟩ |
    ⟨v, r, b, rest, p, hin, -, rfl⟩
  · exact .inr (proceed_publishes h)
  · rcases tick_publishes { s with hostIn := rest } with ⟨hp, hv⟩ | ⟨w, evs, c, u, hq, hP, ht, hp, hv⟩
    · exact .inr (.inl ⟨⟨hp.1, hp.2, hp.3, hp.4, hp.5, hp.6, hp.7, hp.8, hp.9, hp.10, hp.11, hp.12, hp.13⟩, hv⟩)
    · refine .inr (.inr ⟨w, evs, c, u, hq, fun P h => hP P ?_, ht,
        ⟨hp.1, hp.2, hp.3, hp.4, hp.5, hp.6, hp.7, hp.8, hp.9, hp.10, hp.11, hp.12, hp.13⟩, hv⟩)
      rwa [show wordProg w { s with hostIn := rest } = wordProg w s from wordProg_congr w rfl]
  · obtain ⟨hp, hv⟩ := State.serve_published { s with hostIn := rest } (.read 32 0x0004)
    exact .inr (.inl ⟨⟨hp.1, hp.2, hp.3, hp.4, hp.5, hp.6, hp.7, hp.8, hp.9, hp.10, hp.11, hp.12, hp.13⟩, .inl hv⟩)
  · exact .inr (proceed_publishes h)
  · obtain ⟨hp, hv⟩ := State.serve_published { s with hostIn := rest } a
    exact .inr (.inl ⟨⟨hp.1, hp.2, hp.3, hp.4, hp.5, hp.6, hp.7, hp.8, hp.9, hp.10, hp.11, hp.12, hp.13⟩, .inl hv⟩)
  · exact .inl ⟨⟨v, r, b, rest, hin⟩, by simp⟩

/-! ## Each part of a step keeps the invariant -/

theorem State.Inv.dumpFits {s : State} (h : s.Inv) : DumpFits s := by
  have hp := h.profile
  have hc := h.config
  simp only [Profile.wellTyped, Bool.and_eq_true, decide_eq_true_eq] at hp
  simp only [Config.wellTyped, Bool.and_eq_true, decide_eq_true_eq] at hc
  exact ⟨hp.1.1.1.1.2, hc.1.1.1.2⟩

theorem State.Inv.seq_lock {s : State} (h : s.Inv) : LockOk s := h.lock

theorem runCommand_inv {s : State} (h : s.Inv) {w : Word} {evs : List BusEvent} (hq : s.seq = .exec w evs) :
    (runCommand (wordProg w s) s).Inv := by
  have hl := h.lock
  simp only [LockOk, hq] at hl
  have hfit := ((wordProg_fits w s h.dumpFits).resume evs).run s.env
  unfold runCommand
  simp only [hq, Seq.events]
  have h0 := h.toInv0.issue (((wordProg w s).resume evs).run s.env).events (((wordProg w s).resume evs).run s.env).env
    (Prog.run_wf _ _ h.chip)
  refine (h0.commit hfit).toInv ?_
  have hheld := lockRun_heldAfterAll (hl.run s.env)
  simp only [LockOk, State.commit_seq]
  exact State.commit_lockHeld _ _ (by simpa using hheld)

theorem stepCommand_inv {s : State} (h : s.Inv) {w : Word} {evs : List BusEvent} (hq : s.seq = .exec w evs) :
    (stepCommand (wordProg w s) s).Inv := by
  have hl := h.lock
  simp only [LockOk, hq] at hl
  unfold stepCommand
  simp only [hq, Seq.events]
  split
  · rename_i c hp
    have hfit := ((wordProg_fits w s h.dumpFits).resume evs).ends hp
    refine (h.toInv0.commit hfit).toInv ?_
    simp only [LockOk, State.commit_seq]
    exact State.commit_lockHeld _ _ (hl.ends hp)
  · rename_i e env hp
    refine (h.toInv0.issue [e] env (Prog.peek_wf hp h.chip)).toInv ?_
    have hseq : (s.issue [e] env).seq = .exec w (evs ++ [e]) := by simp [hq, Seq.advance]
    simp only [LockOk, hseq]
    rw [Prog.resume_snoc, wordProg_congr w (State.issue_wiring [e] env s)]
    exact (hl.issues hp).2

theorem resetProg_sound (s : State) (h : s.profile.family = .unsupported) : resetProg s = .done false := by
  simp [resetProg, h]

theorem endReset_inv0 {s : State} (h : s.Inv0) (ok : Bool) (hok : s.profile.family = .unsupported → ok = false) :
    (s.endReset ok).Inv0 :=
  ⟨h.config, h.profile, h.counts, ⟨h.lengths.volt, h.lengths.temp, h.lengths.fan, h.lengths.ctrl, h.lengths.raw, h.lengths.ovr⟩,
    h.errors, h.dumpCount, hok, h.chip⟩

theorem resetProg_all (s : State) : Prog.All (fun ok => s.profile.family = .unsupported → ok = false) (resetProg s) := by
  unfold resetProg
  split
  · exact fun _ => rfl
  · rename_i hne
    exact (Prog.All.trivial _).mono fun _ _ hu => absurd hu hne

theorem runReset_inv {s : State} (h : s.Inv) {evs : List BusEvent} (hq : s.seq = .resetting evs) : (runReset s).Inv := by
  have hl := h.lock
  simp only [LockOk, hq] at hl
  unfold runReset
  simp only [hq, Seq.events]
  have hok := ((resetProg_all s).resume evs).run s.env
  refine (endReset_inv0 (h.toInv0.issue _ _ (Prog.run_wf _ _ h.chip)) _ hok).toInv ?_
  simpa [LockOk] using lockRun_heldAfterAll (hl.run s.env)

theorem stepReset_inv {s : State} (h : s.Inv) {evs : List BusEvent} (hq : s.seq = .resetting evs) :
    (stepReset s).Inv := by
  have hl := h.lock
  simp only [LockOk, hq] at hl
  unfold stepReset
  simp only [hq, Seq.events]
  split
  · rename_i ok hp
    exact (endReset_inv0 h.toInv0 ok (((resetProg_all s).resume evs).ends hp)).toInv (by simpa [LockOk] using hl.ends hp)
  · rename_i e env hp
    refine (h.toInv0.issue [e] env (Prog.peek_wf hp h.chip)).toInv ?_
    have hseq : (s.issue [e] env).seq = .resetting (evs ++ [e]) := by simp [hq, Seq.advance]
    simp only [LockOk, hseq]
    rw [Prog.resume_snoc, resetProg_congr (State.issue_wiring [e] env s)]
    exact (hl.issues hp).2

/-- Changing nothing that the invariant speaks of keeps it. -/
theorem State.Inv.same {s t : State} (h : s.Inv) (hw : t.wiring = s.wiring) (hv : t.volt = s.volt) (ht : t.temp = s.temp)
    (hf : t.fan = s.fan) (hc : t.ctrl = s.ctrl) (hr : t.ctrlRaw = s.ctrlRaw) (he : ErrorFieldsOk t)
    (hd : t.dumpCount = s.dumpCount) (hdr : t.dumpRec = s.dumpRec) (henv : t.env = s.env)
    (hq : t.seq = s.seq) (hl : t.lockHeld = s.lockHeld) : t.Inv := by
  have hconf : t.config = s.config := show t.wiring.config = s.wiring.config by rw [hw]
  have hprof : t.profile = s.profile := show t.wiring.profile = s.wiring.profile by rw [hw]
  have hvok : t.vok = s.vok := show t.wiring.vok = s.wiring.vok by rw [hw]
  have hovr : t.ovr = s.ovr := show t.wiring.ovr = s.wiring.ovr by rw [hw]
  have L := h.lengths
  refine ⟨by rw [hconf]; exact h.config, by rw [hprof]; exact h.profile,
    by rw [hconf, hprof]; exact h.counts, ?_, he, by rw [hd, hdr]; exact h.dumpCount,
    by rw [hprof, hvok]; exact h.unsupported, ?_, by rw [henv]; exact h.chip⟩
  · constructor
    · rw [hv, hprof]; exact L.volt
    · rw [ht, hprof]; exact L.temp
    · rw [hf, hprof]; exact L.fan
    · rw [hc, hprof]; exact L.ctrl
    · rw [hr, hprof]; exact L.raw
    · rw [hovr, hprof]; exact L.ovr
  · have := h.lock
    unfold LockOk at this ⊢
    rw [hq, hl]
    cases hs : s.seq with
    | idle => simpa [hs] using this
    | resetting evs => simp only [hs] at this ⊢; rw [resetProg_congr hw]; exact this
    | exec w evs => simp only [hs] at this ⊢; rw [wordProg_congr w hw]; exact this

theorem hostIn_inv {s : State} (h : s.Inv) (rest : List HostEvent) : State.Inv { s with hostIn := rest } :=
  h.same rfl rfl rfl rfl rfl rfl h.errors rfl rfl rfl rfl rfl

theorem reply_inv {s : State} (h : s.Inv) (r : HostReply) : (s.reply r).Inv :=
  h.same rfl rfl rfl rfl rfl rfl h.errors rfl rfl rfl rfl rfl

theorem accept_inv {s : State} (h : s.Inv) (hq : s.seq = .idle) (w : Word) : (s.accept w).Inv := by
  have hl := h.lock
  simp only [LockOk, hq] at hl
  refine ⟨h.config, h.profile, h.counts, ⟨h.lengths.volt, h.lengths.temp, h.lengths.fan, h.lengths.ctrl, h.lengths.raw,
    h.lengths.ovr⟩, .inl ⟨rfl, rfl⟩, h.dumpCount, h.unsupported, ?_, h.chip⟩
  simp only [LockOk, State.accept_seq, State.accept_lockHeld, Prog.resume_nil, hl]
  exact wordProg_balanced w _

theorem writeCmd_inv {s : State} (h : s.Inv) (w : Word) : (s.writeCmd w).Inv := by
  unfold State.writeCmd
  split
  · exact accept_inv h ‹_› w
  · exact h.same rfl rfl rfl rfl rfl rfl h.errors rfl rfl rfl rfl rfl
  · exact h.same rfl rfl rfl rfl rfl rfl h.errors rfl rfl rfl rfl rfl

theorem serve_inv {s : State} (h : s.Inv) (a : HostAccess) : (s.serve a).Inv := by
  unfold State.serve
  split
  · split <;> exact reply_inv h _
  · split
    · refine reply_inv ?_ _
      unfold State.hostWrite
      split
      · exact writeCmd_inv h _
      · split
        · exact h.same rfl rfl rfl rfl rfl rfl h.errors rfl rfl rfl rfl rfl
        · exact h
    · exact reply_inv h _

theorem emptyProfile_wellTyped : Profile.wellTyped emptyProfile = true := by decide

/-- What ProfileResolve gives is well-typed and has the counts of its family. -/
theorem resolveProfile_sound {c : Config} {v : Byte} {p : Profile} (hc : Config.wellTyped c = true)
    (h : resolveProfile c v = some p) : Profile.wellTyped p = true ∧ Profile.ecCountsFit c.literals p = true := by
  unfold resolveProfile at h
  split at h
  · cases h; exact ⟨emptyProfile_wellTyped, rfl⟩
  · rename_i e he
    split at h
    · cases h; exact ⟨emptyProfile_wellTyped, rfl⟩
    · rename_i hf
      split at h
      · rename_i hfit
        cases h
        simp only [Config.wellTyped, Bool.and_eq_true, List.all_eq_true, Bool.or_eq_true, decide_eq_true_eq] at hc
        simp only [VariantEntry.fits, Bool.and_eq_true] at hfit
        exact ⟨(hc.2 e (List.mem_of_find?_eq_some he)).resolve_left hf, hfit.1.2⟩
      · cases h

theorem initialise_inv {s : State} (h : s.Inv) {p : Profile}
    (hp : Profile.wellTyped p = true ∧ Profile.ecCountsFit s.config.literals p = true) (v r : Byte) (b : Addr) :
    (s.freeLock.initialise p v r b).Inv := by
  refine ⟨by simpa using h.config, hp.1, by simpa using hp.2, ?_, .inl ⟨rfl, rfl⟩, ⟨Nat.zero_le _, Nat.zero_le _⟩, fun _ => rfl, ?_,
    by simpa using h.chip⟩
  · constructor <;> simp
  · simp only [LockOk, State.initialise_seq, State.initialise_lockHeld, State.freeLock_lockHeld, Prog.resume_nil]
    exact resetProg_balanced _

end Sys2Proof.Machine
end

