-- ==== Sys2Proof/Laws/Update.lean ====
section
/-! SUPPORT. What each phase of UPDATE gives against a device whose registers read as `f`. -/

namespace Sys2Proof.Machine

theorem memReadPair_gives (h : Handshake) (f : Addr → Byte) (a : Addr) :
    Prog.Gives h f (memReadPair h a) (f a, f (nextAddr a)) :=
  (memRead_gives h f a).bind ((memRead_gives h f _).bind (.done _))

theorem memReadPair_reads (h : Handshake) (f : Addr → Byte) (a : Addr) :
    Prog.Reads h f (memReadPair h a) [a, nextAddr a] :=
  .bind (memRead_gives h f a) (memRead_reads h f a) (.bind (memRead_gives h f _) (memRead_reads h f _) (.done _))

/-! ## Voltages -/

theorem channelVolt_gives (s : State) (f : Addr → Byte) (ch : VoltChannel) :
    Prog.Gives s.handshake f (channelVolt s ch) (rawVoltView s f ch) := by
  unfold channelVolt rawVoltView
  split
  · exact (memReadPair_gives _ _ _).bind (.done _)
  · exact (memRead_gives _ _ _).bind (.done _)

theorem vbatGate_gives (s : State) (f : Addr → Byte) (ch : VoltChannel) :
    Prog.Gives s.handshake f (vbatGate s ch (rawVoltView s f ch)) (voltView s f ch) := by
  unfold vbatGate voltView
  by_cases hs : (rawVoltView s f ch).isSome ∧ s.profile.vbatAddr = some ch.reg
  · have hv : (if s.profile.vbatAddr = some ch.reg ∧ vbatEnabled (f s.profile.vbatCtrlReg) = false then none
        else rawVoltView s f ch) =
        if vbatEnabled (f s.profile.vbatCtrlReg) = true then rawVoltView s f ch else none := by
      cases vbatEnabled (f s.profile.vbatCtrlReg) <;> simp [hs.2]
    rw [if_pos hs, hv]
    exact (memRead_gives _ f _).bind (.done _)
  · have hv : (if s.profile.vbatAddr = some ch.reg ∧ vbatEnabled (f s.profile.vbatCtrlReg) = false then none
        else rawVoltView s f ch) = rawVoltView s f ch := by
      split
      · rename_i h
        cases hr : rawVoltView s f ch
        · rfl
        · exact absurd ⟨by simp [hr], h.1⟩ hs
      · rfl
    rw [if_neg hs, hv]
    exact .done _

theorem voltagePhase_gives (s : State) (f : Addr → Byte) :
    Prog.Gives s.handshake f (voltagePhase s) (s.profile.volts.map (voltView s f)) :=
  Prog.Gives.forEach _ fun ch => (channelVolt_gives s f ch).bind (vbatGate_gives s f ch)

/-! ## Temperatures -/

theorem slotValue_gives (s : State) (f : Addr → Byte) (slot : TempSlot) :
    Prog.Gives s.handshake f (slotValue s slot)
      (if slot.halfBit.val > 0 then halfDegrees (f slot.reg) (f slot.halfReg) slot.halfBit.val
       else wholeDegrees (f slot.reg)) := by
  unfold slotValue
  refine (memRead_gives _ f _).bind ?_
  split
  · exact (memRead_gives _ f _).bind (.done _)
  · exact .done _

/-- W_TEMP of a sensor after some slots: the last of them that names it, or what it held. -/
def slotTemp (s : State) (f : Addr → Byte) (slots : List TempSlot) (held : TempSlot → Option ℚ) (sensor : TempSlot) :
    Option ℚ :=
  match (slots.filter fun slot => f slot.srcReg == sensor.srcId).getLast? with
  | some slot => slotView s f slot
  | none => held sensor

/-- MASK of a sensor after some slots. -/
def slotMask (f : Addr → Byte) (slots : List TempSlot) (held : TempSlot → Bool) (sensor : TempSlot) : Bool :=
  held sensor || slots.any fun slot => f slot.srcReg == sensor.srcId

theorem slotTemp_cons (s : State) (f : Addr → Byte) (slot : TempSlot) (rest : List TempSlot)
    (held : TempSlot → Option ℚ) : slotTemp s f (slot :: rest) held =
      slotTemp s f rest fun sensor => if sensor.srcId = f slot.srcReg then slotView s f slot else held sensor := by
  funext sensor
  simp only [slotTemp, List.filter_cons]
  cases hg : (rest.filter fun slot => f slot.srcReg == sensor.srcId).getLast? with
  | none =>
    rw [List.getLast?_eq_none_iff] at hg
    rw [hg]
    by_cases hh : f slot.srcReg = sensor.srcId
    · simp [hh]
    · simp [hh, Ne.symm hh]
  | some x =>
    by_cases hh : (f slot.srcReg == sensor.srcId) = true
    · rw [if_pos hh, List.getLast?_cons, hg]; rfl
    · rw [if_neg hh, hg]

theorem slotMask_cons (f : Addr → Byte) (slot : TempSlot) (rest : List TempSlot) (held : TempSlot → Bool) :
    slotMask f (slot :: rest) held =
      slotMask f rest fun sensor => sensor.srcId = f slot.srcReg || held sensor := by
  funext sensor
  simp only [slotMask, List.any_cons]
  by_cases hh : f slot.srcReg = sensor.srcId
  · simp [hh]
  · have hb : (f slot.srcReg == sensor.srcId) = false := by simpa using hh
    simp [hb, Ne.symm hh]

/-- One scatter (41_update.md R208), on working copies written as functions of the sensor. -/
theorem scatter_map (p : Profile) (src : Byte) (t : Option ℚ) (T : TempSlot → Option ℚ) (M : TempSlot → Bool) :
    (TempWork.mk (p.temps.map T) (p.temps.map M)).scatter (srcTable p) src t =
      ⟨p.temps.map fun sensor => if sensor.srcId = src then t else T sensor,
       p.temps.map fun sensor => sensor.srcId = src || M sensor⟩ := by
  simp only [TempWork.scatter, srcTable, List.zipWith_map]
  simp [List.zipWith_self]

theorem primarySlots_gives (s : State) (f : Addr → Byte) (slots : List TempSlot) (T : TempSlot → Option ℚ)
    (M : TempSlot → Bool) :
    Prog.Gives s.handshake f (primarySlots s slots ⟨s.profile.temps.map T, s.profile.temps.map M⟩)
      ⟨s.profile.temps.map (slotTemp s f slots T), s.profile.temps.map (slotMask f slots M)⟩ := by
  induction slots generalizing T M with
  | nil =>
    have hT : slotTemp s f [] T = T := by funext sensor; simp [slotTemp]
    have hM : slotMask f [] M = M := by funext sensor; simp [slotMask]
    rw [hT, hM]
    exact .done _
  | cons slot rest ih =>
    rw [slotTemp_cons, slotMask_cons]
    refine (slotValue_gives s f slot).bind ((memRead_gives _ f _).bind ?_)
    rw [scatter_map]
    exact ih _ _

theorem fallbackSensor_gives (s : State) (f : Addr → Byte) (alt : Option Addr) (masked : Bool) (t : Option ℚ) :
    Prog.Gives s.handshake f (fallbackSensor s alt masked t)
      (match alt, masked with
        | some a, false => gate s.config.literals (wholeDegrees (f a))
        | some _, true => t
        | none, _ => t) := by
  cases alt <;> cases masked <;> first | exact .done _ | exact (memRead_gives _ f _).bind (.done _)

/-- The slots and the fallback together give the view of a sensor. -/
theorem bankTempView_eq (s : State) (f : Addr → Byte) (sensor : TempSlot) :
    bankTempView s f sensor =
      match sensor.alt, slotMask f s.profile.temps (fun _ => false) sensor with
      | some a, false => gate s.config.literals (wholeDegrees (f a))
      | some _, true => slotTemp s f s.profile.temps (fun _ => none) sensor
      | none, _ => slotTemp s f s.profile.temps (fun _ => none) sensor := by
  simp only [bankTempView, slotsFor, slotMask, slotTemp]
  cases hg : (s.profile.temps.filter fun slot => f slot.srcReg == sensor.srcId).getLast? with
  | none =>
    rw [List.getLast?_eq_none_iff, List.filter_eq_nil_iff] at hg
    have ha : (s.profile.temps.any fun slot => f slot.srcReg == sensor.srcId) = false := by simpa using hg
    rw [ha]
    cases sensor.alt <;> rfl
  | some x =>
    have hx : x ∈ s.profile.temps.filter fun slot => f slot.srcReg == sensor.srcId := List.mem_of_getLast? hg
    have ha : (s.profile.temps.any fun slot => f slot.srcReg == sensor.srcId) = true :=
      List.any_eq_true.2 ⟨x, List.mem_filter.1 hx⟩
    rw [ha]
    cases sensor.alt <;> rfl

theorem bankTempPhase_gives (s : State) (f : Addr → Byte) :
    Prog.Gives s.handshake f (bankTempPhase s) (s.profile.temps.map (bankTempView s f)) := by
  have hstart : TempWork.start s.profile.temps.length =
      ⟨s.profile.temps.map fun _ => none, s.profile.temps.map fun _ => false⟩ := by
    simp [TempWork.start, List.map_const']
  unfold bankTempPhase
  rw [hstart]
  refine (primarySlots_gives s f _ _ _).bind ?_
  unfold fallback
  simp only [List.zip_map']
  rw [show s.profile.temps.map (bankTempView s f) = _ from List.map_congr_left fun sensor _ => bankTempView_eq s f sensor]
  have h := Prog.Gives.forEach (h := s.handshake) (f := f)
    (s.profile.temps.map fun sensor => (sensor.alt, slotMask f s.profile.temps (fun _ => false) sensor,
      slotTemp s f s.profile.temps (fun _ => none) sensor))
    (fun x => fallbackSensor_gives s f x.1 x.2.1 x.2.2)
  rwa [List.map_map] at h

theorem tempPhase_gives (s : State) (f : Addr → Byte) :
    Prog.Gives s.handshake f (tempPhase s) (s.profile.temps.map (tempView s f)) := by
  unfold tempPhase tempView
  split
  · exact Prog.Gives.forEach _ fun slot => (memReadPair_gives _ f _).bind (.done _)
  · exact bankTempPhase_gives s f

/-! ## Fans and controls -/

theorem fanPhase_gives (s : State) (f : Addr → Byte) :
    Prog.Gives s.handshake f (fanPhase s) (s.profile.fans.map (fanView s f)) :=
  Prog.Gives.forEach _ fun _ => (memReadPair_gives _ f _).bind (.done _)

theorem controlPhase_gives (s : State) (f : Addr → Byte) :
    Prog.Gives s.handshake f (controlPhase s) (s.profile.ctrls.map fun ch => f ch.outReg) :=
  Prog.Gives.forEach _ fun _ => memRead_gives _ f _

/-! ## The unlock sequence -/

/-- A write to a port that the handshake does not have leaves a reference device alone. -/
theorem writePort_foreign {h : Handshake} {f : Addr → Byte} {p : Addr} (v : Byte) {e : Env} (hp : p ∉ h.ports)
    (he : Chip.ReadsAs h e.chip f) : e.writePort p v = e := by
  obtain ⟨chip, draws, drawn⟩ := e
  cases h <;> cases chip <;> simp only [Chip.ReadsAs] at he
  · obtain ⟨rfl, rfl, -⟩ := he
    simp only [Handshake.ports, List.mem_cons, List.not_mem_nil, or_false, not_or] at hp
    simp [Env.writePort, BankDevice.writePort, hp]
  · obtain ⟨rfl, rfl, rfl, -⟩ := he
    simp only [Handshake.ports, List.mem_cons, List.not_mem_nil, or_false, not_or] at hp
    simp [Env.writePort, PagedDevice.writePort, hp]

/-- No port read moves a reference device or the lock. -/
theorem readPort_device {h : Handshake} {f : Addr → Byte} (p : Addr) {e : Env} (he : Chip.ReadsAs h e.chip f) :
    (e.readPort p).2.chip = e.chip ∧ (e.readPort p).2.lockDraws = e.lockDraws := by
  obtain ⟨chip, draws, drawn⟩ := e
  cases h <;> cases chip <;> simp only [Chip.ReadsAs] at he
  · simp only [Env.readPort]; split <;> exact ⟨rfl, rfl⟩
  · simp only [Env.readPort]; split <;> exact ⟨rfl, rfl⟩

/-- Unlock issues its events in order, and leaves a reference device alone whose ports it does not write. -/
theorem unlock_foreign {h : Handshake} {f : Addr → Byte} (us : List UnlockEvent)
    (hu : ∀ p v, UnlockEvent.write p v ∈ us → p ∉ h.ports) (e : Env) (he : Chip.ReadsAs h e.chip f) :
    List.Forall₂ UnlockEvent.Issues us ((unlock us).run e).events ∧ ((unlock us).run e).env.chip = e.chip ∧
      ((unlock us).run e).env.lockDraws = e.lockDraws := by
  induction us generalizing e with
  | nil => exact ⟨.nil, rfl, rfl⟩
  | cons u us ih =>
    have hus : ∀ p v, UnlockEvent.write p v ∈ us → p ∉ h.ports := fun p v hm => hu p v (List.mem_cons_of_mem _ hm)
    cases u with
    | write p v =>
      have hw : e.writePort p v = e := writePort_foreign v (hu p v (List.mem_cons_self ..)) he
      simp only [unlock, unlockEvent, Prog.run_bind, Prog.run, Ran.cons_env, Ran.cons_events, hw]
      obtain ⟨h1, h2, h3⟩ := ih hus e he
      exact ⟨.cons rfl h1, h2, h3⟩
    | read p =>
      obtain ⟨hc, hd⟩ := readPort_device p he
      simp only [unlock, unlockEvent, Prog.run_bind, Prog.run, Ran.cons_env, Ran.cons_events]
      obtain ⟨h1, h2, h3⟩ := ih hus (e.readPort p).2 (hc ▸ he)
      exact ⟨.cons ⟨_, rfl⟩ h1, h2.trans hc, h3.trans hd⟩

/-- QuirkStep against a device whose ports UNLOCK_SEQ does not write: the probe, then the unlock where it fails. -/
theorem quirkStep_device (s : State) (f : Addr → Byte) (hu : Unlocks s f → UnlockAvoidsPorts s) (e : Env)
    (he : Chip.ReadsAs s.handshake e.chip f) :
    ∃ unlocked, ((quirkStep s).run e).events = readsOf s.handshake f (probeReads s) ++ unlocked ∧
      UnlockEventsOk s f unlocked ∧ ((quirkStep s).run e).env.lockDraws = e.lockDraws ∧
      ((quirkStep s).run e).env.chip.memory = e.chip.memory ∧
      Chip.ReadsAs s.handshake ((quirkStep s).run e).env.chip f := by
  by_cases hp : Probes s
  · have hq : (s.hasQuirk && s.profile.hasVendorId) = true := by
      simp only [State.hasQuirk, Bool.and_eq_true, List.contains_iff_mem]; exact hp
    have hg : Prog.Gives s.handshake f (vendorProbe s.handshake s.profile)
        (word16 (f s.profile.vendorHiReg) (f s.profile.vendorLoReg) == s.profile.vendorId) := by
      rw [vendorProbe, if_pos hp.2]
      exact (memRead_gives _ f _).bind ((memRead_gives _ f _).bind (.done _))
    have hr : Prog.Reads s.handshake f (vendorProbe s.handshake s.profile) (probeReads s) := by
      rw [vendorProbe, if_pos hp.2, probeReads, if_pos hp]
      exact .bind (memRead_gives _ f _) (memRead_reads _ f _) (.bind (memRead_gives _ f _) (memRead_reads _ f _) (.done _))
    obtain ⟨g1, g2, g3, g4⟩ := hg e he
    simp only [quirkStep, hq, if_true, Prog.run_bind, hr e he, g1, List.append_cancel_left_eq, exists_eq_left']
    by_cases hx : f s.profile.vendorHiReg ++ f s.profile.vendorLoReg = s.profile.vendorId
    · have hb : (word16 (f s.profile.vendorHiReg) (f s.profile.vendorLoReg) == s.profile.vendorId) = true := beq_iff_eq.2 hx
      rw [if_pos hb]
      exact ⟨⟨fun h => absurd hx h.2, fun _ => rfl⟩, g4, g3, g2⟩
    · have hb : (word16 (f s.profile.vendorHiReg) (f s.profile.vendorLoReg) == s.profile.vendorId) = false :=
        beq_eq_false_iff_ne.2 hx
      rw [if_neg (by simp [hb])]
      obtain ⟨u1, u2, u3⟩ := unlock_foreign s.profile.unlockSeq (hu ⟨hp, hx⟩) _ g2
      exact ⟨⟨fun _ => u1, fun h => absurd ⟨hp, hx⟩ h⟩, u3.trans g4, by rw [u2, g3], by rw [u2]; exact g2⟩
  · have hq : (s.hasQuirk && s.profile.hasVendorId) = false := by
      rw [Bool.eq_false_iff]
      simp only [State.hasQuirk, Bool.and_eq_true, List.contains_iff_mem, ne_eq]; exact hp
    simp only [quirkStep, hq, probeReads, if_neg hp]
    exact ⟨[], rfl, ⟨fun h => absurd h.1 hp, fun _ => rfl⟩, rfl, rfl, he⟩

/-! ## The registers each phase reads (41_update.md R221) -/

theorem voltagePhase_reads (s : State) (f : Addr → Byte) :
    Prog.Reads s.handshake f (voltagePhase s) (s.profile.volts.flatMap (voltReads s f)) := by
  refine Prog.Reads.forEach _ (fun ch => (channelVolt_gives s f ch).bind (vbatGate_gives s f ch)) fun ch => ?_
  refine .bind (channelVolt_gives s f ch) ?_ ?_
  · unfold channelVolt
    split
    · exact .bind (memReadPair_gives _ f _) (memReadPair_reads _ f _) (.done _)
    · exact .bind (memRead_gives _ f _) (memRead_reads _ f _) (.done _)
  · unfold vbatGate
    by_cases hb : s.profile.vbatAddr = some ch.reg ∧ (rawVoltView s f ch).isSome
    · rw [if_pos hb, if_pos hb.symm]
      exact .bind (memRead_gives _ f _) (memRead_reads _ f _) (.done _)
    · rw [if_neg hb, if_neg fun h => hb h.symm]
      exact .done _

theorem slotValue_reads (s : State) (f : Addr → Byte) (slot : TempSlot) :
    Prog.Reads s.handshake f (slotValue s slot) ([slot.reg] ++ (if 0 < slot.halfBit.val then [slot.halfReg] else [])) := by
  refine .bind (memRead_gives _ f _) (memRead_reads _ f _) ?_
  split
  · exact .bind (memRead_gives _ f _) (memRead_reads _ f _) (.done _)
  · exact .done _

theorem primarySlots_reads (s : State) (f : Addr → Byte) (slots : List TempSlot) (w : TempWork) :
    Prog.Reads s.handshake f (primarySlots s slots w) (slots.flatMap slotReads) := by
  induction slots generalizing w with
  | nil => exact .done _
  | cons slot rest ih =>
    rw [List.flatMap_cons, slotReads, List.append_assoc]
    exact .bind (slotValue_gives s f slot) (slotValue_reads s f slot)
      (.bind (memRead_gives _ f _) (memRead_reads _ f _) (ih _))

theorem fallbackSensor_reads (s : State) (f : Addr → Byte) (alt : Option Addr) (masked : Bool) (t : Option ℚ) :
    Prog.Reads s.handshake f (fallbackSensor s alt masked t) (if masked then [] else alt.toList) := by
  cases alt <;> cases masked <;> first
    | exact .done _
    | exact .bind (memRead_gives _ f _) (memRead_reads _ f _) (.done _)

theorem bankTempPhase_reads (s : State) (f : Addr → Byte) : Prog.Reads s.handshake f (bankTempPhase s)
    (s.profile.temps.flatMap slotReads ++ s.profile.temps.flatMap (fallbackReads s f)) := by
  have hstart : TempWork.start s.profile.temps.length =
      ⟨s.profile.temps.map fun _ => none, s.profile.temps.map fun _ => false⟩ := by
    simp [TempWork.start, List.map_const']
  unfold bankTempPhase
  rw [hstart]
  refine .bind (primarySlots_gives s f _ _ _) (primarySlots_reads s f _ _) ?_
  unfold fallback
  simp only [List.zip_map']
  have hm : fallbackReads s f = fun sensor =>
      if slotMask f s.profile.temps (fun _ => false) sensor then [] else sensor.alt.toList := by
    funext sensor
    simp only [fallbackReads, slotsFor, slotMask, Bool.false_or, List.isEmpty_iff, List.filter_eq_nil_iff]
    by_cases ha : (s.profile.temps.any fun slot => f slot.srcReg == sensor.srcId) = true
    · rw [if_pos ha, if_neg]
      simpa using ha
    · rw [if_neg ha, if_pos]
      simpa using ha
  have h := Prog.Reads.forEach (h := s.handshake) (f := f)
    (s.profile.temps.map fun sensor => (sensor.alt, slotMask f s.profile.temps (fun _ => false) sensor,
      slotTemp s f s.profile.temps (fun _ => none) sensor))
    (fun x => fallbackSensor_gives s f x.1 x.2.1 x.2.2) (fun x => fallbackSensor_reads s f x.1 x.2.1 x.2.2)
  rw [hm]
  rwa [List.flatMap_map] at h

theorem tempPhase_reads (s : State) (f : Addr → Byte) : Prog.Reads s.handshake f (tempPhase s) (tempReads s f) := by
  unfold tempPhase tempReads
  split
  · exact Prog.Reads.forEach _ (fun slot => (memReadPair_gives _ f _).bind (.done _)) fun slot =>
      .bind (memReadPair_gives _ f _) (memReadPair_reads _ f _) (.done _)
  · exact bankTempPhase_reads s f

theorem fanPhase_reads (s : State) (f : Addr → Byte) :
    Prog.Reads s.handshake f (fanPhase s) (s.profile.fans.flatMap fun reg => [reg, nextAddr reg]) :=
  Prog.Reads.forEach _ (fun _ => (memReadPair_gives _ f _).bind (.done _)) fun _ =>
    .bind (memReadPair_gives _ f _) (memReadPair_reads _ f _) (.done _)

theorem controlPhase_reads (s : State) (f : Addr → Byte) :
    Prog.Reads s.handshake f (controlPhase s) (s.profile.ctrls.map ControlChannel.outReg) := by
  have h := Prog.Reads.forEach (h := s.handshake) (f := f) s.profile.ctrls (fun ch => memRead_gives _ f ch.outReg)
    fun ch => memRead_reads _ f ch.outReg
  rwa [List.map_eq_flatMap]

end Sys2Proof.Machine
end

