-- ==== Sys2Proof/Tests/Slice0.lean ====
section
/-! SUPPORT. Tests of the model on small states, with expected values from spec/95_test_vectors.md, and for every
statement that has hypotheses a state and operands that meet all of them. -/

namespace Sys2Proof.Tests

open Sys2Proof.Machine

/-! ## Well-formedness and decoding -/

/-- Channel 32 does not fit CH (30_encoding.md R130; DE-18). -/
theorem test_wf_setctl_channel_32_refused : Instr.wf (.setctl 32 0) = false := by decide
theorem test_wf_clrctl_channel_32_refused : Instr.wf (.clrctl 32) = false := by decide
theorem test_wf_channel_31 : Instr.wf (.setctl 31 255) = true ∧ Instr.wf (.clrctl 31) = true := by decide

/-- DE-1: OP = 0001 in bits 3:0, every other bit 0. -/
theorem test_decode_update : decode 0b00000000000000000000000000000001#32 = .ok .update := by decide
/-- DUTY = 10000000 in bits 23:16, CH = 00011 in bits 12:8, OP = 0010. -/
theorem test_decode_setctl : decode 0b00000000100000000000001100000010#32 = .ok (.setctl 3 128) := by decide
/-- DE-17: CH = 00011 in bits 12:8, OP = 0011. -/
theorem test_decode_clrctl : decode 0b00000000000000000000001100000011#32 = .ok (.clrctl 3) := by decide
/-- DE-14: OP = 0100. -/
theorem test_decode_dump : decode 0b00000000000000000000000000000100#32 = .ok .dump := by decide
/-- DE-2 to DE-5, DE-9, DE-10, DE-13, DE-15, DE-16. -/
theorem test_decode_illegal :
    decode 0 = .error .reservedOpcode ∧ decode 0x5 = .error .reservedOpcode ∧ decode 0xF = .error .reservedOpcode ∧
    decode 0x11 = .error .mustBeZero ∧ decode 0x101 = .error .mustBeZero ∧ decode 0x2002 = .error .mustBeZero ∧
    decode 0x01000002 = .error .mustBeZero ∧ decode 0x00010003 = .error .mustBeZero ∧
    decode 0x704 = .error .mustBeZero ∧ decode 0x80000004 = .error .mustBeZero := by decide
/-- DE-17 and DE-18: the assembler. -/
theorem test_assembler :
    assembleText "SETCTL 3, none".toList = some 0x00000303 ∧ assembleText "SETCTL 0x1F, 255".toList = some 0x00FF1F02 ∧
    assembleText "SETCTL 32, 0".toList = none ∧ assembleText "SETCTL 0, 256".toList = none := by decide
theorem test_decodeTableWord : decodeTableWord 32 0x00FF1F02 = some (.setctl 31 255) := by decide

/-! ## The fixtures of 95_test_vectors.md section 0 -/

/-- Fixture FB. -/
def profileFB : Profile where
  family := .bankClassic
  volts := [⟨0x0020, .x1⟩, ⟨0x0551, .x1⟩]
  vbatAddr := some 0x0551
  vbatCtrlReg := 0x005D
  temps := [⟨0x0027, 0, 0, 0x0621, 1, some 0x0073⟩, ⟨0x0150, 0x0151, 7, 0x0622, 2, some 0x0075⟩]
  fans := [0x04C0]
  fanStrategy := .aCounter13
  fanMinCount := 16
  fanMaxCount := 8191
  ctrls := [⟨0x0001, 0x0109, 0x0102, 0⟩]
  hasVendorId := true
  vendorHiReg := 0x0050
  vendorLoReg := 0x0051
  vendorId := 0x5CA3
  dumpWindows := [0x0020]

/-- Fixture F5: the 5-fan variant. -/
def profileF5 : Profile :=
  { profileFB with
    volts := []
    temps := []
    fans := [0x04C0, 0x04C2, 0x04C4, 0x04C6, 0x04C8]
    ctrls := [⟨0x0001, 0x0109, 0x0102, 0⟩, ⟨0x0002, 0x0119, 0x0112, 0⟩, ⟨0x0003, 0x0129, 0x0122, 0⟩,
      ⟨0x0004, 0x0139, 0x0132, 0⟩, ⟨0x0005, 0x0149, 0x0142, 0⟩] }

/-- Fixture FE, with test addresses for the tables that section 0 leaves open. -/
def profileFE : Profile where
  family := .ec
  volts := (List.range 14).map fun i => ⟨0x0100 + BitVec.ofNat 16 (2 * i), .x1⟩
  temps := (List.range 7).map fun i => { reg := 0x0200 + BitVec.ofNat 16 (2 * i) }
  fans := (List.range 8).map fun i => 0x0300 + BitVec.ofNat 16 (2 * i)
  fanStrategy := .cRpm16
  ctrls := (List.range 8).map fun c =>
    ⟨0x0A20 + BitVec.ofNat 16 c, 0x0A10 + BitVec.ofNat 16 c, 0x0A00, 0x0A01⟩
  reqLoad := 0x80
  reqApply := 0x40
  settleMs := 10

/-- FB with IO_LOCK_QUIRK true for REVISION 0. -/
def profileQuirk : Profile := { profileFB with quirkRevisions := [0], unlockSeq := [.write 0x2E 0x87, .read 0x2F] }

/-- The parameters of section 0. -/
def fixtureConfig : Config where
  bankSelectCmd := 0x4E
  pageSelectCmd := 0xFF
  addrPortOff := 5
  dataPortOff := 6
  pagePortOff := 4
  indexPortOff := 5
  ecDataPortOff := 6
  tUpdate := 1
  tControl := 2
  tDump := 3
  tProbe := 4
  variants := [⟨1, 2, 2, 1, 1, false, profileFB⟩, ⟨4, 14, 7, 8, 8, false, profileFE⟩, ⟨5, 0, 0, 5, 5, true, profileF5⟩,
    ⟨9, 0, 0, 0, 0, false, { family := .unsupported, settleMs := 10 }⟩]

/-- The chip contents of FB. -/
def memoryFB : Memory :=
  [(0x0001, 0x80), (0x0020, 0x7D), (0x0027, 0x1E), (0x0050, 0x5C), (0x0051, 0xA3), (0x0073, 0x28), (0x0075, 0x11),
   (0x0102, 0x01), (0x0109, 0x40), (0x0150, 0x7D), (0x0151, 0x80), (0x04C0, 0x07), (0x04C1, 0xD0), (0x0551, 0x60),
   (0x0621, 0x02), (0x0622, 0x02)]

def deviceFB : BankDevice := ⟨0x0295, 0x0296, 0x4E, 0, 0, memoryFB⟩

/-- An EC chip whose shared mode register holds 0x02 and whose command register 0 holds 0x33 (program P3). -/
def deviceFE : PagedDevice := ⟨0x0A24, 0x0A25, 0x0A26, 0xFF, false, 0, 0, [(0x0A00, 0x02), (0x0A10, 0x33)]⟩

/-- A block of a profile, identified, in IDLE. -/
def block (p : Profile) (code : Byte) (base : Addr) (chip : Chip) (draws : List LockOutcome) : State :=
  { State.reset with
    config := fixtureConfig, variant := code, revision := 0, base := base, profile := p, vok := true
    volt := List.replicate p.volts.length none
    temp := List.replicate p.temps.length none
    fan := List.replicate p.fans.length none
    ctrl := List.replicate p.ctrls.length none
    ctrlRaw := List.replicate p.ctrls.length 0
    ovr := List.replicate p.ctrls.length ⟨false, 0, 0⟩
    env := ⟨chip, draws, 0⟩ }

/-- The block of FB, F5 and FE with a command word accepted. -/
def runFB (w : Word) (chip : Chip) (draws : List LockOutcome) : State := (block profileFB 1 0x0290 chip draws).accept w
def runF5 (w : Word) (chip : Chip) (draws : List LockOutcome) : State := (block profileF5 5 0x0290 chip draws).accept w
def runFE (w : Word) (chip : Chip) (draws : List LockOutcome) : State := (block profileFE 4 0x0A20 chip draws).accept w

/-- A state with an active override of channel 0. -/
def overridden (s : State) (m k : Byte) : State := { s with ovr := s.ovr.set 0 ⟨true, m, k⟩ }

/-- A state with something from the host pending. -/
def withHost (s : State) (h : List HostEvent) : State := { s with hostIn := h }

/-- What a property says of the next state; false of a stop. -/
def next (o : Host.Outcome State Fault Refusal) (p : State → Bool) : Bool :=
  match o with
  | .next t => p t
  | .fault _ => false
  | .refused _ => false

/-! ## One step of each command -/

/-- Program P1, step 1. -/
theorem test_update_FB : next (step (runFB 1 (.bank deviceFB) [.ok])) (fun t =>
    t.hostRead 0x0100 == 0x800003E8 && t.hostRead 0x0104 == 0 && t.hostRead 0x0180 == 0x80000050 &&
    t.hostRead 0x0184 == 0 && t.hostRead 0x0200 == 0x800002A3 && t.hostRead 0x0280 == 0x80139B80 &&
    t.hostRead 0x0004 == 0x00000202 && t.trace.length == 50) = true := by decide +kernel
/-- U-7: the quirk step with a failing probe: the identity reads, the unlock sequence, the first voltage. -/
theorem test_update_quirk : next (step ((block profileQuirk 1 0x0290 (.bank { deviceFB with mem := [] }) [.ok]).accept 1))
    (fun t => t.vok && t.trace[9]? == some (.pw 0x2E 0x87) && (match (t.trace[10]? : Option BusEvent) with
      | some (BusEvent.pr p _) => p == 0x2F
      | _ => false) && t.trace[11]? == some (.pw 0x0295 0x4E) && t.trace[13]? == some (.pw 0x0295 0x20) && t.done) = true := by decide +kernel

/-- CT-1. -/
theorem test_setctl_first : next (step (runF5 0x00800002 (.bank deviceFB) [.ok])) (fun t =>
    t.hostRead 0x0300 == 0x00010140 && t.trace.length == 18 && t.hostRead 0x0004 == 0x00000202 &&
    t.env.chip.memory.read 0x0102 == 0x00 && t.env.chip.memory.read 0x0109 == 0x80) = true := by decide +kernel
/-- CT-12, on channel 2 with mode 0x01. -/
theorem test_setctl_ec : next (step ({ runFE 0x00550202 (.paged { deviceFE with mem := [(0x0A00, 0x01)] }) [.ok] with
      ovr := List.replicate 8 ⟨true, 0, 0⟩ })) (fun t =>
    t.trace.length == 24 && t.env.chip.memory.read 0x0A00 == 0x05 && t.env.chip.memory.read 0x0A12 == 0x55 &&
    t.env.chip.memory.read 0x0A01 == 0x40 && t.trace.getD 13 .rel == .dly 10) = true := by decide +kernel

/-- CT-4. -/
theorem test_clrctl_restores : next (step (overridden (runF5 3 (.bank deviceFB) [.ok]) 0x01 0x40)) (fun t =>
    t.hostRead 0x0300 == 0x00000140 && t.trace.length == 10 && t.env.chip.memory.read 0x0102 == 0x01 &&
    t.env.chip.memory.read 0x0109 == 0x40) = true := by decide +kernel
/-- CT-5. -/
theorem test_clrctl_inactive : next (step (runF5 3 (.bank deviceFB) [.ok])) (fun t =>
    t.trace == [.acq 2 .ok, .rel] && t.hostRead 0x0300 == 0) = true := by decide +kernel

/-- D-1. -/
theorem test_dump_FB : next (step (runFB 4 (.bank deviceFB) [.ok])) (fun t =>
    t.hostRead 0x0014 == 16 && t.hostRead 0x4000 == 0x0000207D && t.hostRead 0x401C == 0x0000271E &&
    t.hostRead 0x4040 == 0 && t.trace.length == 66) = true := by decide +kernel
/-- D-5. -/
theorem test_dump_timeout : next (step { runFB 4 (.bank deviceFB) [.timeout] with
      dumpCount := 1, dumpRec := [⟨0x20, 0x7D⟩] }) (fun t =>
    t.hostRead 0x0014 == 0 && t.hostRead 0x4000 == 0 && t.trace == [.acq 3 .timeout]) = true := by decide +kernel

/-! ## Errors, reset and the host port -/

/-- E-5: ILLEGAL outranks the channel check. -/
theorem test_illegal : next (step (runF5 0x01000902 (.bank deviceFB) [.ok])) (fun t =>
    t.hostRead 0x0004 == 0x00000226 && t.trace.isEmpty) = true := by decide +kernel
/-- CT-9. -/
theorem test_channel_range : next (step (runF5 0x00000502 (.bank deviceFB) [.timeout])) (fun t =>
    t.hostRead 0x0004 == 0x00000216 && t.trace.isEmpty) = true := by decide +kernel
/-- RS-1: ten events and VOK = 1. -/
theorem test_reset_probe : next (steps 2 (withHost (block profileFB 1 0x0290 (.bank deviceFB) [.ok]) [.reset 1 0 0x0290]))
    (fun t => t.hostRead 0x0004 == 0x00000200 && t.trace.length == 10 && t.hostRead 0x0008 == 0x02900001 &&
      t.hostRead 0x000C == 0x01010202 && t.hostRead 0x0010 == 0x00000021) = true := by decide +kernel
/-- RS-2: the identity bytes swapped. -/
theorem test_reset_mismatch : next (steps 2 (withHost (block profileFB 1 0x0290
      (.bank { deviceFB with mem := [(0x0050, 0xA3), (0x0051, 0x5C)] }) [.ok]) [.reset 1 0 0x0290])) (fun t =>
    t.hostRead 0x0004 == 0 && t.trace.length == 10) = true := by decide +kernel
/-- BH-3: a read at an address whose low byte is the selection command gives the bank. -/
theorem test_bank_read_select : ((memRead (.bank 0x4E 0x0295 0x0296) 0x124E).run ⟨.bank deviceFB, [], 0⟩).value = 0x12 := by
  decide +kernel
/-- BH-5. -/
theorem test_paged_write : ((memWrite (.paged 0xFF 0x0A24 0x0A25 0x0A26) 0x0FFF 0x12).run ⟨.paged deviceFE, [], 0⟩).events =
    [.pw 0x0A24 0xFF, .pw 0x0A24 0x0F, .pw 0x0A25 0xFF, .pw 0x0A26 0x12] := by decide +kernel
/-- R122 with page and index port at one address (R88): a write, then a read of the same register. -/
theorem test_paged_shared_port :
    let h : Handshake := .paged 0xFF 0x0A24 0x0A24 0x0A26
    ((memRead h 0x0F34).run ((memWrite h 0x0F34 0x12).run
      ⟨.paged { deviceFE with ip := 0x0A24 }, [], 0⟩).env).events[3]? = some (.pr 0x0A26 0x12) := by decide +kernel
/-- L1-3a to L1-3d. -/
theorem test_temperature_gate :
    encTemp (gate {} (halfDegrees 0x7D 0x80 7)) = 0 ∧ encTemp (gate {} (halfDegrees 0x7D 0x00 7)) = 0x800000FA ∧
    encTemp (gate {} (halfDegrees 0xC9 0x00 7)) = 0x8000FF92 ∧ encTemp (gate {} (halfDegrees 0xC8 0x80 7)) = 0 := by
  decide +kernel
/-- L1-4a to L1-4c. -/
theorem test_fan_limits :
    encFan (fanA profileFB (fanCount13 {} .hi5Lo8 0x1F 0xFF)) = 0 ∧ encFan (fanA profileFB (fanCount13 {} .hi5Lo8 0x00 0x0F)) = 0 ∧
    encFan (fanA profileFB (fanCount13 {} .hi5Lo8 0x07 0xD0)) = 0x800002A3 := by decide +kernel
/-- The placed word, SETCTL 9, 0, is the next to run, from the state after reset. -/
theorem test_withFetchWord : next (step (State.reset.withFetchWord 32 0x00000902)) (fun t =>
    t.cmdLast == 0x00000902 && t.errcode == 1 && t.seq == .idle) = true := by decide +kernel

/-! ## Witnesses: every statement with hypotheses has a state and operands that meet all of them -/

/-- The chips of the witnesses: a device, and oracles with their next answers. -/
abbrev bankChip : Chip := .bank deviceFB
abbrev ecChip : Chip := .paged deviceFE

theorem reads_FB (w : Word) (draws : List LockOutcome) : ReadsAs (runFB w bankChip draws) deviceFB.view :=
  ⟨rfl, rfl, (by decide : (0x0295 : Addr) ≠ 0x0296), rfl, rfl⟩
theorem reads_F5 (w : Word) (draws : List LockOutcome) : ReadsAs (runF5 w bankChip draws) deviceFB.view :=
  ⟨rfl, rfl, (by decide : (0x0295 : Addr) ≠ 0x0296), rfl, rfl⟩
theorem reads_FE (w : Word) (draws : List LockOutcome) : ReadsAs (runFE w ecChip draws) deviceFE.view :=
  ⟨rfl, rfl, rfl, (by decide : (0x0A24 : Addr) ≠ 0x0A25), (by decide : (0x0A24 : Addr) ≠ 0x0A26),
    (by decide : (0x0A25 : Addr) ≠ 0x0A26), rfl, rfl, rfl⟩

theorem witness_DecodeOfEncode : Instr.wf (.setctl 31 255) = true := by decide
theorem witness_EncodeOfDecode : decode 0x00FF1F02 = .ok (.setctl 31 255) := by decide
theorem witness_DecoderTestsExclusive :
    rowClrctl ∈ opcodeRows ∧ rowMatches rowClrctl 0x00001F03 = true := by decide
theorem witness_IllegalWordsAreTheReservedOnes :
    (fieldOp 0x5).toNat = 5 ∧ (fieldOp 0x10#32).toNat = 0 ∧ BitVec.extractLsb' 4 28 0x80000001#32 ≠ 0 ∧
    BitVec.extractLsb' 13 3 0x2002#32 ≠ 0 ∧ BitVec.extractLsb' 24 8 0x01000002#32 ≠ 0 ∧
    BitVec.extractLsb' 13 19 0x2003#32 ≠ 0 ∧ BitVec.extractLsb' 4 28 0x14#32 ≠ 0 := by decide
theorem witness_StepRunsTheDecodedCommand :
    (runFB 4 bankChip []).hostIn = [] ∧ (runFB 4 bankChip []).seq = .exec 4 [] ∧ decode 4 = .ok .dump := by decide
theorem witness_StepRunsThePlacedWord : decodeTableWord 32 0x00001F03 = some (.clrctl 31) := by decide
theorem witness_IllegalCommandCompletes :
    (runFB 0x101 bankChip []).hostIn = [] ∧ (runFB 0x101 bankChip []).seq = .exec 0x101 [] ∧
    (runFB 0x101 bankChip []).lockHeld = false ∧ decode 0x101 = .error .mustBeZero ∧
    BitVec.extractLsb' 4 28 0x101#32 ≠ 0 ∧ BitVec.extractLsb' 13 3 0x2002#32 ≠ 0 ∧
    BitVec.extractLsb' 13 19 0x00010003#32 ≠ 0 := by decide
theorem lockOk_started (s : State) (w : Word) (hq : s.seq = .exec w []) (hl : s.lockHeld = false) : LockOk s := by
  simp only [LockOk, hq, hl]
  exact wordProg_balanced w s
theorem witness_TickIsOneEventOrTheCommit :
    LockOk (withHost (runFB 1 bankChip [.ok]) [.tick]) ∧ (withHost (runFB 1 bankChip [.ok]) [.tick]).seq = .exec 1 [] ∧
    (withHost (runFB 1 bankChip [.ok]) [.tick]).hostIn = .tick :: [] :=
  ⟨lockOk_started _ 1 rfl rfl, by decide, rfl⟩
/-- The last clause's case: a program that is over. -/
theorem witness_TickIsOneEventOrTheCommit_commit :
    LockOk (withHost (runFB 0 bankChip []) [.tick]) ∧ (wordProg 0 (runFB 0 bankChip [])).resume [] = illegalProg :=
  ⟨lockOk_started _ 0 rfl rfl, rfl⟩
theorem witness_BlockNeverHalts : ∀ v r b rest,
    (withHost (runFB 1 bankChip []) [.reset 1 0 0x0290]).hostIn = .reset v r b :: rest →
      ∀ e ∈ (runFB 1 bankChip []).config.variants, e.code = v → e.profile.family ≠ .unsupported →
        VariantEntry.fits (runFB 1 bankChip []).config.literals e = true := by
  intro v r b rest h
  cases h
  decide +kernel
theorem witness_HandshakeEvents : (runFB 1 bankChip []).profile.family = .bankClassic ∧
    (runFE 1 ecChip []).profile.family = .ec ∧ (block emptyProfile 9 0 ecChip []).profile.family = .unsupported := by
  decide
theorem witness_BankModelReadsAndWritesMemory :
    deviceFB.ap ≠ deviceFB.dp ∧ deviceFB.mem.wf = true ∧ (Env.mk bankChip [] 0).chip = .bank deviceFB ∧
    BitVec.extractLsb' 0 8 0xFFFF#16 ≠ deviceFB.selectCmd := by decide
theorem witness_PagedModelReadsAndWritesMemory :
    deviceFE.pp ≠ deviceFE.edp ∧ deviceFE.ip ≠ deviceFE.edp ∧ deviceFE.armed = false ∧
    deviceFE.mem.wf = true ∧ (Env.mk ecChip [] 0).chip = .paged deviceFE := by decide
theorem witness_CommandsKeepTheLockDiscipline :
    (runFB 1 bankChip [.ok]).seq = .exec 1 [] ∧ (runFB 1 bankChip [.ok]).lockHeld = false := by decide
theorem witness_ErrorsComeBeforeTheLock :
    (runF5 0x502 bankChip []).seq = .exec 0x502 [] ∧ (runF5 0x502 bankChip []).lockHeld = false ∧
    next (exec (.setctl 5 0) (runF5 0x502 bankChip [])) (fun t => t.err) = true := by decide +kernel
theorem witness_UnidentifiedBlockDoesNothing :
    ({ runFB 1 bankChip [.ok] with vok := false } : State).vok = false ∧
    ({ runFB 1 bankChip [.ok] with vok := false } : State).seq = .exec 1 [] := by decide
/-- The lowest channel number that is out of range. -/
theorem witness_ChannelRangeIsRaised :
    (runF5 0x502 bankChip []).vok = true ∧ (runF5 0x502 bankChip []).seq = .exec 0x502 [] ∧
    (runF5 0x502 bankChip []).lockHeld = false ∧ (runF5 0x502 bankChip []).profile.ctrls.length ≤ 5 ∧ 5 < 32 := by decide
theorem witness_UpdateTimeoutChangesNothing :
    (runFB 1 bankChip [.timeout]).vok = true ∧ (runFB 1 bankChip [.timeout]).seq = .exec 1 [] ∧
    (runFB 1 bankChip [.timeout]).env.lockDraws = .timeout :: [] := by decide
/-- UNLOCK_SEQ of the fixture writes no port of the device. -/
theorem quirk_avoidsPorts (chip : Chip) : UnlockAvoidsPorts { runFB 1 chip [.ok] with profile := profileQuirk } := by
  intro p v h
  rcases List.mem_cons.1 h with h | h
  · cases h
    show (0x2E : Addr) ∉ [0x0295, 0x0296]
    decide
  · simp at h
/-- With the quirk and identity bytes that match; `reads_FE` is the case of the paged device. -/
theorem witness_UpdateDecodesTheChip : let s : State := { runFB 1 bankChip [.ok] with profile := profileQuirk }
    s.vok = true ∧ s.seq = .exec 1 [] ∧ (Unlocks s deviceFB.view → UnlockAvoidsPorts s) ∧ Probes s ∧
    ¬Unlocks s deviceFB.view ∧ s.env.lockDraws = .ok :: [] ∧ ReadsAs s deviceFB.view :=
  ⟨rfl, rfl, fun _ => quirk_avoidsPorts _, by decide, by decide +kernel, rfl, ⟨rfl, rfl, by decide, rfl, rfl⟩⟩
/-- With identity bytes that do not match: a chip of zeros. -/
theorem witness_UpdateDecodesTheChip_unlocks :
    let d : BankDevice := { deviceFB with mem := [] }
    let s : State := { runFB 1 (.bank d) [.ok] with profile := profileQuirk }
    s.vok = true ∧ s.seq = .exec 1 [] ∧ (Unlocks s d.view → UnlockAvoidsPorts s) ∧ Unlocks s d.view ∧
    s.env.lockDraws = .ok :: [] ∧ ReadsAs s d.view :=
  ⟨rfl, rfl, fun _ => quirk_avoidsPorts _, by decide +kernel, rfl, ⟨rfl, rfl, by decide, rfl, rfl⟩⟩
/-- The clauses of the numbers: a bank family with strategy A, and EC with strategy C, both with D0's literals. -/
theorem witness_UpdateDecodesTheChip_numbers :
    (runFB 1 bankChip [.ok]).config.literals = {} ∧ (runFB 1 bankChip [.ok]).profile.family ≠ .ec ∧
    (runFB 1 bankChip [.ok]).profile.fanStrategy = .aCounter13 ∧ (runFE 1 ecChip [.ok]).config.literals = {} ∧
    (runFE 1 ecChip [.ok]).profile.family = .ec ∧ (runFE 1 ecChip [.ok]).profile.fanStrategy = .cRpm16 :=
  ⟨rfl, by decide, rfl, rfl, rfl, rfl⟩
/-- The hypotheses are those of `UpdateDecodesTheChip`; here without the quirk, on the paged device. -/
theorem witness_UpdateEventCount :
    (runFE 1 ecChip [.ok]).vok = true ∧ (runFE 1 ecChip [.ok]).seq = .exec 1 [] ∧
    ¬Probes (runFE 1 ecChip [.ok]) ∧ (Unlocks (runFE 1 ecChip [.ok]) deviceFE.view → UnlockAvoidsPorts (runFE 1 ecChip [.ok])) ∧
    (runFE 1 ecChip [.ok]).env.lockDraws = .ok :: [] ∧ ReadsAs (runFE 1 ecChip [.ok]) deviceFE.view :=
  ⟨rfl, rfl, by decide, fun h => absurd h.1 (by decide), rfl, reads_FE 1 _⟩
theorem witness_UpdateFrame : next (exec .update (runFB 1 bankChip [.ok])) (fun _ => true) = true := by decide +kernel
/-- A probe that fails, with the byte of the one unlock read and one more; and a probe that passes. -/
theorem witness_QuirkStepUnlocks :
    let s : State := { runFB 1 (.oracle [0x5C, 0xA2, 0x99, 0x7D]) [.ok] with profile := profileQuirk }
    let p : State := { runFB 1 (.oracle [0x5C, 0xA3, 0x7D]) [.ok] with profile := profileQuirk }
    s.vok = true ∧ s.seq = .exec 1 [] ∧ Probes s ∧ s.handshake ≠ .absent ∧ s.env.lockDraws = .ok :: [] ∧
    s.env.chip = .oracle (0x5C :: 0xA2 :: ([0x99] ++ [0x7D])) ∧ 0x5C#8 ++ 0xA2#8 ≠ s.profile.vendorId ∧
    [0x99#8].length = (s.profile.unlockSeq.filter UnlockEvent.isRead).length ∧
    p.env.chip = .oracle (0x5C :: 0xA3 :: ([] ++ [0x7D])) ∧ 0x5C#8 ++ 0xA3#8 = p.profile.vendorId := by decide
theorem witness_SetctlFirstOnBank : let s := runF5 0x00800002 (.oracle [1, 0x40]) [.ok]
    s.vok = true ∧ s.seq = .exec 0x00800002 [] ∧ s.profile.family ≠ .ec ∧ s.profile.family ≠ .unsupported ∧
    s.profile.ctrls[0]? = some ⟨0x0001, 0x0109, 0x0102, 0⟩ ∧ (s.ovrAt 0).active = false ∧
    s.env.lockDraws = .ok :: [] ∧ s.env.chip = .oracle (1 :: 0x40 :: []) := by decide
theorem witness_SetctlAgainOnBank : let s := overridden (runF5 0x00800002 (.oracle []) [.ok]) 1 0x40
    s.vok = true ∧ s.seq = .exec 0x00800002 [] ∧ s.profile.family ≠ .ec ∧ s.profile.family ≠ .unsupported ∧
    s.profile.ctrls[0]? = some ⟨0x0001, 0x0109, 0x0102, 0⟩ ∧ (s.ovrAt 0).active = true ∧
    s.env.lockDraws = .ok :: [] ∧ s.env.chip = .oracle [] := by decide
/-- The highest EC channel, CT-13. -/
theorem witness_SetctlFirstOnEc : let s := runFE 0x00550702 (.oracle [0, 0x33, 0]) [.ok]
    s.vok = true ∧ s.seq = .exec 0x00550702 [] ∧ s.profile.family = .ec ∧
    s.profile.ctrls[7]? = some ⟨0x0A27, 0x0A17, 0x0A00, 0x0A01⟩ ∧ (s.ovrAt 7).active = false ∧
    s.env.lockDraws = .ok :: [] ∧ s.env.chip = .oracle (0 :: 0x33 :: 0 :: []) := by decide
theorem witness_SetctlAgainOnEc : let s := overridden (runFE 0x00550002 (.oracle [1]) [.ok]) 0 0x33
    s.vok = true ∧ s.seq = .exec 0x00550002 [] ∧ s.profile.family = .ec ∧
    s.profile.ctrls[0]? = some ⟨0x0A20, 0x0A10, 0x0A00, 0x0A01⟩ ∧ (s.ovrAt 0).active = true ∧
    s.env.lockDraws = .ok :: [] ∧ s.env.chip = .oracle (1 :: []) := by decide
theorem witness_ClrctlRestoresOnBank : let s := overridden (runF5 3 (.oracle []) [.ok]) 1 0x40
    s.vok = true ∧ s.seq = .exec 3 [] ∧ s.profile.family ≠ .ec ∧ s.profile.family ≠ .unsupported ∧
    s.profile.ctrls[0]? = some ⟨0x0001, 0x0109, 0x0102, 0⟩ ∧ (s.ovrAt 0).active = true ∧
    s.env.lockDraws = .ok :: [] ∧ s.env.chip = .oracle [] := by decide
theorem witness_ClrctlRestoresOnEc : let s := overridden (runFE 3 (.oracle [3]) [.ok]) 2 0x33
    s.vok = true ∧ s.seq = .exec 3 [] ∧ s.profile.family = .ec ∧
    s.profile.ctrls[0]? = some ⟨0x0A20, 0x0A10, 0x0A00, 0x0A01⟩ ∧ (s.ovrAt 0).active = true ∧
    s.env.lockDraws = .ok :: [] ∧ s.env.chip = .oracle (3 :: []) := by decide
theorem witness_ClrctlInactiveTakesAndReleases : let s := runF5 0x403 bankChip [.ok]
    s.vok = true ∧ s.seq = .exec 0x403 [] ∧ s.profile.ctrls[4]? = some ⟨0x0005, 0x0149, 0x0142, 0⟩ ∧ 4 < s.ovr.length ∧
    (s.ovrAt 4).active = false ∧ s.env.lockDraws = .ok :: [] := by decide
theorem witness_ControlTimeoutChangesNothing : let s := runF5 0x402 bankChip [.timeout]
    s.vok = true ∧ s.seq = .exec 0x402 [] ∧ 4 < s.profile.ctrls.length ∧ s.env.lockDraws = .timeout :: [] := by decide
theorem witness_FanControlFrame :
    next (exec (.setctl 0 128) (runF5 0x00800002 bankChip [.ok])) (fun _ => true) = true ∧
    next (exec (.clrctl 0) (runF5 3 bankChip [.ok])) (fun _ => true) = true := by decide +kernel
/-- The bank clause. -/
theorem witness_SetctlStoresInTheChip : let s := runF5 0x00800002 bankChip [.ok]
    s.vok = true ∧ s.seq = .exec 0x00800002 [] ∧ s.profile.ctrls[0]? = some ⟨0x0001, 0x0109, 0x0102, 0⟩ ∧
    s.env.lockDraws = .ok :: [] ∧ ReadsAs s deviceFB.view ∧ Chip.wf s.env.chip = true ∧ s.profile.family ≠ .ec ∧
    loByte 0x0102 ≠ s.config.bankSelectCmd ∧ loByte 0x0109 ≠ s.config.bankSelectCmd :=
  ⟨rfl, rfl, rfl, rfl, reads_F5 _ _, by decide, by decide, by decide, by decide⟩
/-- The EC clause. -/
theorem witness_SetctlStoresInTheChip_ec : let s := runFE 0x00800002 ecChip [.ok]
    s.vok = true ∧ s.seq = .exec 0x00800002 [] ∧ s.profile.ctrls[0]? = some ⟨0x0A20, 0x0A10, 0x0A00, 0x0A01⟩ ∧
    s.env.lockDraws = .ok :: [] ∧ ReadsAs s deviceFE.view ∧ Chip.wf s.env.chip = true ∧ s.profile.family = .ec :=
  ⟨rfl, rfl, rfl, rfl, reads_FE _ _, by decide, rfl⟩
/-- The bank clause. -/
theorem witness_ClrctlStoresInTheChip : let s := overridden (runF5 3 bankChip [.ok]) 1 0x40
    s.vok = true ∧ s.seq = .exec 3 [] ∧ s.profile.ctrls[0]? = some ⟨0x0001, 0x0109, 0x0102, 0⟩ ∧
    (s.ovrAt 0).active = true ∧ s.env.lockDraws = .ok :: [] ∧ ReadsAs s deviceFB.view ∧ Chip.wf s.env.chip = true ∧
    s.profile.family ≠ .ec ∧ loByte 0x0102 ≠ s.config.bankSelectCmd ∧ loByte 0x0109 ≠ s.config.bankSelectCmd :=
  ⟨rfl, rfl, rfl, rfl, rfl, ⟨rfl, rfl, by decide, rfl, rfl⟩, by decide, by decide, by decide, by decide⟩
/-- The EC clause. -/
theorem witness_ClrctlStoresInTheChip_ec : let s := overridden (runFE 3 ecChip [.ok]) 2 0x33
    s.vok = true ∧ s.seq = .exec 3 [] ∧ s.profile.ctrls[0]? = some ⟨0x0A20, 0x0A10, 0x0A00, 0x0A01⟩ ∧
    (s.ovrAt 0).active = true ∧ s.env.lockDraws = .ok :: [] ∧ ReadsAs s deviceFE.view ∧ Chip.wf s.env.chip = true ∧
    s.profile.family = .ec :=
  ⟨rfl, rfl, rfl, rfl, rfl, ⟨rfl, rfl, rfl, by decide, by decide, by decide, rfl, rfl, rfl⟩, by decide, rfl⟩
theorem witness_SetThenClearRestoresTheChip : let s := runF5 0x00800002 bankChip [.ok, .ok]
    s.vok = true ∧ s.seq = .exec 0x00800002 [] ∧ s.profile.family ≠ .ec ∧
    s.profile.ctrls[0]? = some ⟨0x0001, 0x0109, 0x0102, 0⟩ ∧ 0 < s.ovr.length ∧ (s.ovrAt 0).active = false ∧
    loByte 0x0102 ≠ s.config.bankSelectCmd ∧ loByte 0x0109 ≠ s.config.bankSelectCmd ∧
    s.env.lockDraws = .ok :: .ok :: [] ∧ ReadsAs s deviceFB.view ∧ Chip.wf s.env.chip = true :=
  ⟨rfl, rfl, by decide, rfl, by decide, rfl, by decide, by decide, rfl, reads_F5 _ _, by decide⟩
theorem witness_DumpTimeoutIsEmpty : let s := runFB 4 bankChip [.timeout]
    s.vok = true ∧ s.seq = .exec 4 [] ∧ s.env.lockDraws = .timeout :: [] := by decide
theorem witness_EcDumpReadsEveryRegister : let s := runFE 4 ecChip [.ok]
    s.vok = true ∧ s.seq = .exec 4 [] ∧ s.profile.family = .ec ∧ s.env.lockDraws = .ok :: [] ∧
    ReadsAs s deviceFE.view := ⟨rfl, rfl, rfl, rfl, reads_FE _ _⟩
theorem witness_BankDumpReadsTheWindows : let s := runFB 4 bankChip [.ok]
    s.vok = true ∧ s.seq = .exec 4 [] ∧ s.profile.family ≠ .ec ∧ s.env.lockDraws = .ok :: [] ∧
    ReadsAs s deviceFB.view ∧ s.profile.dumpWindows[0]? = some 0x0020 :=
  ⟨rfl, rfl, by decide, rfl, reads_FB _ _, rfl⟩
theorem witness_DumpFrame : next (exec .dump (runFB 4 bankChip [.ok])) (fun _ => true) = true := by decide +kernel
theorem witness_EventCounts : ∀ r : LockOutcome, let s := runF5 0x402 bankChip [r]
    s.vok = true ∧ s.seq = .exec 0x402 [] ∧ s.profile.family ≠ .unsupported ∧ s.env.lockDraws = r :: [] ∧
    4 < s.profile.ctrls.length := by
  intro r
  cases r <;> decide
/-- A variant with no channels at all (U-5). -/
theorem witness_EventCounts_empty : ∀ r : LockOutcome,
    let s := (block { profileFB with volts := [], temps := [], fans := [], ctrls := [] } 1 0x0290 bankChip [r]).accept 1
    s.vok = true ∧ s.seq = .exec 1 [] ∧ s.profile.family ≠ .unsupported ∧ s.env.lockDraws = r :: [] := by
  intro r
  cases r <;> decide
/-- No error without VOK, and an error: CT-9's channel. -/
theorem witness_EventCounts_none :
    (runF5 0x502 bankChip []).seq = .exec 0x502 [] ∧ (runF5 0x502 bankChip []).lockHeld = false ∧
    next (exec (.setctl 5 0) (runF5 0x502 bankChip [])) (fun t => t.err) = true ∧
    next (exec .update { runFB 1 bankChip [.ok] with vok := false }) (fun _ => true) = true := by decide +kernel
/-- With identity registers, a timeout and two bytes; without (EC); UNSUPPORTED. -/
theorem witness_ResetGivesTheResetValues :
    (withHost (runFB 1 (.oracle [0x5C, 0xA3]) [.ok]) [.reset 1 0 0x0290]).hostIn = [.reset 1 0 0x0290] ∧
    resolveProfile fixtureConfig 1 = some profileFB ∧ profileFB.hasVendorId = true ∧
    (withHost (runFB 1 (.oracle [0x5C, 0xA3]) [.ok]) [.reset 1 0 0x0290]).env.chip = .oracle (0x5C :: 0xA3 :: []) ∧
    (runFB 1 bankChip [.timeout]).env.lockDraws = .timeout :: [] ∧
    resolveProfile fixtureConfig 4 = some profileFE ∧ profileFE.hasVendorId = false ∧
    resolveProfile fixtureConfig 9 = some emptyProfile ∧ emptyProfile.family = .unsupported := by decide +kernel
/-- The four clauses: an unsupported variant, no identity registers, a timeout, and two bytes read. -/
theorem witness_ResetProbeDecidesVok :
    ({ block emptyProfile 0x77 0 bankChip [] with seq := .resetting [] } : State).profile.family = .unsupported ∧
    ({ block profileFE 4 0 ecChip [] with seq := .resetting [] } : State).profile.hasVendorId = false ∧
    ({ block profileFB 1 0 bankChip [.timeout] with seq := .resetting [] } : State).env.lockDraws = .timeout :: [] ∧
    ({ block profileFB 1 0 (.oracle [0x5C, 0xA3]) [.ok] with seq := .resetting [] } : State).env.chip =
      .oracle (0x5C :: 0xA3 :: []) ∧
    ({ block profileFB 1 0 (.oracle [0x5C, 0xA3]) [.ok] with seq := .resetting [] } : State).seq = .resetting [] ∧
    ({ block profileFB 1 0 (.oracle [0x5C, 0xA3]) [.ok] with seq := .resetting [] } : State).hostIn = [] ∧
    ({ block profileFB 1 0 (.oracle [0x5C, 0xA3]) [.ok] with seq := .resetting [] } : State).lockHeld = false := by
  decide
/-- A tag without an entry, and an UNSUPPORTED entry with a parameter of its own. -/
theorem witness_UnknownVariantIsHarmless :
    (withHost (runFB 1 bankChip []) [.reset 9 0 0x0290]).hostIn = [.reset 9 0 0x0290] ∧
    (∀ e ∈ fixtureConfig.variants, e.code = 0x77 → e.profile.family = .unsupported) ∧
    (∀ e ∈ fixtureConfig.variants, e.code = 9 → e.profile.family = .unsupported) ∧
    (∃ e ∈ fixtureConfig.variants, e.code = 9) := by decide +kernel
/-- The boundaries: one past the map, the last byte of a word, an 8-bit access. -/
theorem witness_HostBusErrorChangesNothing :
    (32 ≠ 32 ∨ 0x8000 % 4 ≠ 0 ∨ 0x7FFF < 0x8000) ∧ (32 ≠ 32 ∨ 0x7FFF % 4 ≠ 0 ∨ 0x7FFF < 0x7FFF) ∧
    (8 ≠ 32 ∨ 0 % 4 ≠ 0 ∨ 0x7FFF < 0) ∧
    (withHost (runFB 1 bankChip []) [.access (.write 32 0x8000 1)]).hostIn = .access (.write 32 0x8000 1) :: [] := by
  decide
/-- The boundaries: the first offset after STATUS and the last word of the map; the ends of the unmapped ranges. -/
theorem witness_OtherHostWritesAreIgnored :
    (8 % 4 = 0 ∧ 4 < 8 ∧ 8 < 0x8000) ∧ (0x7FFC % 4 = 0 ∧ 4 < 0x7FFC ∧ 0x7FFC < 0x8000) ∧
    (0x18 ≤ 0xFC ∧ 0xFC < 0x100) ∧ (0x380 ≤ 0x3FFC ∧ 0x3FFC < 0x4000) ∧
    (withHost (runFB 1 bankChip []) [.access (.write 32 8 1)]).hostIn = .access (.write 32 8 1) :: [] := by decide
theorem witness_HostReadsHaveNoSideEffect :
    (0x7FFC % 4 = 0 ∧ 0x7FFC < 0x8000) ∧
    (withHost (runFB 1 bankChip []) [.access (.read 32 0x7FFC)]).hostIn = .access (.read 32 0x7FFC) :: [] := by decide
/-- Both clauses: accepted in IDLE, dropped while a command runs. -/
theorem witness_CommandWriteIsAcceptedOrDropped :
    (withHost (block profileFB 1 0x0290 bankChip []) [.access (.write 32 0 1)]).hostIn = .access (.write 32 0 1) :: [] ∧
    (withHost (block profileFB 1 0x0290 bankChip []) [.access (.write 32 0 1)]).seq = .idle ∧
    (withHost (runFB 1 bankChip []) [.access (.write 32 0 1)]).seq ≠ .idle := by decide
theorem witness_StatusWriteClearsOnlyItsBits :
    (withHost (runFB 1 bankChip []) [.access (.write 32 4 0x102)]).hostIn = .access (.write 32 4 0x102) :: [] ∧
    (0x102#32).getLsbD 1 = true ∧ (0x102#32).getLsbD 8 = true := by decide
/-- The ends of every range of the map: the last element of an array, the first one beyond it, the last record. -/
theorem witness_HostReadsGiveTheRegisterWords : (∀ evs, (runF5 1 bankChip []).seq ≠ .resetting evs) ∧
    (runF5 1 bankChip []).dumpCount ≤ 4096 ∧ 31 < 32 ∧ (runF5 1 bankChip []).ctrlRaw[4]? = some 0 ∧
    (runF5 1 bankChip []).ctrl[5]? = none ∧ 4095 < 4096 := by
  refine ⟨fun evs h => ?_, by decide, by decide, by decide, by decide, by decide⟩
  cases h
/-- The ends of both ranges. -/
theorem witness_ResultWordsAreExact :
    (1 ≤ 1 ∧ 1 ≤ 49140) ∧ (1 ≤ 49140 ∧ 49140 ≤ 49140) ∧ ((-256 : Int) ≤ -256 ∧ (-256 : Int) ≤ 255) ∧
    ((-256 : Int) ≤ 255 ∧ (255 : Int) ≤ 255) ∧
    (((675 : Nat) : ℚ) ≤ 675 ∧ (675 : ℚ) < ((675 : Nat) : ℚ) + 1) ∧
    (10000 ≤ 10000 ∧ ((10000 : Nat) : ℚ) ≤ 100 * 100 ∧ (100 * 100 : ℚ) < ((10000 : Nat) : ℚ) + 1) := by
  refine ⟨by decide, by decide, by decide, by decide, by norm_num, by norm_num⟩
theorem witness_SensorsChangeOnlyByUpdate :
    next (step (runFB 1 bankChip [.ok])) (fun t => t.volt != (runFB 1 bankChip [.ok]).volt) = true := by decide +kernel
theorem witness_OverridesChangeOnlyByFanControl :
    next (step (runF5 0x00800002 bankChip [.ok])) (fun t =>
      t.ovr[0]? != (runF5 0x00800002 bankChip [.ok]).ovr[0]?) = true := by decide +kernel
theorem witness_DumpBufferChangesOnlyByDump :
    next (step (runFB 4 bankChip [.ok])) (fun t => t.dumpCount != (runFB 4 bankChip [.ok]).dumpCount) = true := by
  decide +kernel
theorem witness_ConfigurationIsFixed :
    next (step (withHost (runFB 1 bankChip []) [.reset 4 0 0x0A20])) (fun t =>
      t.variant != (runFB 1 bankChip []).variant && t.profile != (runFB 1 bankChip []).profile) = true := by decide +kernel
theorem witness_EveryStepKeepsTheInvariant :
    (runFB 1 bankChip [.ok]).Inv ∧ next (step (runFB 1 bankChip [.ok])) (fun _ => true) = true := by
  refine ⟨⟨by decide +kernel, by decide +kernel, by decide +kernel, ⟨rfl, rfl, rfl, rfl, rfl, rfl⟩, .inl ⟨rfl, rfl⟩, by decide,
    fun h => absurd h (by decide), lockOk_started _ 1 rfl rfl, by decide⟩, by decide +kernel⟩
theorem witness_EveryStepKeepsTheRanges :
    (runFB 1 bankChip [.ok]).config.literals = {} ∧
    RangesOk { runFB 1 bankChip [.ok] with volt := [some (1 / 1000), none] } ∧
    next (step { runFB 1 bankChip [.ok] with volt := [some (1 / 1000), none] }) (fun _ => true) = true := by
  refine ⟨rfl, ⟨?_, ?_, ?_, ?_⟩, by decide +kernel⟩
  · intro q h
    refine ⟨1, by decide, by decide, ?_⟩
    simp only [List.mem_cons, Option.some.injEq, reduceCtorEq, List.not_mem_nil, or_false] at h
    rw [h, Nat.cast_one]
  · intro q h
    simp [runFB, block, State.accept] at h
  · intro q h
    simp [runFB, block, State.accept] at h
  · intro q h
    simp [runFB, block, State.accept] at h

end Sys2Proof.Tests
end

namespace Sys2Proof.Machine

/-- The block moving on its own keeps the invariant, in each of the three states of SEQ. -/
theorem proceed_inv {s t : State} (hs : s.Inv) (h : s.proceed = .next t) : t.Inv := by
  rcases proceed_cases h with ⟨-, rfl⟩ | ⟨evs, hq, rfl⟩ | ⟨w, evs, hq, rfl⟩
  · exact hs
  · exact runReset_inv hs hq
  · exact runCommand_inv hs hq

/-- One bus event, or the commit, keeps the invariant. -/
theorem tick_inv {s : State} (hs : s.Inv) : s.tick.Inv := by
  rcases tick_cases s with ⟨-, h⟩ | ⟨evs, hq, h⟩ | ⟨w, evs, hq, h⟩ <;> rw [h]
  · exact hs
  · exact stepReset_inv hs hq
  · exact stepCommand_inv hs hq

/-- Settles O58: each way a step can end keeps the invariant. A profile loaded by a reset action is one that
ProfileResolve accepts, so it is well-typed because the configuration is. -/
theorem everyStepKeepsTheInvariant : Obligations.EveryStepKeepsTheInvariant := by
  intro s t hs h
  rcases step_cases h with ⟨-, hp⟩ | ⟨rest, -, rfl⟩ | ⟨rest, -, -, rfl⟩ | ⟨rest, -, -, hp⟩ | ⟨a, rest, -, rfl⟩ |
    ⟨v, r, b, rest, p, -, hp, rfl⟩
  · exact proceed_inv hs hp
  · exact tick_inv (hostIn_inv hs rest)
  · exact serve_inv (hostIn_inv hs rest) _
  · exact proceed_inv hs hp
  · exact serve_inv (hostIn_inv hs rest) a
  · exact initialise_inv (hostIn_inv hs rest) (resolveProfile_sound hs.config hp) v r b

end Sys2Proof.Machine


/-! ## The state and its host port (10_state.md)

What a step runs, what the host reads and writes, and which step changes what. -/

namespace Sys2Proof.Machine

/-! ## What a step does with nothing pending, and with a pending tick or access -/

theorem step_of_no_host {s : State} (h : s.hostIn = []) : step s = s.proceed := by simp [step, State.move, h]

theorem step_of_tick {s : State} {rest : List HostEvent} (h : s.hostIn = .tick :: rest) :
    step s = .next (State.tick { s with hostIn := rest }) := by simp [step, State.move, h]

theorem step_of_access {s : State} {a : HostAccess} {rest : List HostEvent} (h : s.hostIn = .access a :: rest) :
    step s = .next (State.serve a { s with hostIn := rest }) := by simp [step, State.move, h]

/-- Settles O7: with no host action pending the block proceeds, and a running command proceeds by its decoded word. -/
theorem stepRunsTheDecodedCommand : Obligations.StepRunsTheDecodedCommand := by
  intro s w evs i hin hq hd
  rw [step_of_no_host hin]
  simp [State.proceed, hq, execWord, hd]

theorem decodeTableWord_eq_some {nbits w : Nat} {i : Instr} (h : decodeTableWord nbits w = some i) :
    decode (BitVec.ofNat 32 (w % 2 ^ nbits)) = .ok i := by
  unfold decodeTableWord at h
  split at h
  · rename_i j hj
    rw [hj, Option.some.inj h]
  · cases h

/-- Settles O8: placing a word leaves it in SEQ with nothing pending, which is the case of O7. -/
theorem stepRunsThePlacedWord : Obligations.StepRunsThePlacedWord := fun _ _ i h =>
  stepRunsTheDecodedCommand _ _ [] i rfl rfl (decodeTableWord_eq_some h)

/-! ## One tick of a running command -/

/-- STATUS.BUSY = 1 exactly when SEQ ≠ IDLE (10_state.md R42). -/
theorem State.busy_eq (s : State) : s.busy = decide (s.seq ≠ .idle) := by
  unfold State.busy
  by_cases h : s.seq = .idle <;> simp [h]

/-- STATUS shows of a running command only that it runs, not how far it is. -/
theorem State.statusWord_issue {s : State} {w : Word} {old : List BusEvent} (hq : s.seq = .exec w old)
    (evs : List BusEvent) (env : Env) : (s.issue evs env).statusWord = s.statusWord := by
  simp [State.statusWord, State.busy_eq, State.vokBit, hq, Seq.advance]

/-- The events of a running command change no word that the host can read (10_state.md R60). -/
theorem State.hostRead_issue {s : State} {w : Word} {old : List BusEvent} (hq : s.seq = .exec w old)
    (evs : List BusEvent) (env : Env) (off : Nat) : (s.issue evs env).hostRead off = s.hostRead off := by
  unfold State.hostRead
  rw [State.statusWord_issue hq]
  rfl

/-- A tick of a running command is one event, or the commit of a program that has run out and so does not hold the
lock (20_memory.md R113). -/
theorem tick_of_exec {s : State} {w : Word} {evs : List BusEvent} (hq : s.seq = .exec w evs) (hl : LockOk s) :
    (∃ e env, s.tick = s.issue [e] env) ∨ (∃ c, s.tick = s.commit c ∧ s.lockHeld = false) := by
  simp only [LockOk, hq] at hl
  simp only [State.tick, stepCommand, hq, Seq.events]
  split
  · exact .inr ⟨_, rfl, hl.ends ‹_›⟩
  · exact .inl ⟨_, _, rfl⟩

/-- The lock window depends on the program, where it stands and LOCK_HELD alone. -/
theorem LockOk.congr {s t : State} (h : LockOk s) (hw : t.wiring = s.wiring) (hq : t.seq = s.seq)
    (hl : t.lockHeld = s.lockHeld) : LockOk t := by
  unfold LockOk at h ⊢
  rw [hq, hl]
  cases hs : s.seq with
  | idle => simpa [hs] using h
  | resetting evs => simp only [hs] at h ⊢; rwa [resetProg_congr hw]
  | exec w evs => simp only [hs] at h ⊢; rwa [wordProg_congr w hw]

/-- Settles O11: an event of a running command shows in no host word, and a commit finds the lock already released, so
that it issues none. -/
theorem tickIsOneEventOrTheCommit : Obligations.TickIsOneEventOrTheCommit := by
  intro s w evs rest hq hlock hin
  refine ⟨_, step_of_tick hin, ?_⟩
  rcases tick_of_exec (s := { s with hostIn := rest }) hq (hlock.congr rfl rfl rfl) with
    ⟨e, env, h⟩ | ⟨c, h, hheld⟩ <;> rw [h]
  · refine .inl ⟨e, rfl, by simp [hq, Seq.advance], by simp [hq, Seq.advance, Seq.k, Seq.events], fun off => ?_⟩
    exact State.hostRead_issue (s := { s with hostIn := rest }) hq [e] env off
  · exact .inr ⟨State.commit_trace c _ hheld, by simp, by simp⟩

/-! ## The VOK gate -/

/-- While VOK = 0 every command is over before its first event (60_exceptions.md R324). -/
theorem commandProg_unidentified (i : Instr) {s : State} (h : s.vok = false) : commandProg i s = .done .silent := by
  cases i with
  | update => simp [commandProg, updateProg, h]
  | setctl ch duty => simp [commandProg, setctlProg, withChannel, h]
  | clrctl ch => simp [commandProg, clrctlProg, withChannel, h]
  | dump => simp [commandProg, dumpProg, h]

/-- Settles O18: every command's program is over at once, and its silent commit is a completion without error. -/
theorem unidentifiedBlockDoesNothing : Obligations.UnidentifiedBlockDoesNothing := by
  intro i s w hvok hq
  rw [exec_eq, commandProg_unidentified i hvok, runCommand_ends (c := .silent) (by simp [hq, Seq.events, Prog.peek])]
  rfl

/-! ## Host accesses -/

/-- An aligned 32-bit access inside the map is legal (20_memory.md R83). -/
theorem legalAccess_word {off : Nat} (halign : off % 4 = 0) (hrange : off < 0x8000) : legalAccess 32 off = true := by
  simp [legalAccess, halign, hrange]

/-- Settles O49: a legal read is answered and touches only the host's own two lists. -/
theorem hostReadsHaveNoSideEffect : Obligations.HostReadsHaveNoSideEffect := by
  intro s off rest halign hrange hin
  rw [step_of_access hin]
  simp only [State.serve, legalAccess_word halign hrange]
  rfl

/-- A step that takes a legal host write. -/
theorem step_of_write {s : State} {off : Nat} {w : Word} {rest : List HostEvent} (halign : off % 4 = 0)
    (hrange : off < 0x8000) (hin : s.hostIn = .access (.write 32 off w) :: rest) :
    step s = .next ((State.hostWrite off w { s with hostIn := rest }).reply .written) := by
  rw [step_of_access hin]
  simp [State.serve, legalAccess_word halign hrange]

theorem State.writeCmd_idle {s : State} (hq : s.seq = .idle) (w : Word) : s.writeCmd w = s.accept w := by
  simp [State.writeCmd, hq]

theorem State.writeCmd_busy {s : State} (hq : s.seq ≠ .idle) (w : Word) :
    s.writeCmd w = { s with cmdDropped := true } := by
  unfold State.writeCmd
  split
  · contradiction
  · rfl
  · rfl

/-- Settles O50, in IDLE and out of it. -/
theorem commandWriteIsAcceptedOrDropped : Obligations.CommandWriteIsAcceptedOrDropped := by
  intro s w rest hin
  rw [step_of_write (by decide) (by decide) hin]
  refine ⟨fun hq => ?_, fun hq => ?_, rfl⟩
  · rw [State.hostWrite, if_pos rfl, State.writeCmd_idle (s := { s with hostIn := rest }) hq]
    rfl
  · rw [State.hostWrite, if_pos rfl, State.writeCmd_busy (s := { s with hostIn := rest }) hq]
    rfl

/-- Writing 1 clears a bit: the model's form of it is the spec's. -/
theorem and_not_eq_ite (clear old : Bool) : (old && !clear) = if clear then false else old := by cases clear <;> simp

/-- Settles O51: offset 4 is STATUS, whose write clears by write-one. -/
theorem statusWriteClearsOnlyItsBits : Obligations.StatusWriteClearsOnlyItsBits := by
  intro s w rest hin
  rw [step_of_write (by decide) (by decide) hin, State.hostWrite, if_neg (by decide), if_pos rfl, State.writeStatus,
    and_not_eq_ite, and_not_eq_ite]
  rfl

end Sys2Proof.Machine

namespace Sys2Proof.Machine

/-! ## Which results a step changes (10_state.md R35, R37, R38) -/

/-- `t` holds the SensorState and CTRL_RAW of `s`. -/
def State.SameSensors (s t : State) : Prop :=
  t.volt = s.volt ∧ t.temp = s.temp ∧ t.fan = s.fan ∧ t.ctrl = s.ctrl ∧ t.ctrlRaw = s.ctrlRaw

/-- `t` holds the dump buffer of `s`. -/
def State.SameDump (s t : State) : Prop := t.dumpCount = s.dumpCount ∧ t.dumpRec = s.dumpRec

theorem State.SamePublished.sensors_iff {s u : State} (h : s.SamePublished u) (t : State) :
    u.SameSensors t ↔ s.SameSensors t := by simp [State.SameSensors, h.volt, h.temp, h.fan, h.ctrl, h.ctrlRaw]

theorem State.SamePublished.dump_iff {s u : State} (h : s.SamePublished u) (t : State) :
    u.SameDump t ↔ s.SameDump t := by simp [State.SameDump, h.dumpCount, h.dumpRec]

/-- A SETCTL or CLRCTL of channel `c`. -/
def FanControlOf (c : Nat) (i : Instr) : Prop := (∃ d, i = .setctl c d) ∨ i = .clrctl c

/-- What the commit of a word's command publishes: the results that belong to the command, and no others. -/
inductive PublishesOnlyItsOwn (w : Word) (s t : State) : Prop where
  | update (hw : decode w = .ok .update) (hd : s.SameDump t) (ho : t.ovr = s.ovr)
  | control (c : Nat) (i : Instr) (hw : decode w = .ok i) (hi : FanControlOf c i) (hs : s.SameSensors t)
      (hd : s.SameDump t) (ho : ∀ c' : Nat, c' ≠ c → t.ovr[c']? = s.ovr[c']?)
  | dump (hw : decode w = .ok .dump) (hs : s.SameSensors t) (ho : t.ovr = s.ovr)
  | illegal (r : DecodeReject) (hw : decode w = .error r) (hs : s.SameSensors t) (hd : s.SameDump t)
      (ho : t.ovr = s.ovr)

/-- What happened before the commit published nothing. -/
theorem PublishesOnlyItsOwn.of_samePublished {w : Word} {s u t : State} (hp : s.SamePublished u)
    (h : PublishesOnlyItsOwn w u t) : PublishesOnlyItsOwn w s t := by
  cases h with
  | update hw hd ho => exact .update hw ((hp.dump_iff t).1 hd) (ho.trans hp.ovr)
  | control c i hw hi hs hd ho =>
    exact .control c i hw hi ((hp.sensors_iff t).1 hs) ((hp.dump_iff t).1 hd) (by simpa only [hp.ovr] using ho)
  | dump hw hs ho => exact .dump hw ((hp.sensors_iff t).1 hs) (ho.trans hp.ovr)
  | illegal r hw hs hd ho =>
    exact .illegal r hw ((hp.sensors_iff t).1 hs) ((hp.dump_iff t).1 hd) (ho.trans hp.ovr)

theorem wordProg_of_decode {w : Word} {i : Instr} (h : decode w = .ok i) (s : State) :
    wordProg w s = commandProg i s := by simp [wordProg, h]

theorem wordProg_of_illegal {w : Word} {r : DecodeReject} (h : decode w = .error r) (s : State) :
    wordProg w s = illegalProg := by simp [wordProg, h]

theorem fanControlProg_control {i : Instr} {c : Nat} (h : FanControlOf c i) (s : State) :
    Prog.All (Commit.IsControl c) (commandProg i s) := by
  rcases h with ⟨d, rfl⟩ | rfl
  · exact setctlProg_control c d s
  · exact clrctlProg_control c s

/-- A result that the program of `w` can end with publishes what belongs to the command. -/
theorem State.commit_publishes {w : Word} {s : State} {c : Commit}
    (hc : ∀ P : Commit → Prop, Prog.All P (wordProg w s) → P c) (u : State) : PublishesOnlyItsOwn w u (u.commit c) := by
  have control {i : Instr} {ch : Nat} (hw : decode w = .ok i) (hi : FanControlOf ch i) :
      PublishesOnlyItsOwn w u (u.commit c) := by
    rw [wordProg_of_decode hw] at hc
    obtain ⟨hv, ht, hf, hk, hr, hn, hd, ho⟩ := (hc _ (fanControlProg_control hi s)).keeps u
    exact .control ch i hw hi ⟨hv, ht, hf, hk, hr⟩ ⟨hn, hd⟩ ho
  cases hw : decode w with
  | error r =>
    rw [wordProg_of_illegal hw] at hc
    cases hc (· = .error .illegalCommand) rfl
    exact .illegal r hw (by simp [State.SameSensors, State.commit]) (by simp [State.SameDump, State.commit])
      (by simp [State.commit])
  | ok i =>
    cases i with
    | update =>
      rw [wordProg_of_decode hw] at hc
      obtain ⟨ho, hn, hd⟩ := (hc _ (updateProg_sensors s)).keeps u
      exact .update hw ⟨hn, hd⟩ ho
    | setctl ch d => exact control hw (.inl ⟨d, rfl⟩)
    | clrctl ch => exact control hw (.inr rfl)
    | dump =>
      rw [wordProg_of_decode hw] at hc
      obtain ⟨hv, ht, hf, hk, hr, ho⟩ := (hc _ (dumpProg_dump s)).keeps u
      exact .dump hw ⟨hv, ht, hf, hk, hr⟩ ho

/-- What a step that is no reset does to the results: nothing, or it ends the command under way and publishes the
results that belong to it. -/
theorem step_results {s t : State} (h : step s = .next t) (hr : ¬∃ v r b rest, s.hostIn = .reset v r b :: rest) :
    (s.SameSensors t ∧ s.SameDump t ∧ t.ovr = s.ovr) ∨
    ∃ w evs, s.seq = .exec w evs ∧ t.seq = .idle ∧ PublishesOnlyItsOwn w s t := by
  rcases step_publishes h with ⟨hreset, -⟩ | ⟨hp, -⟩ | ⟨w, evs, c, u, hq, hc, rfl, hp, -⟩
  · exact absurd hreset hr
  · exact .inl ⟨⟨hp.volt, hp.temp, hp.fan, hp.ctrl, hp.ctrlRaw⟩, ⟨hp.dumpCount, hp.dumpRec⟩, hp.ovr⟩
  · exact .inr ⟨w, evs, hq, State.commit_seq c u, (State.commit_publishes hc u).of_samePublished hp⟩

/-- Settles O54: of the commands only UPDATE publishes sensor values. -/
theorem sensorsChangeOnlyByUpdate : Obligations.SensorsChangeOnlyByUpdate := by
  intro s t h hne
  have hchanged : ¬s.SameSensors t := by unfold State.SameSensors; tauto
  by_cases hr : ∃ v r b rest, s.hostIn = .reset v r b :: rest
  · exact .inr hr
  rcases step_results h hr with ⟨hs, -, -⟩ | ⟨w, evs, hq, hidle, hpub⟩
  · exact absurd hs hchanged
  · cases hpub with
    | update hw => exact .inl ⟨w, evs, hq, hw, hidle⟩
    | control _ _ _ _ hs => exact absurd hs hchanged
    | dump _ hs => exact absurd hs hchanged
    | illegal _ _ hs => exact absurd hs hchanged

/-- Settles O55: of the commands only SETCTL and CLRCTL publish a record, the one of their channel. -/
theorem overridesChangeOnlyByFanControl : Obligations.OverridesChangeOnlyByFanControl := by
  intro s t c h hne
  have hchanged : t.ovr ≠ s.ovr := fun ho => hne (by rw [ho])
  by_cases hr : ∃ v r b rest, s.hostIn = .reset v r b :: rest
  · exact .inr hr
  rcases step_results h hr with ⟨-, -, ho⟩ | ⟨w, evs, hq, hidle, hpub⟩
  · exact absurd ho hchanged
  · cases hpub with
    | update _ _ ho => exact absurd ho hchanged
    | control c' i hw hi _ _ ho =>
      have hcc : c = c' := by
        by_contra hcc
        exact hne (ho c hcc)
      subst hcc
      refine .inl ⟨w, evs, hq, ?_, hidle⟩
      rcases hi with ⟨d, rfl⟩ | rfl
      · exact .inl ⟨d, hw⟩
      · exact .inr hw
    | dump _ _ ho => exact absurd ho hchanged
    | illegal _ _ _ _ ho => exact absurd ho hchanged

/-- Settles O56: of the commands only DUMP publishes dump records. -/
theorem dumpBufferChangesOnlyByDump : Obligations.DumpBufferChangesOnlyByDump := by
  intro s t h hne
  have hchanged : ¬s.SameDump t := by unfold State.SameDump; tauto
  by_cases hr : ∃ v r b rest, s.hostIn = .reset v r b :: rest
  · exact .inr hr
  rcases step_results h hr with ⟨-, hd, -⟩ | ⟨w, evs, hq, hidle, hpub⟩
  · exact absurd hd hchanged
  · cases hpub with
    | update _ hd => exact absurd hd hchanged
    | control _ _ _ _ _ hd => exact absurd hd hchanged
    | dump hw => exact .inl ⟨w, evs, hq, hw, hidle⟩
    | illegal _ _ _ hd => exact absurd hd hchanged

/-- The commit of a command leaves the configuration and VOK alone. -/
theorem CommitsTo.config_fixed {s t : State} (h : CommitsTo s t) :
    t.config = s.config ∧ t.variant = s.variant ∧ t.revision = s.revision ∧ t.base = s.base ∧ t.profile = s.profile ∧
      t.vok = s.vok := by
  obtain ⟨w, evs, c, u, -, -, rfl, hp, hv⟩ := h
  simp [hp.config, hp.variant, hp.revision, hp.base, hp.profile, hv]

/-- Settles O57: neither a commit nor a step that publishes nothing touches the construction inputs, and outside a reset
sequence VOK stays. -/
theorem configurationIsFixed : Obligations.ConfigurationIsFixed := by
  intro s t h
  rcases step_publishes h with ⟨hr, hc⟩ | ⟨hp, hv⟩ | hcommit
  · exact ⟨hc, fun _ => hr, fun _ => .inl hr⟩
  · refine ⟨hp.config, fun hne => ?_, fun hne => .inr (hv.resolve_left hne)⟩
    simp [hp.variant, hp.revision, hp.base, hp.profile] at hne
  · obtain ⟨hc, hv, hr, hb, hp, hok⟩ := hcommit.config_fixed
    refine ⟨hc, fun hne => ?_, fun hne => absurd hok hne⟩
    simp [hv, hr, hb, hp] at hne

/-! ## State.reset -/

theorem ecProfile_wellTyped : Profile.wellTyped Config.ecProfile = true := by
  simp [Profile.wellTyped, Config.ecProfile, Config.maxChannels]

theorem implementation_wellTyped : Config.wellTyped Config.implementation = true := by
  have hdelay : Config.openTUpdate < Config.openTUpdate + 1 + Config.openTDump := by omega
  simp [Config.wellTyped, Config.implementation, Config.maxWindows, Config.dumpRecords, ecProfile_wellTyped, hdelay]

/-- Settles O59: the EC profile of State.reset is well-typed whatever its OPEN constants are. -/
theorem resetMeetsTheInvariant : Obligations.ResetMeetsTheInvariant where
  config := implementation_wellTyped
  profile := ecProfile_wellTyped
  counts := rfl
  lengths := ⟨rfl, rfl, rfl, rfl, rfl, rfl⟩
  errors := .inl ⟨rfl, rfl⟩
  dumpCount := ⟨Nat.zero_le _, Nat.zero_le _⟩
  unsupported := fun h => absurd h (by decide)
  lock := rfl
  chip := rfl

end Sys2Proof.Machine

namespace Sys2Proof.Machine

/-! ## Reading a field back from a host word -/

/-- A one-bit field is a field like any other. -/
theorem flagAt_eq_fieldAt (i : Nat) (b : Bool) : flagAt i b = fieldAt i (BitVec.ofBool b) := by cases b <;> rfl

theorem getLsbD_fieldAt {n : Nat} (i j : Nat) (v : BitVec n) :
    (fieldAt i v).getLsbD j = (decide (j < 32) && decide (i ≤ j) && v.getLsbD (j - i)) := by
  by_cases hj : j < 32
  · by_cases hi : i ≤ j <;> simp [fieldAt, hj, hi]
  · simp [fieldAt, hj]

theorem getElem_fieldAt {n : Nat} (i j : Nat) (v : BitVec n) (hj : j < 32) :
    (fieldAt i v)[j] = (decide (i ≤ j) && v.getLsbD (j - i)) := by
  simp [← BitVec.getLsbD_eq_getElem, getLsbD_fieldAt, hj]

theorem getElem_flagAt (i j : Nat) (b : Bool) (hj : j < 32) : (flagAt i b)[j] = (decide (j = i) && b) := by
  have hij : (i ≤ j ∧ j - i = 0) ↔ j = i := by omega
  rw [flagAt_eq_fieldAt, getElem_fieldAt, BitVec.getLsbD_ofBool, ← Bool.and_assoc, ← Bool.decide_and,
    decide_eq_decide.2 hij]

theorem extract_fieldAt_same {n : Nat} (i : Nat) (v : BitVec n) (h : i + n ≤ 32) :
    (fieldAt i v).extractLsb' i n = v := by
  ext j hj
  have hj32 : i + j < 32 := by omega
  simp [getElem_fieldAt, hj32, hj]

theorem extract_fieldAt_disjoint {n : Nat} (i : Nat) (v : BitVec n) (a m : Nat) (h : a + m ≤ i ∨ i + n ≤ a) :
    (fieldAt i v).extractLsb' a m = 0 := by
  ext j hj
  rcases h with h | h
  · have hlow : ¬i ≤ a + j := by omega
    simp [getLsbD_fieldAt, hlow]
  · have hhigh : n ≤ a + j - i := by omega
    simp [getLsbD_fieldAt, BitVec.getLsbD_of_ge v _ hhigh]

theorem extract_flagAt_disjoint (i : Nat) (b : Bool) (a m : Nat) (h : a + m ≤ i ∨ i + 1 ≤ a) :
    (flagAt i b).extractLsb' a m = 0 := by
  rw [flagAt_eq_fieldAt]
  exact extract_fieldAt_disjoint i _ a m h

theorem fieldAt_toNat {n : Nat} (i : Nat) (v : BitVec n) (h : i + n ≤ 32) : (fieldAt i v).toNat = v.toNat * 2 ^ i := by
  have hlt : v.toNat * 2 ^ i < 2 ^ 32 :=
    calc v.toNat * 2 ^ i < 2 ^ n * 2 ^ i := by gcongr; exact v.isLt
      _ = 2 ^ (i + n) := by rw [Nat.add_comm, Nat.pow_add]
      _ ≤ 2 ^ 32 := Nat.pow_le_pow_right (by decide) h
  have hv : v.toNat < 2 ^ 32 := v.isLt.trans_le (Nat.pow_le_pow_right (by decide) (by omega))
  rw [fieldAt, BitVec.toNat_shiftLeft, BitVec.toNat_setWidth, Nat.mod_eq_of_lt hv, Nat.shiftLeft_eq,
    Nat.mod_eq_of_lt hlt]

/-- A field above a word that stays below it: the two numbers are added. -/
theorem fieldAt_or_toNat {n : Nat} (i : Nat) (v : BitVec n) (low : Word) (h : i + n ≤ 32) (hlow : low.toNat < 2 ^ i) :
    (fieldAt i v ||| low).toNat = v.toNat * 2 ^ i + low.toNat := by
  rw [BitVec.toNat_or, fieldAt_toNat i v h, ← Nat.shiftLeft_eq, Nat.shiftLeft_add_eq_or_of_lt hlow]

/-- A field above a byte, in numbers: the form of DUMP_REC_W (30_encoding.md R145) and of OVRD_W (10_state.md R59). -/
theorem fieldAt_byte_toNat {n : Nat} (v : BitVec n) (b : Byte) (h : 8 + n ≤ 32) :
    (fieldAt 8 v ||| fieldAt 0 b).toNat = 256 * v.toNat + b.toNat := by
  have hb : (fieldAt 0 b).toNat = b.toNat := by simpa using fieldAt_toNat 0 b (by decide)
  have hlt : (fieldAt 0 b).toNat < 2 ^ 8 := hb ▸ b.isLt
  rw [fieldAt_or_toNat 8 v _ h hlt, hb]
  omega

theorem DumpRecord.word_toNat (r : DumpRecord) : r.word.toNat = 256 * r.addr.toNat + r.value.toNat :=
  fieldAt_byte_toNat r.addr r.value (by decide)

theorem Override.word_toNat (o : Override) :
    o.word.toNat = (if o.active then 65536 else 0) + 256 * o.savedMode.toNat + o.savedCmd.toNat := by
  have hlow := fieldAt_byte_toNat o.savedMode o.savedCmd (by decide)
  have hlt : (fieldAt 8 o.savedMode ||| fieldAt 0 o.savedCmd).toNat < 2 ^ 16 := by
    have := o.savedMode.isLt
    have := o.savedCmd.isLt
    omega
  rw [Override.word, flagAt_eq_fieldAt, BitVec.or_assoc, fieldAt_or_toNat 16 _ _ (by decide) hlt, hlow]
  cases o.active <;> simp [Nat.add_assoc]

/-! ## The fields of the single registers -/

/-- STATUS (10_state.md R42, R45). -/
theorem State.statusWord_fields (s : State) :
    s.statusWord.getLsbD 0 = decide (s.seq ≠ .idle) ∧ s.statusWord.getLsbD 1 = s.done ∧
    s.statusWord.getLsbD 2 = s.err ∧ s.statusWord.getLsbD 3 = false ∧ s.statusWord.extractLsb' 4 4 = s.errcode ∧
    s.statusWord.getLsbD 8 = s.cmdDropped ∧ s.statusWord.extractLsb' 10 22 = 0 ∧ s.statusWord.getLsbD 9 = s.vokBit := by
  refine ⟨?_, ?_, ?_, ?_, ?_, ?_, ?_, ?_⟩ <;>
    simp [State.statusWord, State.busy_eq, getElem_flagAt, getElem_fieldAt, BitVec.extractLsb'_or, extract_fieldAt_same,
      extract_fieldAt_disjoint, extract_flagAt_disjoint]

/-- STATUS bit 9 outside a reset sequence (10_state.md R50). -/
theorem State.vokBit_eq {s : State} (h : ∀ evs, s.seq ≠ .resetting evs) : s.vokBit = s.vok := by
  unfold State.vokBit
  split
  · exact absurd ‹_› (h _)
  · rfl
  · rfl

/-- CONFIG0 (10_state.md R51). -/
theorem State.config0_fields (s : State) :
    s.config0.extractLsb' 0 8 = s.variant ∧ s.config0.extractLsb' 8 8 = s.revision ∧
    s.config0.extractLsb' 16 16 = s.base := by
  refine ⟨?_, ?_, ?_⟩ <;> simp [State.config0, BitVec.extractLsb'_or, extract_fieldAt_same, extract_fieldAt_disjoint]

/-- CONFIG1 (10_state.md R52). -/
theorem State.config1_fields (s : State) :
    s.config1.extractLsb' 0 8 = BitVec.ofNat 8 s.profile.volts.length ∧
    s.config1.extractLsb' 8 8 = BitVec.ofNat 8 s.profile.temps.length ∧
    s.config1.extractLsb' 16 8 = BitVec.ofNat 8 s.profile.fans.length ∧
    s.config1.extractLsb' 24 8 = BitVec.ofNat 8 s.profile.ctrls.length := by
  refine ⟨?_, ?_, ?_, ?_⟩ <;>
    simp [State.config1, countField, BitVec.extractLsb'_or, extract_fieldAt_same, extract_fieldAt_disjoint]

/-- CONFIG2 (10_state.md R53). -/
theorem State.config2_fields (s : State) :
    s.config2.extractLsb' 0 3 = familyCode s.profile.family ∧ s.config2.extractLsb' 3 2 = strategyCode s.profile ∧
    s.config2.getLsbD 5 = s.profile.hasVendorId ∧
    s.config2.getLsbD 6 = decide (s.revision ∈ s.profile.quirkRevisions) ∧ s.config2.extractLsb' 7 25 = 0 := by
  refine ⟨?_, ?_, ?_, ?_, ?_⟩ <;>
    simp [State.config2, getElem_flagAt, getElem_fieldAt, BitVec.extractLsb'_or, extract_fieldAt_same,
      extract_fieldAt_disjoint, extract_flagAt_disjoint]

/-- DUMP_COUNT (10_state.md R54): 13 bits hold every count up to the buffer's size. -/
theorem State.dumpCountWord_toNat {s : State} (h : s.dumpCount ≤ 4096) : s.dumpCountWord.toNat = s.dumpCount := by
  have hfits : s.dumpCount < 2 ^ 13 := by omega
  rw [State.dumpCountWord, fieldAt_toNat 0 _ (by decide), BitVec.toNat_ofNat, Nat.mod_eq_of_lt hfits, Nat.pow_zero,
    Nat.mul_one]

/-! ## Which offset gives which element (10_state.md R43) -/

/-- The 32 words of each array. -/
theorem State.hostRead_arrays (s : State) {i : Nat} (h : i < 32) :
    s.hostRead (0x100 + 4 * i) = s.voltWord i ∧ s.hostRead (0x180 + 4 * i) = s.tempWord i ∧
    s.hostRead (0x200 + 4 * i) = s.fanWord i ∧ s.hostRead (0x280 + 4 * i) = s.ctrlWord i ∧
    s.hostRead (0x300 + 4 * i) = s.overrideWord i := by
  refine ⟨?_, ?_, ?_, ?_, ?_⟩ <;>
    simp (disch := omega) only [State.hostRead, if_neg, if_pos, Nat.add_sub_cancel_left, Nat.mul_div_cancel_left]

/-- The words of the dump window. -/
theorem State.hostRead_dumpRec (s : State) {k : Nat} (h : k < 4096) :
    s.hostRead (0x4000 + 4 * k) = s.dumpRecWord k := by
  simp (disch := omega) only [State.hostRead, if_neg, if_pos, Nat.add_sub_cancel_left, Nat.mul_div_cancel_left]

/-! ## The words of single elements -/

theorem State.ctrlWord_of_raw {s : State} {i : Nat} {raw : Byte} (h : s.ctrlRaw[i]? = some raw) :
    s.ctrlWord i = match s.ctrl[i]? with | some q => encCtrl q raw | none => 0 := by
  unfold State.ctrlWord
  cases s.ctrl[i]? <;> simp [h]

theorem State.ctrlWord_of_none {s : State} {i : Nat} (h : s.ctrl[i]? = none) : s.ctrlWord i = 0 := by
  simp [State.ctrlWord, h]

theorem State.overrideWord_toNat (s : State) (c : Nat) :
    (s.overrideWord c).toNat = match s.ovr[c]? with
      | some o => (if o.active then 65536 else 0) + 256 * o.savedMode.toNat + o.savedCmd.toNat
      | none => 0 := by
  unfold State.overrideWord
  cases s.ovr[c]? with
  | none => rfl
  | some o => exact o.word_toNat

theorem State.dumpRecWord_toNat (s : State) (k : Nat) :
    (s.dumpRecWord k).toNat = match s.dumpRec[k]? with
      | some rec => if k < s.dumpCount then 256 * rec.addr.toNat + rec.value.toNat else 0
      | none => 0 := by
  unfold State.dumpRecWord
  cases s.dumpRec[k]? with
  | none => split <;> rfl
  | some r =>
    simp only
    split
    · exact r.word_toNat
    · rfl

theorem strategyCode_toNat (p : Profile) : (strategyCode p).toNat = match p.family, p.fanStrategy with
    | .unsupported, _ => 3
    | _, .aCounter13 => 0
    | _, .bPeriod16 => 1
    | _, .cRpm16 => 2 := by
  unfold strategyCode
  cases p.family <;> cases p.fanStrategy <;> rfl

theorem familyCode_toNat (f : Family) : (familyCode f).toNat = match f with
    | .unsupported => 0
    | .bankClassic => 1
    | .bankMultifan => 2
    | .bankLpc => 3
    | .ec => 4 := by
  cases f <;> rfl

/-- Settles O52: each register's word is read back field by field, and each element of an array at its own offset. -/
theorem hostReadsGiveTheRegisterWords : Obligations.HostReadsGiveTheRegisterWords := by
  intro s
  obtain ⟨hbusy, hdone, herr, hzero, hcode, hdropped, hhigh, hvok⟩ := s.statusWord_fields
  obtain ⟨hfamily, hstrategy, hvendor, hquirk, hrest⟩ := s.config2_fields
  refine ⟨rfl, ⟨hbusy, hdone, herr, hzero, hcode, hdropped, hhigh, fun hq => hvok.trans (s.vokBit_eq hq)⟩,
    s.config0_fields, s.config1_fields, ⟨?_, ?_, hvendor, hquirk, hrest⟩, fun h => s.dumpCountWord_toNat h,
    fun i hi => ?_, fun k hk => ?_⟩
  · exact (congrArg BitVec.toNat hfamily).trans (familyCode_toNat _)
  · exact (congrArg BitVec.toNat hstrategy).trans (strategyCode_toNat _)
  · obtain ⟨hvolt, htemp, hfan, hctrl, hovr⟩ := s.hostRead_arrays hi
    exact ⟨hvolt, htemp, hfan, fun raw hraw => hctrl.trans (s.ctrlWord_of_raw hraw),
      fun hnone => hctrl.trans (s.ctrlWord_of_none hnone), (congrArg BitVec.toNat hovr).trans (s.overrideWord_toNat i)⟩
  · exact (congrArg BitVec.toNat (s.hostRead_dumpRec hk)).trans (s.dumpRecWord_toNat k)

end Sys2Proof.Machine


/-! ## Bus access and the host port's access rules (20_memory.md)

The handshake of each family, what the two reference devices do with it, the lock windows of the commands, and the host
accesses that change nothing. -/

namespace Sys2Proof.Machine

variable {α β : Type}

/-! ## The handshake of each family (20_memory.md R93) -/

theorem State.handshake_bank {s : State}
    (h : s.profile.family = .bankClassic ∨ s.profile.family = .bankMultifan ∨ s.profile.family = .bankLpc) :
    s.handshake =
      .bank s.config.bankSelectCmd (s.base + s.config.addrPortOff) (s.base + s.config.dataPortOff) := by
  rcases h with h | h | h <;> simp [State.handshake, State.port, h]

theorem State.handshake_ec {s : State} (h : s.profile.family = .ec) :
    s.handshake = .paged s.config.pageSelectCmd (s.base + s.config.pagePortOff) (s.base + s.config.indexPortOff)
      (s.base + s.config.ecDataPortOff) := by
  simp [State.handshake, State.port, h]

theorem State.handshake_unsupported {s : State} (h : s.profile.family = .unsupported) : s.handshake = .absent := by
  simp [State.handshake, h]

/-- Settles O13: the family fixes the handshake and its ports, and the handshake the events, whatever the chip is. -/
theorem handshakeEvents : Obligations.HandshakeEvents := by
  intro s a v e
  rw [memRead_events, memWrite_events]
  refine ⟨fun h => ?_, fun h => ?_, fun h => ?_, BitVec.toNat_add _ _⟩
  · rw [s.handshake_bank h]
    exact ⟨rfl, rfl⟩
  · rw [s.handshake_ec h]
    exact ⟨rfl, rfl⟩
  · rw [s.handshake_unsupported h]
    exact ⟨rfl, rfl⟩

/-! ## The reference devices (20_memory.md R121, R122) -/

/-- Settles O14: the device is ready for an access at its own ports, and away from the selection command a register
reads as its memory byte. -/
theorem bankModelReadsAndWritesMemory : Obligations.BankModelReadsAndWritesMemory := by
  intro d a v e hports hwf hchip hlow
  have hready : Chip.ReadsAs (.bank d.selectCmd d.ap d.dp) e.chip d.view := by
    rw [hchip]
    exact ⟨rfl, rfl, hports, rfl, rfl⟩
  have hmem : e.chip.memory = d.mem := by rw [hchip]; rfl
  obtain ⟨hvalue, -, hkept, -⟩ := memRead_gives _ _ a e hready
  obtain ⟨-, -, hstored⟩ := memWrite_bank _ _ _ _ a v e hready (by rw [hchip]; exact hwf) hlow
  refine ⟨hvalue.trans (if_neg hlow), hkept.trans hmem, fun b => ?_⟩
  rw [hstored, hmem, Memory.read_write _ _ _ _ hwf]

theorem Env.readPort_paged (d : PagedDevice) (draws : List LockOutcome) (n : Nat) :
    (Env.mk (.paged d) draws n).readPort d.edp = (d.dataByte, ⟨.paged d, draws, n⟩) := if_pos rfl

/-- The device after the three port writes with which a register access begins. -/
def PagedDevice.select (d : PagedDevice) (a : Addr) : PagedDevice :=
  ((d.writePort d.pp d.selectCmd).writePort d.pp (hiByte a)).writePort d.ip (loByte a)

/-- The three writes of an access address the register `a` of a device that is not armed. Where the page port is the
index port too, the third write may arm the device, but no longer changes the page. -/
theorem PagedDevice.select_eq {d : PagedDevice} (a : Addr) (hpage : d.pp ≠ d.edp) (hindex : d.ip ≠ d.edp)
    (harmed : d.armed = false) :
    d.select a =
      { d with page := hiByte a, idx := loByte a, armed := decide (d.ip = d.pp) && loByte a == d.selectCmd } := by
  by_cases hsame : d.ip = d.pp <;>
    simp [PagedDevice.select, PagedDevice.writePort, hpage, hindex, harmed, hsame]

/-- PagedRead gives the data byte of the device that the access has selected. -/
theorem memRead_paged_value (d : PagedDevice) (a : Addr) (draws : List LockOutcome) (n : Nat) :
    ((memRead (.paged d.selectCmd d.pp d.ip d.edp) a).run ⟨.paged d, draws, n⟩).value = (d.select a).dataByte :=
  congrArg Prod.fst (Env.readPort_paged (d.select a) draws n)

theorem memRead_paged_env (d : PagedDevice) (a : Addr) (draws : List LockOutcome) (n : Nat) :
    ((memRead (.paged d.selectCmd d.pp d.ip d.edp) a).run ⟨.paged d, draws, n⟩).env =
      ⟨.paged (d.select a), draws, n⟩ :=
  congrArg Prod.snd (Env.readPort_paged (d.select a) draws n)

/-- PagedWrite writes the data port of the device that the access has selected. -/
theorem memWrite_paged_env (d : PagedDevice) (a : Addr) (v : Byte) (draws : List LockOutcome) (n : Nat) :
    ((memWrite (.paged d.selectCmd d.pp d.ip d.edp) a v).run ⟨.paged d, draws, n⟩).env =
      ⟨.paged ((d.select a).writePort d.edp v), draws, n⟩ := rfl

/-- Settles O15: the selected device answers and stores at the register's address, its memory being as before. -/
theorem pagedModelReadsAndWritesMemory : Obligations.PagedModelReadsAndWritesMemory := by
  intro d a v ⟨chip, draws, n⟩ hpage hindex harmed hwf hchip
  obtain rfl : chip = .paged d := hchip
  rw [memRead_paged_value, memRead_paged_env, memWrite_paged_env, d.select_eq a hpage hindex harmed]
  refine ⟨?_, rfl, fun b => ?_⟩
  · rw [PagedDevice.dataByte, word16_bytes]
  · rw [Chip.memory, PagedDevice.writePort, if_pos rfl, word16_bytes, Memory.read_write _ _ _ _ hwf]

/-! ## The lock windows of the commands (20_memory.md R114) -/

/-- A program that issues at most `n` lock acquisitions, whatever the chip and the lock answer. -/
def Prog.AcquiresAtMost : Nat → Prog α → Prop
  | _, .done _ => True
  | n, .portWrite _ _ k => Prog.AcquiresAtMost n k
  | n, .portRead _ k => ∀ v, Prog.AcquiresAtMost n (k v)
  | n, .acquire _ k => 0 < n ∧ ∀ r, Prog.AcquiresAtMost (n - 1) (k r)
  | n, .release k => Prog.AcquiresAtMost n k
  | n, .delay _ k => Prog.AcquiresAtMost n k

/-- The inside of a window acquires nothing. -/
theorem Prog.Inside.acquiresAtMost {n : Nat} {p : Prog α} {f : α → Prog β} (h : p.Inside)
    (hf : ∀ a, (f a).AcquiresAtMost n) : (p.bind f).AcquiresAtMost n := by
  induction p with
  | done a => exact hf a
  | portWrite _ _ _ ih => exact ih h
  | portRead _ _ ih => exact fun v => ih v (h v)
  | acquire _ _ _ => exact h.elim
  | release _ _ => exact h.elim
  | delay _ _ ih => exact ih h

theorem Prog.AcquiresAtMost.run {n : Nat} {p : Prog α} (h : p.AcquiresAtMost n) (e : Env) :
    ((p.run e).events.filter BusEvent.isAcquire).length ≤ n := by
  induction p generalizing n e with
  | done a => exact Nat.zero_le n
  | portWrite _ _ _ ih => exact ih h _
  | portRead _ _ ih => exact ih _ (h _) _
  | acquire _ _ ih =>
    obtain ⟨hpos, hk⟩ := h
    exact Nat.add_le_of_le_sub hpos (ih _ (hk _) _)
  | release _ ih => exact ih h _
  | delay _ _ ih => exact ih h _

theorem refresh_acquires (s : State) : (refresh s).AcquiresAtMost 0 :=
  (quirkStep_inside s).acquiresAtMost fun _ => (voltagePhase_inside s).acquiresAtMost fun _ =>
    (tempPhase_inside s).acquiresAtMost fun _ => (fanPhase_inside s).acquiresAtMost fun _ =>
      (controlPhase_inside s).acquiresAtMost fun _ => True.intro

theorem updateProg_acquires (s : State) : (updateProg s).AcquiresAtMost 1 := by
  unfold updateProg
  split
  · refine ⟨Nat.one_pos, fun r => ?_⟩
    cases r with
    | ok => exact refresh_acquires s
    | timeout => exact True.intro
  · exact True.intro

theorem withChannel_acquires (s : State) (c : Nat) (window : ControlChannel → Prog Commit)
    (h : ∀ ch, (window ch).AcquiresAtMost 0) : (withChannel s c window).AcquiresAtMost 1 := by
  unfold withChannel
  split
  · split
    · exact True.intro
    · refine ⟨Nat.one_pos, fun r => ?_⟩
      cases r with
      | ok => exact h _
      | timeout => exact True.intro
  · exact True.intro

theorem setctlProg_acquires (c : Nat) (d : Byte) (s : State) : (setctlProg c d s).AcquiresAtMost 1 :=
  withChannel_acquires s c _ fun ch => (snapshotOnce_inside _ ch _).acquiresAtMost fun _ =>
    (setManual_inside s ch c d).acquiresAtMost fun _ => True.intro

theorem clrctlProg_acquires (c : Nat) (s : State) : (clrctlProg c s).AcquiresAtMost 1 :=
  withChannel_acquires s c _ fun ch => by
    unfold clearWindow
    split
    · exact (restoreSaved_inside s ch c _).acquiresAtMost fun _ => True.intro
    · exact True.intro

theorem dumpProg_acquires (s : State) : (dumpProg s).AcquiresAtMost 1 := by
  unfold dumpProg
  split
  · refine ⟨Nat.one_pos, fun r => ?_⟩
    cases r with
    | ok =>
      have hreads := Prog.Inside.forEach (dumpAddresses s.config.literals s.profile) fun a =>
        (memRead_inside s.handshake a).bind (f := fun v => .done (DumpRecord.mk a v)) fun _ => True.intro
      exact hreads.acquiresAtMost fun _ => True.intro
    | timeout => exact True.intro
  · exact True.intro

theorem commandProg_acquires (i : Instr) (s : State) : (commandProg i s).AcquiresAtMost 1 := by
  cases i with
  | update => exact updateProg_acquires s
  | setctl ch duty => exact setctlProg_acquires ch duty s
  | clrctl ch => exact clrctlProg_acquires ch s
  | dump => exact dumpProg_acquires s

/-- An allowed event that releases the lock finds it held, and one that obtains it is an acquisition. -/
theorem release_le_acquire {held held' : Bool} {e : BusEvent} (h : lockNext held e = some held') :
    (if e.isRelease then 1 else 0) + held'.toNat ≤ (if e.isAcquire then 1 else 0) + held.toNat := by
  cases e with
  | acq t r => cases held <;> cases r <;> simp_all [lockNext, BusEvent.isAcquire, BusEvent.isRelease]
  | rel => cases held <;> simp_all [lockNext, BusEvent.isAcquire, BusEvent.isRelease]
  | pw p v => cases held <;> simp_all [lockNext, BusEvent.isAcquire, BusEvent.isRelease]
  | pr p v => cases held <;> simp_all [lockNext, BusEvent.isAcquire, BusEvent.isRelease]
  | dly ms => cases held <;> simp_all [lockNext, BusEvent.isAcquire, BusEvent.isRelease]

/-- Every release of a disciplined trace ends a window: the one open at its start, or one that the trace acquires. -/
theorem releases_le_acquires {held held' : Bool} {evs : List BusEvent} (h : lockRun held evs = some held') :
    (evs.filter BusEvent.isRelease).length + held'.toNat ≤ (evs.filter BusEvent.isAcquire).length + held.toNat := by
  induction evs generalizing held with
  | nil =>
    cases h
    exact Nat.le_refl _
  | cons e es ih =>
    rw [lockRun] at h
    split at h
    · rename_i k hk
      have hfirst := release_le_acquire hk
      have hrest := ih h
      simp only [← List.countP_eq_length_filter, List.countP_cons] at hrest ⊢
      omega
    · cases h

/-- Settles O16: the trace of a command's program is disciplined because the program is balanced, has at most one
acquisition because the program has at most one window, and so at most one release; the commit issues nothing. -/
theorem commandsKeepTheLockDiscipline : Obligations.CommandsKeepTheLockDiscipline := by
  intro i s w hq hheld
  set r := (commandProg i s).run s.env
  have hlock : lockRun false r.events = some false := (commandProg_balanced i s).run s.env
  have hacquires : (r.events.filter BusEvent.isAcquire).length ≤ 1 :=
    (commandProg_acquires i s).run s.env
  have hreleases := releases_le_acquires hlock
  have hfree : (s.issue r.events r.env).lockHeld = false := by
    rw [State.issue_lockHeld, hheld]
    exact lockRun_heldAfterAll hlock
  refine ⟨_, r.events, exec_eq i s, ?_, hlock, ?_, hacquires, by simpa using hreleases.trans hacquires⟩
  · rw [runCommand_start hq]
    exact State.commit_trace _ _ hfree
  · rw [runCommand_start hq]
    exact State.commit_lockHeld _ _ hfree

/-! ## The access rules of the host port (20_memory.md R83 to R86) -/

theorem legalAccess_of_broken {bits off : Nat} (h : bits ≠ 32 ∨ off % 4 ≠ 0 ∨ 0x7FFF < off) :
    legalAccess bits off = false := by
  simp only [legalAccess, Bool.and_eq_false_iff, decide_eq_false_iff_not]
  omega

/-- Settles O47: a read and a write alike are answered with a bus error, and the reply is all that changes. -/
theorem hostBusErrorChangesNothing : Obligations.HostBusErrorChangesNothing := by
  intro s bits off v rest hbroken hin
  have hillegal := legalAccess_of_broken hbroken
  rcases hin with hin | hin <;> simp only [step_of_access hin, State.serve, hillegal] <;> rfl

theorem State.hostWrite_other (s : State) {off : Nat} (h : 4 < off) (v : Word) : s.hostWrite off v = s := by
  rw [State.hostWrite, if_neg (by omega), if_neg (by omega)]

theorem State.hostRead_unmapped (s : State) {off : Nat}
    (h : (0x18 ≤ off ∧ off < 0x100) ∨ (0x380 ≤ off ∧ off < 0x4000)) : s.hostRead off = 0 := by
  rcases h with h | h <;> simp (disch := omega) only [State.hostRead, if_neg]

/-- Settles O48: above STATUS no write is taken, and the two gaps of the map read 0. -/
theorem otherHostWritesAreIgnored : Obligations.OtherHostWritesAreIgnored := by
  refine ⟨fun s off v rest halign hlow hrange hin => ?_, fun s off h => s.hostRead_unmapped h⟩
  rw [step_of_write halign hrange hin, State.hostWrite_other _ hlow]
  rfl

end Sys2Proof.Machine


/-! ## The command word and the result words (30_encoding.md)

The six fields of a command word, what the decoder answers for each opcode, the encoder's fields, ILLEGAL words, the
encodings of the result words, and the ranges of the values that UPDATE publishes. -/

namespace Sys2Proof.Machine

/-! ## A word is its fields (30_encoding.md R130) -/

/-- Two words agree on a field exactly when they agree on its bits. -/
theorem extractLsb'_eq_iff {v w : Word} {i n : Nat} : v.extractLsb' i n = w.extractLsb' i n ↔
    ∀ j, i ≤ j → j < i + n → v.getLsbD j = w.getLsbD j := by
  simp only [BitVec.eq_of_getLsbD_eq_iff, BitVec.getLsbD_extractLsb']
  constructor
  · intro h j hij hj
    have hbit := h (j - i) (by omega)
    rwa [Nat.add_sub_cancel' hij, decide_eq_true (by omega : j - i < n), Bool.true_and, Bool.true_and] at hbit
  · intro h j hj
    rw [h (i + j) (by omega) (by omega)]

/-- A field is its low part and its high part. -/
theorem extractLsb'_add_eq_iff {v w : Word} {i m n : Nat} : v.extractLsb' i (m + n) = w.extractLsb' i (m + n) ↔
    v.extractLsb' i m = w.extractLsb' i m ∧ v.extractLsb' (i + m) n = w.extractLsb' (i + m) n := by
  simp only [extractLsb'_eq_iff]
  constructor
  · exact fun h => ⟨fun j hij hj => h j hij (by omega), fun j hij hj => h j (by omega) (by omega)⟩
  · rintro ⟨hlow, hhigh⟩ j hij hj
    by_cases hm : j < i + m
    · exact hlow j hij hm
    · exact hhigh j (by omega) (by omega)

/-- The fields OP, RSV0, CH, RSV1, DUTY and RSV2 cover the word. -/
theorem word_eq_iff {v w : Word} : v = w ↔
    fieldOp v = fieldOp w ∧ v.extractLsb' 4 4 = w.extractLsb' 4 4 ∧ v.extractLsb' 8 5 = w.extractLsb' 8 5 ∧
    v.extractLsb' 13 3 = w.extractLsb' 13 3 ∧ v.extractLsb' 16 8 = w.extractLsb' 16 8 ∧
    v.extractLsb' 24 8 = w.extractLsb' 24 8 := by
  calc v = w ↔ v.extractLsb' 0 (4 + (4 + (5 + (3 + (8 + 8))))) = w.extractLsb' 0 (4 + (4 + (5 + (3 + (8 + 8))))) := by
        rw [show 4 + (4 + (5 + (3 + (8 + 8)))) = 32 from rfl, BitVec.extractLsb'_eq_self, BitVec.extractLsb'_eq_self]
    _ ↔ _ := by simp only [extractLsb'_add_eq_iff, fieldOp]

/-- A mask that covers a whole field keeps it. -/
theorem and_eq_self_of_ones {n : Nat} {x m : BitVec n} (h : m = .allOnes n) : x &&& m = x := by
  rw [h, BitVec.and_allOnes]

theorem extractLsb'_add_eq_zero_iff {w : Word} {i m n : Nat} : w.extractLsb' i (m + n) = 0 ↔
    w.extractLsb' i m = 0 ∧ w.extractLsb' (i + m) n = 0 := by
  simpa using extractLsb'_add_eq_iff (v := w) (w := 0) (i := i) (m := m) (n := n)

/-- CLRCTL's must-be-zero bits above CH: RSV1, DUTY and RSV2 (30_encoding.md R131). -/
theorem aboveCh_eq_zero_iff {w : Word} : w.extractLsb' 13 19 = 0 ↔
    w.extractLsb' 13 3 = 0 ∧ w.extractLsb' 16 8 = 0 ∧ w.extractLsb' 24 8 = 0 :=
  (extractLsb'_add_eq_zero_iff (m := 3) (n := 16)).trans
    (and_congr_right' (extractLsb'_add_eq_zero_iff (m := 8) (n := 8)))

/-- UPDATE's and DUMP's must-be-zero bits: all above OP (30_encoding.md R131). -/
theorem aboveOp_eq_zero_iff {w : Word} : w.extractLsb' 4 28 = 0 ↔
    w.extractLsb' 4 4 = 0 ∧ w.extractLsb' 8 5 = 0 ∧ w.extractLsb' 13 3 = 0 ∧ w.extractLsb' 16 8 = 0 ∧
    w.extractLsb' 24 8 = 0 :=
  (extractLsb'_add_eq_zero_iff (m := 4) (n := 24)).trans (and_congr_right'
    ((extractLsb'_add_eq_zero_iff (m := 5) (n := 19)).trans (and_congr_right' aboveCh_eq_zero_iff)))

/-! ## The decoder, by opcode (30_encoding.md R131 to R134) -/

/-- A test of the decoder, field by field. -/
theorem rowMatches_iff {r : OpcodeRow} {w : Word} : rowMatches r w = true ↔
    fieldOp w &&& fieldOp r.mask = fieldOp r.value ∧
    w.extractLsb' 4 4 &&& r.mask.extractLsb' 4 4 = r.value.extractLsb' 4 4 ∧
    w.extractLsb' 8 5 &&& r.mask.extractLsb' 8 5 = r.value.extractLsb' 8 5 ∧
    w.extractLsb' 13 3 &&& r.mask.extractLsb' 13 3 = r.value.extractLsb' 13 3 ∧
    w.extractLsb' 16 8 &&& r.mask.extractLsb' 16 8 = r.value.extractLsb' 16 8 ∧
    w.extractLsb' 24 8 &&& r.mask.extractLsb' 24 8 = r.value.extractLsb' 24 8 := by
  simp only [rowMatches, beq_iff_eq, word_eq_iff (v := w &&& r.mask), fieldOp, BitVec.extractLsb'_and]

/-- A test reads the opcode of its row in the word ("the tests differ in bits 3:0", 30_encoding.md R132). -/
theorem fieldOp_of_rowMatches {r : OpcodeRow} {w : Word} (hr : r ∈ opcodeRows) (h : rowMatches r w = true) :
    fieldOp w = fieldOp r.value := by
  have hmask : ∀ r ∈ opcodeRows, fieldOp r.mask = .allOnes 4 := by decide
  rw [← (rowMatches_iff.1 h).1, hmask r hr, BitVec.and_allOnes]

theorem rowMatches_update {w : Word} :
    rowMatches rowUpdate w = true ↔ fieldOp w = 1 ∧ w.extractLsb' 4 28 = 0 := by
  rw [aboveOp_eq_zero_iff]
  simp (disch := decide) [rowMatches_iff, rowUpdate, fieldOp, and_eq_self_of_ones]

theorem rowMatches_setctl {w : Word} : rowMatches rowSetctl w = true ↔
    fieldOp w = 2 ∧ w.extractLsb' 4 4 = 0 ∧ w.extractLsb' 13 3 = 0 ∧ w.extractLsb' 24 8 = 0 := by
  simp (disch := decide) [rowMatches_iff, rowSetctl, fieldOp, and_eq_self_of_ones]

theorem rowMatches_clrctl {w : Word} : rowMatches rowClrctl w = true ↔
    fieldOp w = 3 ∧ w.extractLsb' 4 4 = 0 ∧ w.extractLsb' 13 19 = 0 := by
  rw [aboveCh_eq_zero_iff]
  simp (disch := decide) [rowMatches_iff, rowClrctl, fieldOp, and_eq_self_of_ones]

theorem rowMatches_dump {w : Word} :
    rowMatches rowDump w = true ↔ fieldOp w = 4 ∧ w.extractLsb' 4 28 = 0 := by
  rw [aboveOp_eq_zero_iff]
  simp (disch := decide) [rowMatches_iff, rowDump, fieldOp, and_eq_self_of_ones]

/-- No test passes a reserved opcode (30_encoding.md R133). -/
theorem decode_of_opReserved {w : Word} (hop : fieldOp w = 0 ∨ 5 ≤ (fieldOp w).toNat) :
    decode w = .error .reservedOpcode := by
  have hdefined : ∀ r ∈ opcodeRows, ¬(fieldOp r.value = 0 ∨ 5 ≤ (fieldOp r.value).toNat) := by decide
  have hno : ∀ r ∈ opcodeRows, rowMatches r w = false := fun r hr => Bool.eq_false_iff.2 fun hm =>
    hdefined r hr (fieldOp_of_rowMatches hr hm ▸ hop)
  simp only [opcodeRows, List.forall_mem_cons] at hno
  have hrejection : rejection w = .reservedOpcode := if_pos hop
  simp [decode, hno, hrejection]

theorem decode_of_opUpdate {w : Word} (hop : fieldOp w = 1) :
    decode w = if w.extractLsb' 4 28 = 0 then .ok .update else .error .mustBeZero := by
  simp [decode, rowMatches_update, rowMatches_setctl, rowMatches_clrctl, rowMatches_dump, rejection, hop]

theorem decode_of_opSetctl {w : Word} (hop : fieldOp w = 2) :
    decode w = if w.extractLsb' 4 4 = 0 ∧ w.extractLsb' 13 3 = 0 ∧ w.extractLsb' 24 8 = 0
      then .ok (.setctl (fieldCh w) (fieldDuty w)) else .error .mustBeZero := by
  simp [decode, rowMatches_update, rowMatches_setctl, rowMatches_clrctl, rowMatches_dump, rejection, hop]

theorem decode_of_opClrctl {w : Word} (hop : fieldOp w = 3) :
    decode w = if w.extractLsb' 4 4 = 0 ∧ w.extractLsb' 13 19 = 0
      then .ok (.clrctl (fieldCh w)) else .error .mustBeZero := by
  simp [decode, rowMatches_update, rowMatches_setctl, rowMatches_clrctl, rowMatches_dump, rejection, hop]

theorem decode_of_opDump {w : Word} (hop : fieldOp w = 4) :
    decode w = if w.extractLsb' 4 28 = 0 then .ok .dump else .error .mustBeZero := by
  simp [decode, rowMatches_update, rowMatches_setctl, rowMatches_clrctl, rowMatches_dump, rejection, hop]

/-- Every opcode is reserved or one of the four commands'. -/
theorem fieldOp_cases (w : Word) : (fieldOp w = 0 ∨ 5 ≤ (fieldOp w).toNat) ∨
    fieldOp w = 1 ∨ fieldOp w = 2 ∨ fieldOp w = 3 ∨ fieldOp w = 4 := by
  generalize fieldOp w = op
  revert op
  decide

/-- A defined opcode decodes to its command exactly when its must-be-zero fields are all 0. -/
theorem ite_ok_eq_ok_iff {C : Prop} [Decidable C] {i j : Instr} :
    (if C then .ok i else .error .mustBeZero : Except DecodeReject Instr) = .ok j ↔ C ∧ i = j := by
  split <;> simp [*]

/-- What a defined opcode decodes to is never rejected as reserved. -/
theorem ite_ok_ne_reserved {C : Prop} [Decidable C] {i : Instr} :
    ¬(if C then .ok i else .error .mustBeZero : Except DecodeReject Instr) = .error .reservedOpcode := by
  split <;> simp

/-- A defined opcode is rejected exactly when its must-be-zero fields are not all 0. -/
theorem ite_ok_eq_mustBeZero_iff {C : Prop} [Decidable C] {i : Instr} :
    (if C then .ok i else .error .mustBeZero : Except DecodeReject Instr) = .error .mustBeZero ↔ ¬C := by
  split <;> simp [*]

/-! ## The encoder -/

theorem assembleWord_eq (op : BitVec 4) (ch : Nat) (duty : Byte) :
    assembleWord op ch duty = fieldAt 16 duty ||| fieldAt 8 (BitVec.ofNat 5 ch) ||| fieldAt 0 op := by
  simp [assembleWord, fieldAt]

/-- The fields of an assembled word (30_encoding.md R130). -/
theorem eq_assembleWord_iff {w : Word} {op : BitVec 4} {ch : Nat} {duty : Byte} : w = assembleWord op ch duty ↔
    fieldOp w = op ∧ w.extractLsb' 4 4 = 0 ∧ w.extractLsb' 8 5 = BitVec.ofNat 5 ch ∧
    w.extractLsb' 13 3 = 0 ∧ w.extractLsb' 16 8 = duty ∧ w.extractLsb' 24 8 = 0 := by
  simp [word_eq_iff (v := w), assembleWord_eq, fieldOp, BitVec.extractLsb'_or, extract_fieldAt_same,
    extract_fieldAt_disjoint]

theorem fieldCh_lt (w : Word) : fieldCh w < 32 := (w.extractLsb' 8 5).isLt

theorem ofNat_fieldCh (w : Word) : BitVec.ofNat 5 (fieldCh w) = w.extractLsb' 8 5 := by
  rw [fieldCh, BitVec.ofNat_toNat, BitVec.setWidth_eq]

theorem fieldCh_eq {w : Word} {ch : Nat} (hch : ch < 32) (h : w.extractLsb' 8 5 = BitVec.ofNat 5 ch) :
    fieldCh w = ch := by rw [fieldCh, h, BitVec.toNat_ofNat, Nat.mod_eq_of_lt hch]

/-- Settles O1: the fields of the assembled word pass the command's own test and give its operands back; a channel that
fits 5 bits is not cut. -/
theorem decodeOfEncode : Obligations.DecodeOfEncode := by
  intro i hwf
  cases i with
  | update => decide
  | setctl ch duty =>
    obtain ⟨hop, hrsv0, hch, hrsv1, hduty, hrsv2⟩ := eq_assembleWord_iff.1 (rfl : encode (.setctl ch duty) = _)
    rw [decode_of_opSetctl hop, if_pos ⟨hrsv0, hrsv1, hrsv2⟩, fieldCh_eq (of_decide_eq_true hwf) hch, fieldDuty, hduty]
  | clrctl ch =>
    obtain ⟨hop, hrsv0, hch, hrsv1, hduty, hrsv2⟩ := eq_assembleWord_iff.1 (rfl : encode (.clrctl ch) = _)
    rw [decode_of_opClrctl hop, if_pos ⟨hrsv0, aboveCh_eq_zero_iff.2 ⟨hrsv1, hduty, hrsv2⟩⟩,
      fieldCh_eq (of_decide_eq_true hwf) hch]
  | dump => decide

/-- Settles O2: the opcode, the must-be-zero fields and the operands that the decoder has read are all the fields of the
word, so the assembled word has the same ones. -/
theorem encodeOfDecode : Obligations.EncodeOfDecode := by
  intro w i h
  rcases fieldOp_cases w with hop | hop | hop | hop | hop
  · rw [decode_of_opReserved hop] at h
    cases h
  · obtain ⟨hzero, rfl⟩ := ite_ok_eq_ok_iff.1 (decode_of_opUpdate hop ▸ h)
    obtain ⟨hrsv0, hch, hrsv1, hduty, hrsv2⟩ := aboveOp_eq_zero_iff.1 hzero
    exact ⟨rfl, (eq_assembleWord_iff.2 ⟨hop, hrsv0, hch, hrsv1, hduty, hrsv2⟩).symm⟩
  · obtain ⟨⟨hrsv0, hrsv1, hrsv2⟩, rfl⟩ := ite_ok_eq_ok_iff.1 (decode_of_opSetctl hop ▸ h)
    exact ⟨decide_eq_true (fieldCh_lt w),
      (eq_assembleWord_iff.2 ⟨hop, hrsv0, (ofNat_fieldCh w).symm, hrsv1, rfl, hrsv2⟩).symm⟩
  · obtain ⟨⟨hrsv0, hzero⟩, rfl⟩ := ite_ok_eq_ok_iff.1 (decode_of_opClrctl hop ▸ h)
    obtain ⟨hrsv1, hduty, hrsv2⟩ := aboveCh_eq_zero_iff.1 hzero
    exact ⟨decide_eq_true (fieldCh_lt w),
      (eq_assembleWord_iff.2 ⟨hop, hrsv0, (ofNat_fieldCh w).symm, hrsv1, hduty, hrsv2⟩).symm⟩
  · obtain ⟨hzero, rfl⟩ := ite_ok_eq_ok_iff.1 (decode_of_opDump hop ▸ h)
    obtain ⟨hrsv0, hch, hrsv1, hduty, hrsv2⟩ := aboveOp_eq_zero_iff.1 hzero
    exact ⟨rfl, (eq_assembleWord_iff.2 ⟨hop, hrsv0, hch, hrsv1, hduty, hrsv2⟩).symm⟩

/-- Settles O3: a word has one opcode, and no two rows have the same. -/
theorem decoderTestsExclusive : Obligations.DecoderTestsExclusive := by
  intro w r₁ r₂ h₁ h₂ hm₁ hm₂
  have hop : fieldOp r₁.value = fieldOp r₂.value := by
    rw [← fieldOp_of_rowMatches h₁ hm₁, fieldOp_of_rowMatches h₂ hm₂]
  have hinj : ∀ r₁ ∈ opcodeRows, ∀ r₂ ∈ opcodeRows, fieldOp r₁.value = fieldOp r₂.value → r₁ = r₂ := by decide
  exact hinj r₁ h₁ r₂ h₂ hop

/-! ## ILLEGAL words (30_encoding.md R133, R134) -/

theorem decode_eq_reserved_iff {w : Word} :
    decode w = .error .reservedOpcode ↔ (fieldOp w = 0 ∨ 5 ≤ (fieldOp w).toNat) := by
  refine ⟨fun h => ?_, decode_of_opReserved⟩
  rcases fieldOp_cases w with hop | hop | hop | hop | hop
  · exact hop
  · exact absurd (decode_of_opUpdate hop ▸ h) ite_ok_ne_reserved
  · exact absurd (decode_of_opSetctl hop ▸ h) ite_ok_ne_reserved
  · exact absurd (decode_of_opClrctl hop ▸ h) ite_ok_ne_reserved
  · exact absurd (decode_of_opDump hop ▸ h) ite_ok_ne_reserved

theorem fieldOp_eq_iff {w : Word} {op : BitVec 4} : fieldOp w = op ↔ (w.extractLsb' 0 4).toNat = op.toNat :=
  BitVec.toNat_inj.symm

/-- Settles O4: the opcode decides which rejection is possible, and each defined opcode has its own must-be-zero
fields. -/
theorem illegalWordsAreTheReservedOnes : Obligations.IllegalWordsAreTheReservedOnes := by
  intro w
  refine ⟨by rw [decode_eq_reserved_iff, fieldOp_eq_iff]; rfl, ?_⟩
  rw [← fieldOp]
  rcases fieldOp_cases w with hop | hop | hop | hop | hop
  · rw [decode_of_opReserved hop]
    have hreserved : (fieldOp w).toNat = 0 ∨ 5 ≤ (fieldOp w).toNat := hop.imp_left fieldOp_eq_iff.1
    exact iff_of_false (by simp) (by omega)
  · rw [decode_of_opUpdate hop, ite_ok_eq_mustBeZero_iff]
    simp [hop]
  · rw [decode_of_opSetctl hop, ite_ok_eq_mustBeZero_iff, not_and_or, not_and_or]
    simp [hop]
  · rw [decode_of_opClrctl hop, ite_ok_eq_mustBeZero_iff, not_and_or]
    simp [hop]
  · rw [decode_of_opDump hop, ite_ok_eq_mustBeZero_iff]
    simp [hop]

/-- An error raised without the lock issues no event (00_scope.md R22). -/
theorem State.raiseError_of_not_held {s : State} (h : s.lockHeld = false) (e : ErrorCode) :
    s.raiseError e = { s with done := true, err := true, errcode := e.code, seq := .idle } := by
  have hfree : s.freeLock = s := if_neg (Bool.eq_false_iff.1 h)
  rw [State.raiseError, hfree]

/-- Settles O9: the ILLEGAL program is over before its first event, and with no lock to free its error changes the four
completion fields alone; which words are ILLEGAL is O4. -/
theorem illegalCommandCompletes : Obligations.IllegalCommandCompletes := by
  refine ⟨fun s w r hin hq hheld hd => ?_, fun w hop hz => ?_, fun w hop hz => ?_, fun w hop hz => ?_⟩
  · have hends : (illegalProg.resume s.seq.events).peek s.env = .ends (.error .illegalCommand) := by
      simp [illegalProg, hq, Seq.events, Prog.peek]
    rw [step_of_no_host hin, State.proceed_eq, hq]
    simp only [wordProg_of_illegal hd, runCommand_ends hends, State.commit, State.raiseError_of_not_held hheld]
    rfl
  · refine (illegalWordsAreTheReservedOnes w).2.mpr ?_
    exact hop.elim (fun h => .inl ⟨h, hz⟩) fun h => .inr (.inr (.inr ⟨h, hz⟩))
  · exact (illegalWordsAreTheReservedOnes w).2.mpr (.inr (.inl ⟨hop, hz⟩))
  · exact (illegalWordsAreTheReservedOnes w).2.mpr (.inr (.inr (.inl ⟨hop, hz⟩)))

/-! ## Fixed words and the pseudo-instruction -/

/-- Settles O5: the decoder runs on each of the seven words. -/
theorem specWordsDecode : Obligations.SpecWordsDecode := by
  unfold Obligations.SpecWordsDecode
  decide

/-- `w = (DUTY << 16) | (CH << 8) | OP` in numbers (30_encoding.md R130, R146). -/
theorem assembleWord_toNat (op : BitVec 4) {ch : Nat} (hch : ch < 32) (duty : Byte) :
    (assembleWord op ch duty).toNat = duty.toNat * 2 ^ 16 + (ch * 2 ^ 8 + op.toNat) := by
  have hop : (fieldAt 0 op).toNat = op.toNat := by simpa using fieldAt_toNat 0 op (by decide)
  have hoplt := op.isLt
  have hlow : (fieldAt 8 (BitVec.ofNat 5 ch) ||| fieldAt 0 op).toNat = ch * 2 ^ 8 + op.toNat := by
    rw [fieldAt_or_toNat 8 _ _ (by decide) (by omega), hop, BitVec.toNat_ofNat, Nat.mod_eq_of_lt hch]
  rw [assembleWord_eq, BitVec.or_assoc, fieldAt_or_toNat 16 _ _ (by decide) (by omega), hlow]

/-- Settles O6: both lines assemble to CLRCTL, whose word has no duty. -/
theorem pseudoInstructionIsClrctl : Obligations.PseudoInstructionIsClrctl := by
  refine fun ch => ⟨rfl, ?_⟩
  by_cases hch : ch < 32
  · rw [AsmLine.assemble, if_pos hch, if_pos hch, Option.map_some, encode, Option.some_inj,
      ← BitVec.toNat_inj, assembleWord_toNat _ hch, BitVec.toNat_ofNat]
    show 0 * 2 ^ 16 + (ch * 2 ^ 8 + 3) = (ch * 256 + 3) % 2 ^ 32
    omega
  · rw [AsmLine.assemble, if_neg hch, if_neg hch, Option.map_none]

end Sys2Proof.Machine

namespace Sys2Proof.Machine

/-! ## Result words (30_encoding.md R138 to R143) -/

/-- A field that a number fits, as a number in its place. -/
theorem fieldAt_ofNat {m n : Nat} (i : Nat) (hn : n < 2 ^ m) :
    fieldAt i (BitVec.ofNat m n) = BitVec.ofNat 32 n <<< i := by
  rw [fieldAt, ← BitVec.ofNat_toNat, BitVec.toNat_ofNat, Nat.mod_eq_of_lt hn]

theorem fieldAt_zero_ofNat {m n : Nat} (hn : n < 2 ^ m) : fieldAt 0 (BitVec.ofNat m n) = BitVec.ofNat 32 n := by
  rw [fieldAt_ofNat 0 hn, BitVec.shiftLeft_zero]

theorem floor_eq_natCast {q : ℚ} {n : Nat} (hlow : (n : ℚ) ≤ q) (hhigh : q < (n : ℚ) + 1) : q.floor = n :=
  Int.floor_eq_iff.2 ⟨hlow, hhigh⟩

/-- A number of 16 bits is held as it is (30_encoding.md R140, R143). -/
theorem exactField_natCast {n : Nat} (hn : n < 65536) : exactField (n : ℚ) = BitVec.ofNat 16 n := by
  have hfloor : (n : ℚ).floor = n := floor_eq_natCast le_rfl (lt_add_one _)
  rw [exactField, hfloor, if_pos ⟨by norm_cast, by omega, by omega⟩]
  rfl

theorem halfDegreeField_intCast (k : Int) : halfDegreeField (k : ℚ) = BitVec.ofInt 16 k := by
  rw [halfDegreeField, Rat.floor_intCast, if_pos rfl]

/-- The integer RPM with its bound (30_encoding.md R142). -/
theorem rpmField_eq {q : ℚ} {n : Nat} (hlow : (n : ℚ) ≤ q) (hhigh : q < (n : ℚ) + 1) :
    rpmField q = BitVec.ofNat 31 (min n 0x7FFFFFFF) := by
  have hq : 0 ≤ q := n.cast_nonneg.trans hlow
  have hmin : min (n : Int) 0x7FFFFFFF = (min n 0x7FFFFFFF : Nat) := by omega
  rw [rpmField, if_pos hq, floor_eq_natCast hlow hhigh, hmin]
  rfl

/-- The word of a percentage from its hundredths without the rest (30_encoding.md R143). -/
theorem encCtrl_hundredths {q : ℚ} {n : Nat} (raw : Byte) (hn : n ≤ 10000) (hlow : (n : ℚ) ≤ q * 100)
    (hhigh : q * 100 < (n : ℚ) + 1) :
    encCtrl (some q) raw = 0x80000000#32 ||| (BitVec.ofNat 32 n <<< 8) ||| BitVec.ofNat 32 raw.toNat := by
  have hraw : fieldAt 0 raw = BitVec.ofNat 32 raw.toNat := by
    rw [BitVec.ofNat_toNat, fieldAt, BitVec.shiftLeft_zero]
  rw [encCtrl, floor_eq_natCast hlow hhigh, Int.cast_natCast, exactField_natCast (by omega),
    fieldAt_ofNat 8 (by omega), hraw, validWord, BitVec.or_assoc]

/-- Settles O53: every value in range fits its field, so no word takes the free field; the bank path's percentage is the
quotient raw · 10000 / 255 in hundredths, whose integer part is the division without its rest. -/
theorem resultWordsAreExact : Obligations.ResultWordsAreExact := by
  refine ⟨fun n _ hn => ?_, fun k _ _ => ?_, fun q n hlow hhigh => ?_, fun q n raw hn hlow hhigh => ?_, fun raw => ?_,
    rfl, rfl, rfl, fun _ => rfl⟩
  · rw [encVolt, div_mul_cancel₀ _ (by norm_num), exactField_natCast (by omega), fieldAt_zero_ofNat (by omega), validWord]
  · have hfield : BitVec.ofInt 16 k = BitVec.ofNat 16 (k % 65536).toNat := by
      refine BitVec.eq_of_toNat_eq ?_
      rw [BitVec.toNat_ofInt, BitVec.toNat_ofNat]
      omega
    rw [encTemp, mul_div_cancel₀ _ (by norm_num), halfDegreeField_intCast, hfield,
      fieldAt_zero_ofNat (by omega), validWord]
  · rw [encFan, rpmField_eq hlow hhigh, fieldAt_zero_ofNat (by omega), validWord]
  · exact encCtrl_hundredths raw hn hlow hhigh
  · have hlt := raw.isLt
    have hq : (raw.toNat : ℚ) * 100 / 255 * 100 = ((raw.toNat * 10000 : ℕ) : ℚ) / (255 : ℕ) := by push_cast; ring
    have hdiv := Nat.floor_div_eq_div (K := ℚ) (raw.toNat * 10000) 255
    refine encCtrl_hundredths raw (by omega) ?_ ?_ <;> rw [hq, ← hdiv]
    · exact Nat.floor_le (by positivity)
    · exact Nat.lt_floor_add_one _

end Sys2Proof.Machine

namespace Sys2Proof.Machine

/-! ## The ranges of the values (30_encoding.md R144) -/

/-- Whole millivolts, 1 to 49140 (30_encoding.md R140). -/
def IsVolt (q : ℚ) : Prop := ∃ n : Nat, 1 ≤ n ∧ n ≤ 49140 ∧ q = (n : ℚ) / 1000

/-- Half degrees, -256 to 255 (30_encoding.md R141). -/
def IsTemp (q : ℚ) : Prop := ∃ k : Int, -256 ≤ k ∧ k ≤ 255 ∧ q = (k : ℚ) / 2

/-- A percentage (30_encoding.md R143). -/
def IsPercent (q : ℚ) : Prop := 0 ≤ q ∧ q ≤ 100

/-- Every element of a result array that is not null satisfies `P`. -/
def AllValues (P : ℚ → Prop) (xs : List (Option ℚ)) : Prop := ∀ v ∈ xs, ∀ q ∈ v, P q

/-- The form in which the invariant says it. -/
theorem allValues_iff {P : ℚ → Prop} {xs : List (Option ℚ)} : AllValues P xs ↔ ∀ q, some q ∈ xs → P q :=
  ⟨fun h q hq => h _ hq q rfl, fun h _ hv q hq => h q (hq ▸ hv)⟩

theorem rangesOk_iff {s : State} : RangesOk s ↔
    AllValues IsVolt s.volt ∧ AllValues IsTemp s.temp ∧ AllValues (0 ≤ ·) s.fan ∧ AllValues IsPercent s.ctrl := by
  simp only [allValues_iff]
  exact ⟨fun ⟨hv, ht, hf, hc⟩ => ⟨hv, ht, hf, hc⟩, fun ⟨hv, ht, hf, hc⟩ => ⟨hv, ht, hf, hc⟩⟩

theorem AllValues.replicate_none (P : ℚ → Prop) (n : Nat) : AllValues P (List.replicate n none) := by
  intro v hv q hq
  rw [List.eq_of_mem_replicate hv] at hq
  cases hq

/-- The results of a loop, where only its own elements matter. -/
theorem Prog.All.forEach_mem {α ι : Type} {P : α → Prop} {f : ι → Prog α} {xs : List ι}
    (h : ∀ x ∈ xs, Prog.All P (f x)) : Prog.All (fun as => ∀ a ∈ as, P a) (Prog.forEach f xs) := by
  induction xs with
  | nil => simp [Prog.forEach, Prog.All]
  | cons x xs ih =>
    obtain ⟨hx, hxs⟩ := List.forall_mem_cons.1 h
    exact hx.bind fun a ha => (ih hxs).bind fun as has => List.forall_mem_cons.2 ⟨ha, has⟩

/-! ### Voltages (41_update.md R201 to R205) -/

/-- The null at 0 leaves 1 mV as the least value (41_update.md R201, R203). -/
theorem positive_millivolts {n : Nat} (hn : n ≤ 49140) : ∀ q ∈ positive ((n : ℚ) / 1000), IsVolt q := by
  intro q hq
  obtain ⟨hpos, heq⟩ := Option.ite_none_right_eq_some.1 hq
  cases heq
  exact ⟨n, by_contra fun h => by simp [show n = 0 by omega] at hpos, hn, rfl⟩

theorem bankVolt_isVolt (raw : Byte) : ∀ q ∈ bankVolt {} raw, IsVolt q := by
  have hlt := raw.isLt
  have hmv : (raw.toNat : ℚ) * (8 / 1000) = (raw.toNat * 8 : ℕ) / 1000 := by push_cast; ring
  rw [bankVolt, hmv]
  exact positive_millivolts (by omega)

/-- Both layouts compose 12 bits (41_update.md R202). -/
theorem ecVoltRaw_le (layout : EcVoltLayout) (b0 b1 : Byte) : ecVoltRaw {} layout b0 b1 ≤ 4095 := by
  have h0 := b0.isLt
  have h1 := b1.isLt
  cases layout <;> simp only [ecVoltRaw] <;> omega

theorem vFactor_value_le (f : VFactor) : VFactor.value {} f ≤ 12 := by cases f <;> decide

theorem ecVolt_isVolt (layout : EcVoltLayout) (f : VFactor) (b0 b1 : Byte) :
    ∀ q ∈ ecVolt {} layout f b0 b1, IsVolt q := by
  rw [ecVolt, mul_one_div]
  exact positive_millivolts (Nat.mul_le_mul (ecVoltRaw_le layout b0 b1) (vFactor_value_le f))

theorem channelVolt_isVolt {s : State} (hs : s.config.literals = {}) (ch : VoltChannel) :
    Prog.All (fun v => ∀ q ∈ v, IsVolt q) (channelVolt s ch) := by
  unfold channelVolt
  rw [hs]
  split
  · exact (Prog.All.trivial _).bind fun b _ => ecVolt_isVolt _ _ b.1 b.2
  · exact (Prog.All.trivial _).bind fun raw _ => bankVolt_isVolt raw

/-- The VBAT gate adds no value. -/
theorem vbatGate_all {P : ℚ → Prop} (s : State) (ch : VoltChannel) {v : Option ℚ} (h : ∀ q ∈ v, P q) :
    Prog.All (fun v => ∀ q ∈ v, P q) (vbatGate s ch v) := by
  unfold vbatGate
  split
  · refine (Prog.All.trivial _).bind fun ctl _ => ?_
    cases hctl : vbatEnabled ctl
    · rintro _ ⟨⟩
    · exact h
  · exact h

theorem voltagePhase_isVolt {s : State} (hs : s.config.literals = {}) :
    Prog.All (AllValues IsVolt) (voltagePhase s) :=
  Prog.All.forEach_mem fun ch _ => (channelVolt_isVolt hs ch).bind fun _ hv => vbatGate_all s ch hv

/-! ### Temperatures (41_update.md R206 to R212) -/

theorem halfDegrees_isTemp (p h : Byte) (i : Nat) : IsTemp (halfDegrees p h i) := by
  have hlow := p.le_toInt
  have hhigh := p.toInt_lt
  have hbit : bitNat (bitAt h i) ≤ 1 := by cases bitAt h i <;> decide
  exact ⟨2 * sext8 p + bitNat (bitAt h i), by unfold sext8; omega, by unfold sext8; omega, rfl⟩

theorem wholeDegrees_isTemp (p : Byte) : IsTemp (wholeDegrees p) := by
  have hlow := p.le_toInt
  have hhigh := p.toInt_lt
  refine ⟨2 * sext8 p, by unfold sext8; omega, by unfold sext8; omega, ?_⟩
  rw [wholeDegrees]
  push_cast
  ring

/-- The gate adds no value. -/
theorem gate_all {P : ℚ → Prop} {q : ℚ} (lits : Literals) (h : P q) : ∀ r ∈ gate lits q, P r := by
  intro r hr
  obtain ⟨-, heq⟩ := Option.ite_none_left_eq_some.1 hr
  cases heq
  exact h

theorem slotValue_isTemp (s : State) (slot : TempSlot) : Prog.All IsTemp (slotValue s slot) := by
  refine (Prog.All.trivial _).bind fun p _ => ?_
  split
  · exact (Prog.All.trivial _).bind fun h _ => halfDegrees_isTemp p h _
  · exact wholeDegrees_isTemp p

/-- Scatter puts nothing into W_TEMP but the slot's value. -/
theorem scatter_all {P : ℚ → Prop} {ids : List Byte} {src : Byte} {t : Option ℚ} {w : TempWork} (ht : ∀ q ∈ t, P q)
    (hw : AllValues P w.temp) : AllValues P (w.scatter ids src t).temp := by
  intro v hv
  rw [TempWork.scatter, ← List.map_uncurry_zip_eq_zipWith] at hv
  obtain ⟨⟨id, old⟩, hmem, rfl⟩ := List.mem_map.1 hv
  by_cases hid : id = src <;> simp only [Function.uncurry, hid, if_true, if_false]
  · exact ht
  · exact hw old (List.of_mem_zip hmem).2

theorem primarySlots_isTemp (s : State) (slots : List TempSlot) {w : TempWork} (hw : AllValues IsTemp w.temp) :
    Prog.All (fun w' => AllValues IsTemp w'.temp) (primarySlots s slots w) := by
  induction slots generalizing w with
  | nil => exact hw
  | cons slot rest ih =>
    exact (slotValue_isTemp s slot).bind fun q hq => (Prog.All.trivial _).bind fun src _ =>
      ih (scatter_all (gate_all _ hq) hw)

theorem fallbackSensor_isTemp (s : State) (alt : Option Addr) (masked : Bool) {t : Option ℚ} (ht : ∀ q ∈ t, IsTemp q) :
    Prog.All (fun v => ∀ q ∈ v, IsTemp q) (fallbackSensor s alt masked t) := by
  unfold fallbackSensor
  split
  · exact (Prog.All.trivial _).bind fun v _ => gate_all _ (wholeDegrees_isTemp v)
  · exact ht
  · exact ht

theorem fallback_isTemp (s : State) {w : TempWork} (hw : AllValues IsTemp w.temp) :
    Prog.All (AllValues IsTemp) (fallback s w) :=
  Prog.All.forEach_mem fun _ hx => fallbackSensor_isTemp s _ _
    (hw _ (List.of_mem_zip (List.of_mem_zip hx).2).2)

theorem ecSensor_isTemp (s : State) (slot : TempSlot) : Prog.All (fun v => ∀ q ∈ v, IsTemp q) (ecSensor s slot) := by
  refine (Prog.All.trivial _).bind fun b _ => ?_
  have hb := halfDegrees_isTemp b.1 b.2 7
  unfold ecTemp
  split
  · exact gate_all _ hb
  · rintro _ ⟨⟩
    exact hb

theorem tempPhase_isTemp (s : State) : Prog.All (AllValues IsTemp) (tempPhase s) := by
  unfold tempPhase
  split
  · exact Prog.All.forEach_mem fun slot _ => ecSensor_isTemp s slot
  · exact (primarySlots_isTemp s _ (AllValues.replicate_none _ _)).bind fun w hw => fallback_isTemp s hw

/-! ### Fans and controls (41_update.md R214 to R220) -/

theorem fanValue_nonneg (s : State) (b0 b1 : Byte) : ∀ q ∈ fanValue s b0 b1, 0 ≤ q := by
  unfold fanValue
  split
  · intro q hq
    obtain ⟨-, heq⟩ := Option.ite_none_left_eq_some.1 hq
    cases heq
    positivity
  · unfold fanB
    split <;> rintro _ ⟨⟩
    · exact NNRat.coe_nonneg _
    · exact le_rfl
  · rintro _ ⟨⟩
    exact Nat.cast_nonneg _

theorem fanPhase_nonneg (s : State) : Prog.All (AllValues (0 ≤ ·)) (fanPhase s) :=
  Prog.All.forEach_mem fun _ _ => (Prog.All.trivial _).bind fun b _ => fanValue_nonneg s b.1 b.2

/-- Rounding does not cross an integer below, on a tie either way. -/
theorem le_roundNearest {a : Int} {q : ℚ} (h : (a : ℚ) ≤ q) : a ≤ roundNearest q := by
  unfold roundNearest
  split
  · rename_i htie
    have hlt : (a : ℚ) < ((q + 1 / 2).floor : ℚ) := by rw [htie.1]; linarith
    have hint : a < (q + 1 / 2).floor := by exact_mod_cast hlt
    omega
  · exact Rat.le_floor_iff.2 (by linarith)

/-- Rounding does not cross an integer above. -/
theorem roundNearest_le {b : Int} {q : ℚ} (h : q ≤ (b : ℚ)) : roundNearest q ≤ b := by
  have hfloor : (q + 1 / 2).floor < b + 1 := Rat.floor_lt_iff.2 (by push_cast; linarith)
  unfold roundNearest
  split <;> omega

theorem bankCtrl_isPercent (raw : Byte) : IsPercent (bankCtrl {} raw) := by
  have hraw : (raw.toNat : ℚ) ≤ 255 := by exact_mod_cast Nat.le_of_lt_succ raw.isLt
  refine ⟨by unfold bankCtrl; positivity, ?_⟩
  rw [bankCtrl, div_le_iff₀ (by norm_num)]
  linarith

theorem roundNearest_isPercent {q : ℚ} (h : IsPercent q) : IsPercent (roundNearest q : ℚ) := by
  obtain ⟨hlow, hhigh⟩ := h
  have hlow' : 0 ≤ roundNearest q := le_roundNearest (by exact_mod_cast hlow)
  have hhigh' : roundNearest q ≤ 100 := roundNearest_le (by exact_mod_cast hhigh)
  exact ⟨by exact_mod_cast hlow', by exact_mod_cast hhigh'⟩

theorem ctrlValue_isPercent {s : State} (hs : s.config.literals = {}) (raw : Byte) : IsPercent (ctrlValue s raw) := by
  unfold ctrlValue
  rw [hs]
  split
  · exact roundNearest_isPercent (bankCtrl_isPercent raw)
  · exact bankCtrl_isPercent raw

/-! ### Every step -/

/-- A commit that publishes no value outside its range. -/
def Commit.InRange : Commit → Prop
  | .sensors v t f k _ => AllValues IsVolt v ∧ AllValues IsTemp t ∧ AllValues (0 ≤ ·) f ∧ AllValues IsPercent k
  | .silent => True
  | .override _ _ => True
  | .dump _ => True
  | .error _ => True

theorem updateProg_inRange {s : State} (hs : s.config.literals = {}) : Prog.All Commit.InRange (updateProg s) := by
  unfold updateProg
  split
  · intro r
    cases r with
    | timeout => exact True.intro
    | ok =>
      refine (Prog.All.trivial _).bind fun _ _ => (voltagePhase_isVolt hs).bind fun v hv =>
        (tempPhase_isTemp s).bind fun t ht => (fanPhase_nonneg s).bind fun f hf =>
        (Prog.All.trivial _).bind fun raw _ => ⟨hv, ht, hf, ?_⟩
      intro v hv q hq
      obtain ⟨b, -, rfl⟩ := List.mem_map.1 hv
      cases hq
      exact ctrlValue_isPercent hs b
  · exact True.intro

theorem Commit.IsControl.inRange {c : Commit} {ch : Nat} (h : c.IsControl ch) : c.InRange := by
  cases c with
  | sensors _ _ _ _ _ => exact h.elim
  | _ => exact True.intro

theorem Commit.IsDump.inRange {c : Commit} (h : c.IsDump) : c.InRange := by
  cases c with
  | sensors _ _ _ _ _ => exact h.elim
  | _ => exact True.intro

theorem wordProg_inRange {s : State} (hs : s.config.literals = {}) (w : Word) :
    Prog.All Commit.InRange (wordProg w s) := by
  unfold wordProg
  split
  · rename_i i _
    cases i with
    | update => exact updateProg_inRange hs
    | setctl ch d => exact (setctlProg_control ch d s).mono fun _ h => h.inRange
    | clrctl ch => exact (clrctlProg_control ch s).mono fun _ h => h.inRange
    | dump => exact (dumpProg_dump s).mono fun _ h => h.inRange
  · exact True.intro

theorem RangesOk.commit {s : State} (h : RangesOk s) {c : Commit} (hc : c.InRange) : RangesOk (s.commit c) := by
  cases c with
  | sensors v t f k raw => exact rangesOk_iff.2 hc
  | silent => exact ⟨h.volt, h.temp, h.fan, h.ctrl⟩
  | override ch o => exact ⟨h.volt, h.temp, h.fan, h.ctrl⟩
  | dump recs => exact ⟨h.volt, h.temp, h.fan, h.ctrl⟩
  | error e => simpa [rangesOk_iff, State.commit] using h

theorem State.SamePublished.rangesOk {s u : State} (hp : s.SamePublished u) (h : RangesOk s) : RangesOk u := by
  rw [rangesOk_iff] at h ⊢
  rwa [hp.volt, hp.temp, hp.fan, hp.ctrl]

/-- Reset leaves every element null (70_reset_and_hazards.md R361). -/
theorem State.initialise_rangesOk (p : Profile) (v r : Byte) (b : Addr) (s : State) : RangesOk (s.initialise p v r b) :=
  rangesOk_iff.2 ⟨.replicate_none _ _, .replicate_none _ _, .replicate_none _ _, .replicate_none _ _⟩

theorem State.assertReset_rangesOk {s t : State} {v r : Byte} {b : Addr} (h : s.assertReset v r b = .next t) :
    RangesOk t := by
  unfold State.assertReset at h
  split at h
  · cases h
    exact State.initialise_rangesOk _ v r b _
  · cases h

theorem step_of_reset {s : State} {v r : Byte} {b : Addr} {rest : List HostEvent}
    (hin : s.hostIn = .reset v r b :: rest) : step s = State.assertReset v r b { s with hostIn := rest } := by
  simp [step, State.move, hin]

/-- Settles O60: a reset leaves only nulls, and of the commits only UPDATE's publishes values, each decoded from chip bytes
whose range bounds it. -/
theorem everyStepKeepsTheRanges : Obligations.EveryStepKeepsTheRanges := by
  intro s t hs hr h
  rcases step_publishes h with ⟨⟨v, r, b, rest, hin⟩, -⟩ | ⟨hp, -⟩ | ⟨w, evs, c, u, -, hc, rfl, hp, -⟩
  · exact State.assertReset_rangesOk (step_of_reset hin ▸ h)
  · exact hp.rangesOk hr
  · exact (hp.rangesOk hr).commit (hc _ (wordProg_inRange hs w))

end Sys2Proof.Machine


/-! ## Internal operations (40_internal_ops.md)

ProfileResolve where it gives the empty profile, and QuirkStep against an oracle of the chip's answers. -/

namespace Sys2Proof.Machine

/-! ## An UNSUPPORTED variant and its reset (40_internal_ops.md R170, R171) -/

/-- ProfileResolve with no supported entry for the tag. -/
theorem resolveProfile_of_unsupported {c : Config} {v : Byte}
    (h : ∀ e ∈ c.variants, e.code = v → e.profile.family = .unsupported) : resolveProfile c v = some emptyProfile := by
  unfold resolveProfile
  split
  · rfl
  · rename_i e hfound
    have hcode : e.code = v := by simpa using List.find?_some hfound
    rw [if_pos (h e (List.mem_of_find?_eq_some hfound) hcode)]

/-- The reset sequence of an UNSUPPORTED block runs out before its first event (70_reset_and_hazards.md R363). -/
theorem runReset_of_unsupported {s : State} (hfamily : s.profile.family = .unsupported) (hq : s.seq = .resetting []) :
    runReset s = s.endReset false :=
  runReset_ends (by simp [hq, Seq.events, resetProg_sound s hfamily, Prog.peek])

/-- With nothing pending a block at the start of its reset sequence runs it. -/
theorem step_of_resetting {s : State} {evs : List BusEvent} (hin : s.hostIn = []) (hq : s.seq = .resetting evs) :
    step s = .next (runReset s) := by simp [step_of_no_host hin, State.proceed, hq]

theorem steps_two {s t : State} (h : step s = .next t) : steps 2 s = step t := by
  simp only [steps, h]
  cases step t <;> rfl

/-- Settles O45: the reset action loads the empty profile, whose tables size every array, and the sequence that follows
is over at once; the only event is the release of a lock that was held. -/
theorem unknownVariantIsHarmless : Obligations.UnknownVariantIsHarmless := by
  intro s v r b hin hvariant
  have hload : step s = .next (State.initialise emptyProfile v r b (State.freeLock { s with hostIn := [] })) := by
    rw [step_of_reset hin, State.assertReset, resolveProfile_of_unsupported hvariant]
  have hrun := step_of_resetting (s := State.initialise emptyProfile v r b (State.freeLock { s with hostIn := [] }))
    (by simp) rfl
  rw [runReset_of_unsupported rfl rfl] at hrun
  exact ⟨_, (steps_two hload).trans hrun, rfl, rfl, rfl, rfl, rfl, rfl, rfl, rfl, rfl, rfl, by simp⟩

/-! ## The quirk step's own run (40_internal_ops.md R173 to R179) -/

/-- QuirkStep probes, and unlocks where the probe fails (R177). -/
theorem quirkStep_of_probes {s : State} (h : Probes s) :
    quirkStep s = (readVendorId s.handshake s.profile).bind fun ok =>
      if ok then .done () else unlock s.profile.unlockSeq := by
  obtain ⟨hquirk, hvendor⟩ := h
  simp [quirkStep, vendorProbe, State.hasQuirk, hquirk, hvendor]

/-- The identity comes from the next two answers, the high byte first (R175). -/
theorem readVendorId_oracle {h : Handshake} (hports : h ≠ .absent) (p : Profile) (e : Env) {hi lo : Byte}
    {more : List Byte} (hchip : e.chip = .oracle (hi :: lo :: more)) :
    (readVendorId h p).run e = ⟨hi ++ lo == p.vendorId, readEvents h p.vendorHiReg hi ++ readEvents h p.vendorLoReg lo,
      { e with chip := .oracle more }⟩ := by
  rw [readVendorId, Prog.run_bind, memRead_oracle hports _ e hchip, Prog.run_bind, memRead_oracle hports _ _ rfl]
  simp [Prog.run, word16]

/-- UNLOCK_SEQ is issued element by element, and takes one answer for each of its reads (R178). -/
theorem unlock_oracle (us : List UnlockEvent) {bytes more : List Byte}
    (hlen : bytes.length = (us.filter UnlockEvent.isRead).length) (e : Env) (hchip : e.chip = .oracle (bytes ++ more)) :
    ∃ unlocked, List.Forall₂ UnlockEvent.Issues us unlocked ∧
      (unlock us).run e = ⟨(), unlocked, { e with chip := .oracle more }⟩ := by
  obtain ⟨chip, draws, drawn⟩ := e
  obtain rfl : chip = .oracle (bytes ++ more) := hchip
  induction us generalizing bytes with
  | nil =>
    obtain rfl : bytes = [] := List.eq_nil_of_length_eq_zero hlen
    exact ⟨[], .nil, rfl⟩
  | cons u us ih =>
    cases u with
    | write p v =>
      obtain ⟨unlocked, hissues, hrun⟩ := ih hlen
      exact ⟨.pw p v :: unlocked, .cons rfl hissues, congrArg (Ran.cons (.pw p v)) hrun⟩
    | read p =>
      obtain ⟨v, bytes, rfl⟩ := List.exists_cons_of_length_eq_add_one hlen
      obtain ⟨unlocked, hissues, hrun⟩ := ih (Nat.succ.inj hlen)
      exact ⟨.pr p v :: unlocked, .cons ⟨v, rfl⟩ hissues, congrArg (Ran.cons (.pr p v)) hrun⟩

/-- The quirk step on listed answers: the probe's two reads, then UNLOCK_SEQ exactly where they do not match, and no
second probe (R177, R179). -/
theorem quirkStep_oracle {s : State} (hprobes : Probes s) (hports : s.handshake ≠ .absent) {hi lo : Byte}
    {bytes more : List Byte}
    (hlen : bytes.length = (if hi ++ lo = s.profile.vendorId then 0
      else (s.profile.unlockSeq.filter UnlockEvent.isRead).length))
    (e : Env) (hchip : e.chip = .oracle (hi :: lo :: (bytes ++ more))) :
    ∃ unlocked, (if hi ++ lo = s.profile.vendorId then unlocked = []
        else List.Forall₂ UnlockEvent.Issues s.profile.unlockSeq unlocked) ∧
      (quirkStep s).run e = ⟨(), readEvents s.handshake s.profile.vendorHiReg hi ++
        readEvents s.handshake s.profile.vendorLoReg lo ++ unlocked, { e with chip := .oracle more }⟩ := by
  rw [quirkStep_of_probes hprobes, Prog.run_bind, readVendorId_oracle hports _ e hchip]
  by_cases hmatch : hi ++ lo = s.profile.vendorId
  · rw [if_pos hmatch] at hlen
    obtain rfl : bytes = [] := List.eq_nil_of_length_eq_zero hlen
    exact ⟨[], if_pos hmatch ▸ rfl, by simp [hmatch, Prog.run]⟩
  · rw [if_neg hmatch] at hlen
    obtain ⟨unlocked, hissues, hrun⟩ := unlock_oracle _ hlen { e with chip := .oracle (bytes ++ more) } rfl
    exact ⟨unlocked, by rwa [if_neg hmatch], by simp [hmatch, hrun]⟩

/-! ## UPDATE after its quirk step -/

/-- The block as UPDATE's quirk step leaves it, as far as UPDATE can see: a block whose profile has no quirk, before the
answers that are left. -/
def State.withoutQuirk (more : List Byte) (s : State) : State :=
  { s with profile := { s.profile with quirkRevisions := [] }, env := { s.env with chip := .oracle more } }

theorem quirkStep_withoutQuirk (more : List Byte) (s : State) : quirkStep (s.withoutQuirk more) = .done () := rfl

/-- The temperature phase does not look at the quirk. -/
theorem tempPhase_withoutQuirk (more : List Byte) (s : State) : tempPhase (s.withoutQuirk more) = tempPhase s := by
  have hslots (slots : List TempSlot) (w : TempWork) :
      primarySlots (s.withoutQuirk more) slots w = primarySlots s slots w := by
    induction slots generalizing w with
    | nil => rfl
    | cons slot rest ih => simp only [primarySlots, ih]; rfl
  have hbank : bankTempPhase (s.withoutQuirk more) = bankTempPhase s := by
    unfold bankTempPhase
    rw [hslots]
    rfl
  unfold tempPhase
  rw [hbank]
  rfl

/-- UPDATE's lock window is its quirk step and then the window of the block without the quirk. -/
theorem refresh_eq_quirkStep_bind (more : List Byte) (s : State) :
    refresh s = (quirkStep s).bind fun _ => refresh (s.withoutQuirk more) := by
  unfold refresh
  rw [quirkStep_withoutQuirk, tempPhase_withoutQuirk]
  rfl

/-- UPDATE of an identified block that obtains the lock. -/
theorem exec_update_of_lock {s : State} {w : Word} {rest : List LockOutcome} (hvok : s.vok = true)
    (hq : s.seq = .exec w []) (hdraw : s.env.lockDraws = .ok :: rest) {r : Ran Commit}
    (hrun : (refresh s).run { s.env with lockDraws := rest } = r) :
    exec .update s = .next ((s.issue (.acq s.config.tUpdate .ok :: r.events) r.env).commit r.value) := by
  have hprog : (updateProg s).run s.env = r.cons (.acq s.config.tUpdate .ok) := by
    simp [updateProg, hvok, Prog.run, Env.drawLock, hdraw, hrun]
  rw [exec_eq, runCommand_start hq, commandProg, hprog]
  rfl

/-- UPDATE's lock window ends with the release. -/
theorem refresh_heldAfterAll (s : State) (e : Env) (held : Bool) (n : Nat) :
    heldAfterAll held (.acq n .ok :: ((refresh s).run e).events) = false := by
  rw [heldAfterAll, List.foldl_cons]
  exact lockRun_heldAfterAll ((refresh_balanced s).run e)

/-- A commit without the lock does not look at the profile, the trace and where the command stood. -/
theorem State.commit_of_not_held {s : State} (h : s.lockHeld = false) (c : Commit) (p : Profile) (tr : List BusEvent)
    (q : Seq) : State.commit c { s with profile := p, trace := tr, seq := q } =
      { s.commit c with profile := p, trace := tr } := by
  cases c with
  | error e => simp [State.commit, State.raiseError, State.freeLock, h]
  | _ => rfl

/-- Settles O24: the quirk step's run is known, and what follows it in UPDATE's lock window is the same program on the
same answers with and without the quirk; both windows end with the release, so that the two commits agree. -/
theorem quirkStepUnlocks : Obligations.QuirkStepUnlocks := by
  intro s w rest hi lo bytes more hvok hq hprobes hports hdraw hchip hlen
  obtain ⟨unlocked, hunlocked, hquirk⟩ := quirkStep_oracle hprobes hports hlen { s.env with lockDraws := rest } hchip
  set r := (refresh (s.withoutQuirk more)).run { s.env with chip := .oracle more, lockDraws := rest }
  set u := (s.withoutQuirk more).issue (.acq s.config.tUpdate .ok :: r.events) r.env
  set evs := readEvents s.handshake s.profile.vendorHiReg hi ++ readEvents s.handshake s.profile.vendorLoReg lo ++
    unlocked ++ r.events with hevs
  have hwindow : (refresh s).run { s.env with lockDraws := rest } = ⟨r.value, evs, r.env⟩ := by
    rw [refresh_eq_quirkStep_bind more s, Prog.run_bind, hquirk]
  have hheld : heldAfterAll s.lockHeld (.acq s.config.tUpdate .ok :: evs) = false := by
    simpa only [hwindow] using refresh_heldAfterAll s { s.env with lockDraws := rest } s.lockHeld s.config.tUpdate
  have hfree : u.lockHeld = false := refresh_heldAfterAll _ _ s.lockHeld s.config.tUpdate
  have hissued : s.issue (.acq s.config.tUpdate .ok :: evs) r.env =
      { u with
        profile := s.profile
        trace := s.trace ++ .acq s.config.tUpdate .ok :: evs
        seq := s.seq.advance (.acq s.config.tUpdate .ok :: evs) } := by
    rw [State.issue, hheld, ← hfree]
    rfl
  refine ⟨_, u.commit r.value, unlocked, r.events, exec_update_of_lock hvok hq hdraw hwindow,
    exec_update_of_lock (s := s.withoutQuirk more) hvok hq hdraw rfl, hunlocked, State.commit_trace _ u hfree,
    State.commit_vok _ u, ?_⟩
  rw [hissued, State.commit_of_not_held hfree, hevs]
  simp

end Sys2Proof.Machine


/-! ## UPDATE (41_update.md)

What UPDATE leaves alone, its run against a reference device, and its results in the spec's numbers. -/

namespace Sys2Proof.Machine

/-! ### What UPDATE leaves alone -/

/-- UPDATE of an identified block whose lock times out: one event and a silent commit (41_update.md R222). -/
theorem exec_update_of_timeout {s : State} {w : Word} {rest : List LockOutcome} (hvok : s.vok = true)
    (hq : s.seq = .exec w []) (hdraw : s.env.lockDraws = .timeout :: rest) :
    exec .update s =
      .next ((s.issue [.acq s.config.tUpdate .timeout] { s.env with lockDraws := rest }).commit .silent) := by
  have hrun : (updateProg s).run s.env =
      ⟨.silent, [.acq s.config.tUpdate .timeout], { s.env with lockDraws := rest }⟩ := by
    simp [updateProg, hvok, Prog.run, Env.drawLock, hdraw, Ran.cons]
  rw [exec_eq, runCommand_start hq, commandProg, hrun]

/-- Settles O20: a timed-out acquisition leaves LOCK_HELD as it was, and the silent commit publishes nothing. -/
theorem updateTimeoutChangesNothing : Obligations.UpdateTimeoutChangesNothing :=
  fun _ _ _ hvok hq hdraw => exec_update_of_timeout hvok hq hdraw

/-- Settles O23: events touch no result, and UPDATE's commit publishes nothing but SensorState and CTRL_RAW. -/
theorem updateFrame : Obligations.UpdateFrame := by
  intro s t h
  rw [exec_eq] at h
  cases h
  have hcommit := ((updateProg_sensors s).resume s.seq.events).run s.env
  simp [commandProg, runCommand, hcommit.keeps]

/-! ### The EC control value (R219, R229) -/

/-- `round_nearest` gives a nearest integer, whichever it takes on a tie. -/
theorem abs_roundNearest_sub_le (q : ℚ) : |(roundNearest q : ℚ) - q| ≤ 1 / 2 := by
  have hlow : ((q + 1 / 2).floor : ℚ) ≤ q + 1 / 2 := Int.floor_le _
  have hhigh : q + 1 / 2 < ((q + 1 / 2).floor : ℚ) + 1 := Int.lt_floor_add_one _
  rw [abs_le]
  unfold roundNearest
  split
  · push_cast
    constructor <;> linarith
  · constructor <;> linarith

theorem bankCtrl_eq (raw : Byte) : bankCtrl {} raw = (raw.toNat : ℚ) * 100 / 255 := by
  rw [bankCtrl, div_div_eq_mul_div]

/-- An integer within 1/2 of a multiple of 100/255 = 20/51 is within 25/51 of it: 51 is odd, so there is no tie. -/
theorem abs_sub_le_of_abs_sub_le_half {n : Int} {k : Nat} (h : |(n : ℚ) - (k : ℚ) * 100 / 255| ≤ 1 / 2) :
    |(n : ℚ) - (k : ℚ) * 100 / 255| ≤ 1 / 2 - 1 / 102 := by
  have hscale : (n : ℚ) - (k : ℚ) * 100 / 255 = ((51 * n - 20 * k : ℤ) : ℚ) / (51 : ℕ) := by push_cast; ring
  rw [hscale, abs_div, Nat.abs_cast, ← Int.cast_abs] at h ⊢
  have hlt : ((|51 * n - 20 * k| : ℤ) : ℚ) < 26 := by linarith
  have hle : |51 * n - 20 * k| ≤ 25 := Int.le_of_lt_add_one (by exact_mod_cast hlt)
  have hle' : ((|51 * n - 20 * k| : ℤ) : ℚ) ≤ 25 := by exact_mod_cast hle
  linarith

/-- Settles O25: rounding stays within 1/2 and in 0 to 100, and a multiple of 20/51 is no tie. -/
theorem ecControlIsTheNearestPercentage : Obligations.EcControlIsTheNearestPercentage := by
  intro raw
  obtain ⟨hlow, hhigh⟩ := bankCtrl_isPercent raw
  have hnear := abs_roundNearest_sub_le (bankCtrl {} raw)
  rw [bankCtrl_eq] at hnear
  refine ⟨roundNearest (bankCtrl {} raw), rfl, le_roundNearest (by exact_mod_cast hlow),
    roundNearest_le (by exact_mod_cast hhigh), ?_⟩
  rw [bankCtrl_eq]
  exact abs_sub_le_of_abs_sub_le_half hnear


/-! ### The run of UPDATE against a reference device (R221) -/

theorem Prog.bind_assoc {α β γ : Type} (p : Prog α) (f : α → Prog β) (g : β → Prog γ) :
    (p.bind f).bind g = p.bind fun a => (f a).bind g := by
  induction p with
  | done a => rfl
  | portWrite _ _ _ ih => simp [Prog.bind, ih]
  | portRead _ _ ih => simp [Prog.bind, ih]
  | acquire _ _ ih => simp [Prog.bind, ih]
  | release _ ih => simp [Prog.bind, ih]
  | delay _ _ ih => simp [Prog.bind, ih]

/-- Steps 3 to 7 of UPDATE with what it will commit: the part of its lock window that only reads registers. -/
def readSensors (s : State) : Prog Commit :=
  (voltagePhase s).bind fun v =>
  (tempPhase s).bind fun t =>
  (fanPhase s).bind fun f =>
  (controlPhase s).bind fun raw =>
  .done (.sensors v t f (raw.map fun b => some (ctrlValue s b)) raw)

theorem refresh_eq_readSensors (s : State) :
    refresh s = (quirkStep s).bind fun _ => (readSensors s).bind fun c => .release (.done c) := by
  simp only [refresh, readSensors, Prog.bind_assoc, Prog.bind_done]

/-- What UPDATE commits when the registers read as `f`. -/
def sensorsView (s : State) (f : Addr → Byte) : Commit :=
  .sensors (s.profile.volts.map (voltView s f)) (s.profile.temps.map (tempView s f)) (s.profile.fans.map (fanView s f))
    (s.profile.ctrls.map fun ch => some (ctrlValue s (f ch.outReg))) (s.profile.ctrls.map fun ch => f ch.outReg)

theorem readSensors_gives (s : State) (f : Addr → Byte) :
    Prog.Gives s.handshake f (readSensors s) (sensorsView s f) := by
  refine (voltagePhase_gives s f).bind ((tempPhase_gives s f).bind ((fanPhase_gives s f).bind
    ((controlPhase_gives s f).bind ?_)))
  rw [List.map_map]
  exact .done _

theorem readSensors_reads (s : State) (f : Addr → Byte) :
    Prog.Reads s.handshake f (readSensors s) (phaseReads s f) := by
  have h : Prog.Reads s.handshake f (readSensors s) (s.profile.volts.flatMap (voltReads s f) ++ (tempReads s f ++
      ((s.profile.fans.flatMap fun reg => [reg, nextAddr reg]) ++ (s.profile.ctrls.map ControlChannel.outReg ++ [])))) :=
    .bind (voltagePhase_gives s f) (voltagePhase_reads s f) (.bind (tempPhase_gives s f) (tempPhase_reads s f)
      (.bind (fanPhase_gives s f) (fanPhase_reads s f) (.bind (controlPhase_gives s f) (controlPhase_reads s f) (.done _))))
  simpa only [phaseReads, List.append_assoc, List.append_nil] using h

/-- UPDATE's lock window against a reference device: the quirk step, the register reads and the release. -/
theorem refresh_device {s : State} {f : Addr → Byte} (hu : Unlocks s f → UnlockAvoidsPorts s) {e : Env}
    (he : Chip.ReadsAs s.handshake e.chip f) :
    ∃ unlocked env, (refresh s).run e = ⟨sensorsView s f, readsOf s.handshake f (probeReads s) ++ unlocked ++
        readsOf s.handshake f (phaseReads s f) ++ [.rel], env⟩ ∧
      UnlockEventsOk s f unlocked ∧ env.chip.memory = e.chip.memory ∧ Chip.ReadsAs s.handshake env.chip f := by
  obtain ⟨unlocked, hevents, hunlocked, -, hmem, hreads⟩ := quirkStep_device s f hu e he
  obtain ⟨hvalue, hreads', hmem', -⟩ := readSensors_gives s f _ hreads
  refine ⟨unlocked, _, ?_, hunlocked, hmem'.trans hmem, hreads'⟩
  simp only [refresh_eq_readSensors, Prog.run_bind, Prog.run, Ran.cons, hevents, hvalue,
    readSensors_reads s f _ hreads, List.append_assoc]

/-- A successful UPDATE against a reference device. -/
theorem exec_update_device {s : State} {w : Word} {f : Addr → Byte} {rest : List LockOutcome} (hvok : s.vok = true)
    (hq : s.seq = .exec w []) (hu : Unlocks s f → UnlockAvoidsPorts s) (hdraw : s.env.lockDraws = .ok :: rest)
    (he : ReadsAs s f) :
    ∃ unlocked env, exec .update s = .next { s with
        volt := s.profile.volts.map (voltView s f)
        temp := s.profile.temps.map (tempView s f)
        fan := s.profile.fans.map (fanView s f)
        ctrl := s.profile.ctrls.map fun ch => some (ctrlValue s (f ch.outReg))
        ctrlRaw := s.profile.ctrls.map fun ch => f ch.outReg
        trace := s.trace ++ ([.acq s.config.tUpdate .ok] ++ readsOf s.handshake f (probeReads s) ++ unlocked ++
          readsOf s.handshake f (phaseReads s f) ++ [.rel])
        env := env, lockHeld := false, done := true, err := false, errcode := 0, seq := .idle } ∧
      UnlockEventsOk s f unlocked ∧ env.chip.memory = s.env.chip.memory ∧ Chip.ReadsAs s.handshake env.chip f := by
  obtain ⟨unlocked, env, hrun, hunlocked, hmem, hreads⟩ :=
    refresh_device hu (e := { s.env with lockDraws := rest }) he
  have hheld := refresh_heldAfterAll s { s.env with lockDraws := rest } s.lockHeld s.config.tUpdate
  rw [hrun] at hheld
  refine ⟨unlocked, env, ?_, hunlocked, hmem, hreads⟩
  rw [exec_update_of_lock hvok hq hdraw hrun, State.issue, hheld]
  simp only [List.cons_append]
  rfl

/-! ### The results in the spec's numbers (R201 to R219) -/

/-- A value of 0 is null (R201, R203). -/
theorem positive_natCast_div (n : Nat) : positive ((n : ℚ) / 1000) = if n = 0 then none else some ((n : ℚ) / 1000) := by
  rcases Nat.eq_zero_or_pos n with rfl | hpos
  · simp [positive]
  · rw [positive, if_pos (by positivity), if_neg hpos.ne']

theorem bankVolt_eq (raw : Byte) :
    bankVolt {} raw = if raw.toNat = 0 then none else some (8 * (raw.toNat : ℚ) / 1000) := by
  have hmv : (raw.toNat : ℚ) * (8 / 1000) = (8 * raw.toNat : ℕ) / 1000 := by push_cast; ring
  rw [bankVolt, hmv, positive_natCast_div]
  simp

theorem ecVoltRaw_eq (layout : EcVoltLayout) (b0 b1 : Byte) :
    ecVoltRaw {} layout b0 b1 = voltBits12 layout b0.toNat b1.toNat := by
  cases layout <;> simp only [ecVoltRaw, voltBits12] <;> omega

theorem ecVolt_eq (layout : EcVoltLayout) (factor : VFactor) (b0 b1 : Byte) :
    ecVolt {} layout factor b0 b1 =
      if voltBits12 layout b0.toNat b1.toNat = 0 then none
      else some ((voltBits12 layout b0.toNat b1.toNat : ℚ) * (vFactorNumber factor : ℚ) / 1000) := by
  have hfactor : VFactor.value {} factor = vFactorNumber factor := by cases factor <;> rfl
  have hpos : vFactorNumber factor ≠ 0 := by cases factor <;> decide
  rw [ecVolt, mul_one_div, positive_natCast_div, ecVoltRaw_eq, hfactor]
  simp [hpos]

/-- The enable is bit 0 (R204). -/
theorem vbatEnabled_eq_false_iff (ctl : Byte) : vbatEnabled ctl = false ↔ ctl.toNat % 2 = 0 := by
  simp [vbatEnabled, bitAt, BitVec.getLsbD, Nat.testBit_zero]

/-- The VBAT gate adds one way of being null (R204). -/
theorem voltView_eq {s : State} {f : Addr → Byte} {ch : VoltChannel} {P : Prop} [Decidable P] {q : ℚ}
    (h : rawVoltView s f ch = if P then none else some q) :
    voltView s f ch = if P ∨ VbatOff s f ch then none else some q := by
  simp only [voltView, h, vbatEnabled_eq_false_iff]
  split_ifs <;> tauto

/-- The range of R207. -/
theorem gate_eq (q : ℚ) : gate {} q = inRange q := by
  rw [gate, inRange, ← ite_not]
  simp only [not_or, not_lt]

/-- Half degrees as a sum (R206). -/
theorem halfDegrees_eq (p h : Byte) (i : Nat) :
    halfDegrees p h i = (p.toInt : ℚ) + (if h.toNat / 2 ^ i % 2 = 1 then 1 / 2 else 0) := by
  rw [halfDegrees, sext8, bitAt, BitVec.getLsbD, Nat.testBit_eq_decide_div_mod_eq]
  split_ifs with hbit <;> simp [bitNat, hbit, add_div]

theorem slotView_eq {s : State} (hlit : s.config.literals = {}) (f : Addr → Byte) (slot : TempSlot) :
    slotView s f slot = inRange (((f slot.reg).toInt : ℚ) +
      (if 0 < slot.halfBit.val ∧ (f slot.halfReg).toNat / 2 ^ slot.halfBit.val % 2 = 1 then 1 / 2 else 0)) := by
  rw [slotView, hlit, gate_eq, halfDegrees_eq]
  by_cases hhalf : 0 < slot.halfBit.val <;> simp [hhalf, wholeDegrees, sext8]

theorem bankTempView_numbers {s : State} (hlit : s.config.literals = {}) (f : Addr → Byte) (sensor : TempSlot) :
    bankTempView s f sensor =
      match (s.profile.temps.filter fun slot => f slot.srcReg == sensor.srcId).getLast?, sensor.alt with
      | some slot, _ => inRange (((f slot.reg).toInt : ℚ) +
          (if 0 < slot.halfBit.val ∧ (f slot.halfReg).toNat / 2 ^ slot.halfBit.val % 2 = 1 then 1 / 2 else 0))
      | none, some a => inRange ((f a).toInt : ℚ)
      | none, none => none := by
  rw [bankTempView, slotsFor]
  cases (s.profile.temps.filter fun slot => f slot.srcReg == sensor.srcId).getLast? with
  | some slot => exact slotView_eq hlit f slot
  | none =>
    cases sensor.alt with
    | none => rfl
    | some a => rw [hlit]; exact gate_eq _

/-- The half degree of an EC temperature is bit 7 (R210). -/
theorem ecTemp_eq (gated : Bool) (p h : Byte) :
    ecTemp {} gated p h = if gated = true then inRange ((p.toInt : ℚ) + (if 128 ≤ h.toNat then 1 / 2 else 0))
      else some ((p.toInt : ℚ) + (if 128 ≤ h.toNat then 1 / 2 else 0)) := by
  have hlt := h.isLt
  have hbit : h.toNat / 2 ^ 7 % 2 = 1 ↔ 128 ≤ h.toNat := by omega
  simp only [ecTemp, gate_eq, halfDegrees_eq, hbit]

theorem fanCount13_eq (layout : FanALayout) (b0 b1 : Byte) :
    fanCount13 {} layout b0 b1 = fanBits13 layout b0.toNat b1.toNat := by
  cases layout <;> simp only [fanCount13, fanBits13] <;> omega

theorem fanA_eq (p : Profile) (n : Nat) :
    fanA p n = if n = 0 ∨ n < p.fanMinCount.toNat ∨ p.fanMaxCount.toNat ≤ n then none
      else some ((p.fanClk : ℚ) / n) := by
  unfold fanA
  congr 1
  rw [eq_iff_iff]
  tauto

/-- The two bytes of strategies B and C (R215, R216). -/
theorem fanRaw16_toNat (b0 b1 : Byte) : (fanRaw16 {} b0 b1).toNat = 256 * b0.toNat + b1.toNat := by
  have h0 := b0.isLt
  have h1 := b1.isLt
  have hword : (word16 b0 b1).toNat = 256 * b0.toNat + b1.toNat := by
    rw [word16, BitVec.toNat_append, ← Nat.shiftLeft_add_eq_or_of_lt h1, Nat.shiftLeft_eq]
    omega
  rw [fanRaw16, hword, BitVec.toNat_ofNat, Nat.mod_mod]
  exact Nat.mod_eq_of_lt (show _ < 2 ^ 16 by omega)

theorem fanB_eq (variant : Byte) (p : Profile) {raw : BitVec 16} {n : Nat} (hn : raw.toNat = n) :
    fanB variant p raw =
      some (if p.fanMinRpm.toNat < n then (Config.fanBConvert variant (BitVec.ofNat 16 n) : ℚ) else 0) := by
  subst hn
  simp only [fanB, BitVec.lt_def, BitVec.ofNat_toNat, BitVec.setWidth_eq, apply_ite some]

/-- An EC control value is an integer nearer to raw · 100 / 255 than any tie (R219, R229). -/
theorem ecCtrl_nearest (raw : Byte) :
    ∃ n : Int, ecCtrl {} raw = (n : ℚ) ∧ |(n : ℚ) - (raw.toNat : ℚ) * 100 / 255| < 1 / 2 := by
  obtain ⟨n, hn, -, -, hnear⟩ := ecControlIsTheNearestPercentage raw
  exact ⟨n, hn, by linarith⟩

theorem getElem?_map_of_some {α β : Type} {xs : List α} {i : Nat} {x : α} (h : xs[i]? = some x) (g : α → β) :
    (xs.map g)[i]? = some (g x) := by rw [List.getElem?_map, h]; rfl

/-- Arrays of the decoded values are decoded in numbers with D0's literals. -/
theorem decodedInNumbers {s t : State} {f : Addr → Byte} (hlit : s.config.literals = {})
    (hvolt : t.volt = s.profile.volts.map (voltView s f)) (htemp : t.temp = s.profile.temps.map (tempView s f))
    (hfan : t.fan = s.profile.fans.map (fanView s f))
    (hctrl : t.ctrl = s.profile.ctrls.map fun ch => some (ctrlValue s (f ch.outReg))) : DecodedInNumbers s f t where
  bankVolt hfamily i ch hch := by
    rw [hvolt, getElem?_map_of_some hch]
    exact congrArg some (voltView_eq (by rw [rawVoltView, if_neg hfamily, hlit, bankVolt_eq]))
  ecVolt hfamily i ch hch := by
    rw [hvolt, getElem?_map_of_some hch]
    exact congrArg some (voltView_eq (by rw [rawVoltView, if_pos hfamily, hlit, ecVolt_eq]; rfl))
  bankTemp hfamily j sensor hsensor := by
    rw [htemp, getElem?_map_of_some hsensor, tempView, if_neg hfamily]
    exact congrArg some (bankTempView_numbers hlit f sensor)
  ecTemp hfamily j sensor hsensor := by
    rw [htemp, getElem?_map_of_some hsensor, tempView, if_pos hfamily, hlit, ecTemp_eq]
    rfl
  fanA hstrategy i reg hreg := by
    refine ⟨_, rfl, ?_⟩
    rw [hfan, getElem?_map_of_some hreg, fanView, fanValue, hstrategy, hlit, fanCount13_eq]
    exact congrArg some (fanA_eq _ _)
  fanB hstrategy i reg hreg := by
    refine ⟨_, rfl, ?_⟩
    rw [hfan, getElem?_map_of_some hreg, fanView, fanValue, hstrategy, hlit]
    exact congrArg some (fanB_eq _ _ (fanRaw16_toNat _ _))
  fanC hstrategy i reg hreg := by
    rw [hfan, getElem?_map_of_some hreg, fanView, fanValue, hstrategy, hlit, fanC, fanRaw16_toNat]
    push_cast
    rfl
  bankCtrl hfamily c ch hch := by
    rw [hctrl, getElem?_map_of_some hch, ctrlValue, if_neg hfamily, hlit, bankCtrl_eq]
  ecCtrl hfamily c ch hch := by
    rw [hctrl, getElem?_map_of_some hch, ctrlValue, if_pos hfamily, hlit]
    obtain ⟨n, hn, hnear⟩ := ecCtrl_nearest (f ch.outReg)
    exact ⟨n, by rw [hn], hnear⟩

/-- Settles O21: the phases give the view of every channel and read the registers of R221, and the view is what the spec's
numbers say. -/
theorem updateDecodesTheChip : Obligations.UpdateDecodesTheChip := by
  intro s w f rest hvok hq hu hdraw he
  obtain ⟨unlocked, env, hexec, hunlocked, hmem, hreads⟩ := exec_update_device hvok hq hu hdraw he
  exact ⟨_, unlocked, hexec, rfl, hunlocked, rfl, rfl, rfl, rfl, rfl, hmem, hreads,
    fun hlit => decodedInNumbers hlit rfl rfl rfl rfl, rfl⟩

/-! ### The event count (R225) -/

/-- The length of a concatenation whose parts have `c` elements, and one more for each `x` with `p x`. -/
theorem length_flatMap_of_filter {α β : Type} {g : α → List β} {p : α → Bool} {c : Nat}
    (h : ∀ x, (g x).length = c + if p x then 1 else 0) (xs : List α) :
    (xs.flatMap g).length = c * xs.length + (xs.filter p).length := by
  induction xs with
  | nil => rfl
  | cons x xs ih =>
    rw [List.flatMap_cons, List.length_append, ih, h, List.filter_cons]
    split <;> simp only [List.length_cons] <;> ring

theorem voltReads_length (s : State) (f : Addr → Byte) (ch : VoltChannel) :
    (voltReads s f ch).length = (if s.profile.family = .ec then 2 else 1) +
      if decide (s.profile.vbatAddr = some ch.reg) && (rawVoltView s f ch).isSome then 1 else 0 := by
  rw [voltReads, List.length_append, apply_ite List.length, apply_ite List.length]
  simp

theorem slotReads_length (slot : TempSlot) :
    (slotReads slot).length = 2 + if decide (0 < slot.halfBit.val) then 1 else 0 := by
  rw [slotReads, List.length_append, List.length_append, apply_ite List.length]
  simp only [decide_eq_true_eq, List.length_cons, List.length_nil]
  ring

theorem fallbackReads_length (s : State) (f : Addr → Byte) (sensor : TempSlot) :
    (fallbackReads s f sensor).length =
      0 + if sensor.alt.isSome && (slotsFor s f sensor).isEmpty then 1 else 0 := by
  rw [fallbackReads]
  cases sensor.alt <;> cases (slotsFor s f sensor).isEmpty <;> rfl

theorem tempReads_length (s : State) (f : Addr → Byte) :
    (tempReads s f).length = 2 * s.profile.temps.length +
      (if s.profile.family = .ec then 0
       else (s.profile.temps.filter fun slot => decide (0 < slot.halfBit.val)).length +
         (s.profile.temps.filter fun slot => slot.alt.isSome && (slotsFor s f slot).isEmpty).length) := by
  unfold tempReads
  split
  · simp [List.length_flatMap, Nat.mul_comm]
  · rw [List.length_append, length_flatMap_of_filter slotReads_length,
      length_flatMap_of_filter (fallbackReads_length s f)]
    omega

theorem phaseReads_length (s : State) (f : Addr → Byte) :
    (phaseReads s f).length = (if s.profile.family = .ec then 2 else 1) * s.profile.volts.length +
      (s.profile.volts.filter fun ch =>
        decide (s.profile.vbatAddr = some ch.reg) && (rawVoltView s f ch).isSome).length +
      (tempReads s f).length + 2 * s.profile.fans.length + s.profile.ctrls.length := by
  have hfans : (s.profile.fans.flatMap fun reg => [reg, nextAddr reg]).length = 2 * s.profile.fans.length := by
    simp [List.length_flatMap, Nat.mul_comm]
  rw [phaseReads, List.length_append, List.length_append, List.length_append,
    length_flatMap_of_filter (voltReads_length s f), hfans, List.length_map]

/-- A device stands behind a handshake that has ports. -/
theorem ReadsAs.handshake_ne_absent {s : State} {f : Addr → Byte} (h : ReadsAs s f) : s.handshake ≠ .absent := by
  intro habsent
  rw [ReadsAs, habsent] at h
  exact h

theorem probeReads_length (s : State) : (probeReads s).length = if Probes s then 2 else 0 := by
  rw [probeReads, apply_ite List.length]
  rfl

theorem UnlockEventsOk.length {s : State} {f : Addr → Byte} {evs : List BusEvent} (h : UnlockEventsOk s f evs) :
    evs.length = if Unlocks s f then s.profile.unlockSeq.length else 0 := by
  obtain ⟨hissued, hnone⟩ := h
  split
  · exact (hissued ‹_›).length_eq.symm
  · rw [hnone ‹_›]; rfl

/-- Settles O22: four events for each register of the trace of O21, one for each element of UNLOCK_SEQ, and two for the
lock. -/
theorem updateEventCount : Obligations.UpdateEventCount := by
  intro s w f rest hvok hq hu hdraw he
  obtain ⟨t, unlocked, hexec, htrace, hunlocked, -⟩ := updateDecodesTheChip s w f rest hvok hq hu hdraw he
  have hquirk : 4 * (probeReads s).length + unlocked.length =
      if Unlocks s f then 8 + s.profile.unlockSeq.length else if Probes s then 8 else 0 := by
    rw [probeReads_length, hunlocked.length]
    by_cases hx : Unlocks s f
    · rw [if_pos hx, if_pos hx, if_pos hx.1]
    · rw [if_neg hx, if_neg hx]
      split <;> rfl
  refine ⟨t, hexec, ?_⟩
  have hports := he.handshake_ne_absent
  simp only [htrace, List.length_append, readsOf_length hports, phaseReads_length, tempReads_length, ← hquirk,
    List.length_singleton]
  ring

end Sys2Proof.Machine

/-! ## SETCTL and CLRCTL (42_fan_control.md)

What the two commands do inside their lock window, on an oracle of the chip's answers and against a reference device, and
the commands' next states. -/

namespace Sys2Proof.Machine

/-! ### Driving a channel (R264, R265, R271, R272) -/

/-- What a bank family does to set a channel and to restore it: the mode register, then the command register. -/
def bankDrive (h : Handshake) (ch : ControlChannel) (mode cmd : Byte) : Prog Unit :=
  (memWrite h ch.modeReg mode).bind fun _ => memWrite h ch.cmdReg cmd

/-- What EC does to set a channel and to restore it: the mode byte read afresh and changed, then the request sequence. -/
def ecDrive (h : Handshake) (p : Profile) (ch : ControlChannel) (mode : Byte → Byte) (cmd : Byte) : Prog Unit :=
  (memRead h ch.modeReg).bind fun m => (memWrite h ch.modeReg (mode m)).bind fun _ => ecApply h p ch cmd

theorem setManual_of_bank {s : State} (h : s.profile.family ≠ .ec) (ch : ControlChannel) (c : Nat) (d : Byte) :
    setManual s ch c d = bankDrive s.handshake ch 0 d := if_neg h

theorem setManual_of_ec {s : State} (h : s.profile.family = .ec) (ch : ControlChannel) (c : Nat) (d : Byte) :
    setManual s ch c d = ecDrive s.handshake s.profile ch (ecManualMode · c) d := if_pos h

theorem restoreSaved_of_bank {s : State} (h : s.profile.family ≠ .ec) (ch : ControlChannel) (c : Nat) (o : Override) :
    restoreSaved s ch c o = bankDrive s.handshake ch o.savedMode o.savedCmd := if_neg h

theorem restoreSaved_of_ec {s : State} (h : s.profile.family = .ec) (ch : ControlChannel) (c : Nat) (o : Override) :
    restoreSaved s ch c o =
      ecDrive s.handshake s.profile ch (ecRestoreMode s.config.ecRestoreRule · o.savedMode c) o.savedCmd := if_pos h

theorem snapshotOnce_of_active {o : Override} (h : o.active = true) (hs : Handshake) (ch : ControlChannel) :
    snapshotOnce hs ch o = .done o := if_pos h

theorem snapshotOnce_of_inactive {o : Override} (h : o.active = false) (hs : Handshake) (ch : ControlChannel) :
    snapshotOnce hs ch o = snapshot hs ch := by simp [snapshotOnce, h]

theorem State.handshake_ne_absent {s : State} (h : s.profile.family ≠ .unsupported) : s.handshake ≠ .absent := by
  unfold State.handshake
  cases hf : s.profile.family with
  | unsupported => exact absurd hf h
  | _ => simp

/-! ### On the oracle -/

section Oracle

variable {h : Handshake} {ch : ControlChannel} {e : Env} {m k : Byte} {more : List Byte}

theorem snapshot_oracle (hports : h ≠ .absent) (hchip : e.chip = .oracle (m :: k :: more)) :
    (snapshot h ch).run e = ⟨⟨true, m, k⟩, readEvents h ch.modeReg m ++ readEvents h ch.cmdReg k,
      { e with chip := .oracle more }⟩ := by
  rw [snapshot, Prog.run_bind, memRead_oracle hports _ e hchip, Prog.run_bind, memRead_oracle hports _ _ rfl]
  simp [Prog.run]

theorem bankDrive_oracle (mode cmd : Byte) (hchip : e.chip = .oracle more) :
    (bankDrive h ch mode cmd).run e = ⟨(), writeEvents h ch.modeReg mode ++ writeEvents h ch.cmdReg cmd, e⟩ := by
  rw [bankDrive, Prog.run_bind, memWrite_oracle _ _ _ e hchip, memWrite_oracle _ _ _ e hchip]

theorem ecApply_oracle (p : Profile) (cmd : Byte) (hchip : e.chip = .oracle more) :
    (ecApply h p ch cmd).run e = ⟨(), ecApplyEvents h p ch cmd, e⟩ := by
  simp [ecApply, ecApplyEvents, Prog.run_bind, memWrite_oracle _ _ _ e hchip, Prog.run, Ran.cons]

theorem ecDrive_oracle (hports : h ≠ .absent) (p : Profile) (mode : Byte → Byte) (cmd : Byte)
    (hchip : e.chip = .oracle (m :: more)) :
    (ecDrive h p ch mode cmd).run e = ⟨(), readEvents h ch.modeReg m ++ (writeEvents h ch.modeReg (mode m) ++
      ecApplyEvents h p ch cmd), { e with chip := .oracle more }⟩ := by
  rw [ecDrive, Prog.run_bind, memRead_oracle hports _ e hchip, Prog.run_bind, memWrite_oracle _ _ _ _ rfl,
    ecApply_oracle _ _ rfl]

theorem setManual_bank_oracle {s : State} (hec : s.profile.family ≠ .ec) (c : Nat) (d : Byte)
    (hchip : e.chip = .oracle more) :
    (setManual s ch c d).run e =
      ⟨(), writeEvents s.handshake ch.modeReg 0 ++ writeEvents s.handshake ch.cmdReg d, e⟩ := by
  rw [setManual_of_bank hec, bankDrive_oracle _ _ hchip]

theorem setManual_ec_oracle {s : State} (hec : s.profile.family = .ec) (c : Nat) (d : Byte)
    (hchip : e.chip = .oracle (m :: more)) :
    (setManual s ch c d).run e = ⟨(), readEvents s.handshake ch.modeReg m ++
      (writeEvents s.handshake ch.modeReg (ecManualMode m c) ++ ecApplyEvents s.handshake s.profile ch d),
      { e with chip := .oracle more }⟩ := by
  rw [setManual_of_ec hec, ecDrive_oracle (State.handshake_ne_absent (by simp [hec])) _ _ _ hchip]

theorem restoreSaved_bank_oracle {s : State} (hec : s.profile.family ≠ .ec) (c : Nat) (o : Override)
    (hchip : e.chip = .oracle more) :
    (restoreSaved s ch c o).run e =
      ⟨(), writeEvents s.handshake ch.modeReg o.savedMode ++ writeEvents s.handshake ch.cmdReg o.savedCmd, e⟩ := by
  rw [restoreSaved_of_bank hec, bankDrive_oracle _ _ hchip]

theorem restoreSaved_ec_oracle {s : State} (hec : s.profile.family = .ec) (c : Nat) (o : Override)
    (hchip : e.chip = .oracle (m :: more)) :
    (restoreSaved s ch c o).run e = ⟨(), readEvents s.handshake ch.modeReg m ++
      (writeEvents s.handshake ch.modeReg (ecRestoreMode s.config.ecRestoreRule m o.savedMode c) ++
        ecApplyEvents s.handshake s.profile ch o.savedCmd), { e with chip := .oracle more }⟩ := by
  rw [restoreSaved_of_ec hec, ecDrive_oracle (State.handshake_ne_absent (by simp [hec])) _ _ _ hchip]

end Oracle

/-! ### The two lock windows (R260, R268) -/

section Windows

variable {s : State} {ch : ControlChannel} {c : Nat} {e e' e'' : Env} {evs evs' : List BusEvent}

/-- SETCTL's window is the snapshot, the manual mode and the release. -/
theorem setWindow_run {d : Byte} {o : Override}
    (hsnapshot : (snapshotOnce s.handshake ch (s.ovrAt c)).run e = ⟨o, evs, e'⟩)
    (hmanual : (setManual s ch c d).run e' = ⟨(), evs', e''⟩) :
    (setWindow s ch c d).run e = ⟨.override c o, evs ++ evs' ++ [.rel], e''⟩ := by
  simp [setWindow, Prog.run_bind, hsnapshot, hmanual, Prog.run, Ran.cons]

theorem clearWindow_of_active (hactive : (s.ovrAt c).active = true) :
    clearWindow s ch c = (restoreSaved s ch c (s.ovrAt c)).bind fun _ =>
      .release (.done (.override c { s.ovrAt c with active := false })) := if_pos hactive

/-- CLRCTL's window of an active override is the restore and the release. -/
theorem clearWindow_run (hactive : (s.ovrAt c).active = true)
    (hrestore : (restoreSaved s ch c (s.ovrAt c)).run e = ⟨(), evs, e'⟩) :
    (clearWindow s ch c).run e = ⟨.override c { s.ovrAt c with active := false }, evs ++ [.rel], e'⟩ := by
  simp [clearWindow_of_active hactive, Prog.run_bind, hrestore, Prog.run, Ran.cons]

/-- CLRCTL's window with no active override is the release (R269). -/
theorem clearWindow_of_inactive (hinactive : (s.ovrAt c).active = false) :
    clearWindow s ch c = .release (.done (.override c (s.ovrAt c))) := by simp [clearWindow, hinactive]

end Windows

/-! ### From the lock to the commit (R261, R266, R267) -/

/-- A fan control command at its start passes the checks of R261 on channel `c` and obtains the lock. -/
structure WindowOpens (s : State) (c : Nat) (ch : ControlChannel) (rest : List LockOutcome) : Prop where
  vok : s.vok = true
  seq : ∃ w, s.seq = .exec w []
  channel : s.profile.ctrls[c]? = some ch
  lock : s.env.lockDraws = .ok :: rest

section Commands

variable {s : State} {i : Instr} {c : Nat} {ch : ControlChannel} {window : ControlChannel → Prog Commit}
  {rest : List LockOutcome} {o : Override}

/-- A fan control command that obtains the lock runs its window and commits what the window ends with. -/
theorem exec_of_window (hopen : WindowOpens s c ch rest) (hprog : commandProg i s = withChannel s c window)
    {r : Ran Commit} (hrun : (window ch).run { s.env with lockDraws := rest } = r) :
    exec i s = .next ((s.issue (.acq s.config.tControl .ok :: r.events) r.env).commit r.value) := by
  obtain ⟨hvok, ⟨w, hq⟩, hch, hdraw⟩ := hopen
  have hwhole : (withChannel s c window).run s.env = r.cons (.acq s.config.tControl .ok) := by
    simp [withChannel, hvok, hch, Prog.run, Env.drawLock, hdraw, hrun]
  rw [exec_eq, runCommand_start hq, hprog, hwhole]
  rfl

theorem heldAfterAll_append_rel (held : Bool) (evs : List BusEvent) : heldAfterAll held (evs ++ [.rel]) = false := by
  simp [heldAfterAll, heldAfter]

/-- The next state of a fan control command whose window ends with the release and a record for OVR[c]. -/
theorem exec_override (hopen : WindowOpens s c ch rest) (hprog : commandProg i s = withChannel s c window)
    {evs : List BusEvent} {env : Env}
    (hrun : (window ch).run { s.env with lockDraws := rest } = ⟨.override c o, evs ++ [.rel], env⟩) :
    exec i s = .next { s with
      trace := s.trace ++ ([.acq s.config.tControl .ok] ++ evs ++ [.rel])
      ovr := s.ovr.set c o
      env := env
      lockHeld := false, done := true, err := false, errcode := 0, seq := .idle } := by
  have hheld := heldAfterAll_append_rel s.lockHeld (.acq s.config.tControl .ok :: evs)
  rw [List.cons_append] at hheld
  rw [exec_of_window hopen hprog hrun, State.issue, hheld]
  rfl

/-- A fan control command whose lock times out: one event and a silent commit (R267). -/
theorem exec_control_of_timeout {w : Word} (hvok : s.vok = true) (hq : s.seq = .exec w [])
    (hc : c < s.profile.ctrls.length) (hdraw : s.env.lockDraws = .timeout :: rest)
    (hprog : commandProg i s = withChannel s c window) :
    exec i s =
      .next ((s.issue [.acq s.config.tControl .timeout] { s.env with lockDraws := rest }).commit .silent) := by
  have hrun : (withChannel s c window).run s.env =
      ⟨.silent, [.acq s.config.tControl .timeout], { s.env with lockDraws := rest }⟩ := by
    simp [withChannel, hvok, List.getElem?_eq_getElem hc, Prog.run, Env.drawLock, hdraw, Ran.cons]
  rw [exec_eq, runCommand_start hq, hprog, hrun]

end Commands

/-- Settles O33: a timed-out acquisition leaves LOCK_HELD as it was, and the silent commit publishes nothing. -/
theorem controlTimeoutChangesNothing : Obligations.ControlTimeoutChangesNothing :=
  fun _ _ _ _ _ hvok hq hc hdraw =>
    ⟨exec_control_of_timeout hvok hq hc hdraw rfl, exec_control_of_timeout hvok hq hc hdraw rfl⟩

/-! ### SETCTL on listed answers -/

/-- The first SETCTL of a channel commits the two bytes read and leaves the rest of the answers to the manual mode. -/
theorem exec_setctl_first {s : State} {c : Nat} {d m k : Byte} {ch : ControlChannel} {rest : List LockOutcome}
    {more : List Byte} {evs : List BusEvent} {env : Env} (hopen : WindowOpens s c ch rest)
    (hfamily : s.profile.family ≠ .unsupported) (hinactive : (s.ovrAt c).active = false)
    (hchip : s.env.chip = .oracle (m :: k :: more))
    (hmanual : (setManual s ch c d).run { s.env with chip := .oracle more, lockDraws := rest } = ⟨(), evs, env⟩) :
    exec (.setctl c d) s = .next { s with
      trace := s.trace ++ ([.acq s.config.tControl .ok] ++
        (readEvents s.handshake ch.modeReg m ++ readEvents s.handshake ch.cmdReg k ++ evs) ++ [.rel])
      ovr := s.ovr.set c ⟨true, m, k⟩
      env := env
      lockHeld := false, done := true, err := false, errcode := 0, seq := .idle } := by
  refine exec_override hopen rfl (setWindow_run ?_ hmanual)
  rw [snapshotOnce_of_inactive hinactive]
  exact snapshot_oracle (State.handshake_ne_absent hfamily) hchip

theorem State.set_ovrAt (s : State) (c : Nat) : s.ovr.set c (s.ovrAt c) = s.ovr := by
  rw [State.ovrAt, List.getD_eq_getElem?_getD]
  by_cases hc : c < s.ovr.length
  · rw [List.getElem?_eq_getElem hc, Option.getD_some, List.set_getElem_self]
  · exact List.set_eq_of_length_le (Nat.le_of_not_lt hc)

/-- A later SETCTL of a channel is the manual mode alone, and OVR[c] stays (R263). -/
theorem exec_setctl_again {s : State} {c : Nat} {d : Byte} {ch : ControlChannel} {rest : List LockOutcome}
    {evs : List BusEvent} {env : Env} (hopen : WindowOpens s c ch rest) (hactive : (s.ovrAt c).active = true)
    (hmanual : (setManual s ch c d).run { s.env with lockDraws := rest } = ⟨(), evs, env⟩) :
    exec (.setctl c d) s = .next { s with
      trace := s.trace ++ ([.acq s.config.tControl .ok] ++ evs ++ [.rel])
      env := env
      lockHeld := false, done := true, err := false, errcode := 0, seq := .idle } := by
  have hrun := setWindow_run (evs := []) (by rw [snapshotOnce_of_active hactive]; rfl) hmanual
  rw [exec_override hopen rfl hrun, State.set_ovrAt, List.nil_append]

/-- Settles O26: the snapshot takes both answers, and the manual mode of a bank family is two writes. -/
theorem setctlFirstOnBank : Obligations.SetctlFirstOnBank := by
  intro s w c d m k ch rest more hvok hq hec hfamily hch hinactive hdraw hchip
  rw [exec_setctl_first ⟨hvok, ⟨w, hq⟩, hch, hdraw⟩ hfamily hinactive hchip
    (setManual_bank_oracle hec c d rfl)]
  simp only [List.append_assoc]

/-- Settles O27: with no snapshot the window is the two writes. -/
theorem setctlAgainOnBank : Obligations.SetctlAgainOnBank := by
  intro s w c d ch rest more hvok hq hec hfamily hch hactive hdraw hchip
  rw [exec_setctl_again ⟨hvok, ⟨w, hq⟩, hch, hdraw⟩ hactive
    (setManual_bank_oracle hec c d hchip)]
  simp only [List.append_assoc]

/-- Settles O28: the snapshot takes two answers, and the manual mode of EC a third one for the fresh mode byte. -/
theorem setctlFirstOnEc : Obligations.SetctlFirstOnEc := by
  intro s w c d m k m' ch rest more hvok hq hec hch hinactive hdraw hchip
  rw [exec_setctl_first ⟨hvok, ⟨w, hq⟩, hch, hdraw⟩ (by simp [hec]) hinactive hchip
    (setManual_ec_oracle hec c d rfl)]
  simp only [List.append_assoc]
  rfl

/-- Settles O29: with no snapshot the one answer is the fresh mode byte. -/
theorem setctlAgainOnEc : Obligations.SetctlAgainOnEc := by
  intro s w c d m ch rest more hvok hq hec hch hactive hdraw hchip
  rw [exec_setctl_again ⟨hvok, ⟨w, hq⟩, hch, hdraw⟩ hactive
    (setManual_ec_oracle hec c d hchip)]
  simp only [List.append_assoc]
  rfl

/-! ### CLRCTL on listed answers -/

/-- CLRCTL of an active override is the restore, and the record keeps its saved bytes (R270). -/
theorem exec_clrctl_active {s : State} {c : Nat} {ch : ControlChannel} {rest : List LockOutcome}
    {evs : List BusEvent} {env : Env} (hopen : WindowOpens s c ch rest) (hactive : (s.ovrAt c).active = true)
    (hrestore : (restoreSaved s ch c (s.ovrAt c)).run { s.env with lockDraws := rest } = ⟨(), evs, env⟩) :
    exec (.clrctl c) s = .next { s with
      trace := s.trace ++ ([.acq s.config.tControl .ok] ++ evs ++ [.rel])
      ovr := s.ovr.set c ⟨false, (s.ovrAt c).savedMode, (s.ovrAt c).savedCmd⟩
      env := env
      lockHeld := false, done := true, err := false, errcode := 0, seq := .idle } :=
  exec_override hopen rfl (clearWindow_run hactive hrestore)

/-- Settles O30: the restore of a bank family is the two writes of the saved bytes. -/
theorem clrctlRestoresOnBank : Obligations.ClrctlRestoresOnBank := by
  intro s w c ch rest more hvok hq hec hfamily hch hactive hdraw hchip
  rw [exec_clrctl_active ⟨hvok, ⟨w, hq⟩, hch, hdraw⟩ hactive
    (restoreSaved_bank_oracle hec c _ hchip)]
  simp only [List.append_assoc]

/-- Settles O31: the one answer is the fresh mode byte, which EC_RESTORE_RULE changes. -/
theorem clrctlRestoresOnEc : Obligations.ClrctlRestoresOnEc := by
  intro s w c m ch rest more hvok hq hec hch hactive hdraw hchip
  rw [exec_clrctl_active ⟨hvok, ⟨w, hq⟩, hch, hdraw⟩ hactive
    (restoreSaved_ec_oracle hec c _ hchip)]
  simp only [List.append_assoc]
  rfl

/-- Settles O32: the window is the release, and the record it commits is the one that stands in OVR[c]. -/
theorem clrctlInactiveTakesAndReleases : Obligations.ClrctlInactiveTakesAndReleases := by
  intro s w c ch rest hvok hq hch hc hinactive hdraw
  have hrun : (clearWindow s ch c).run { s.env with lockDraws := rest } =
      ⟨.override c (s.ovrAt c), [] ++ [.rel], { s.env with lockDraws := rest }⟩ := by
    rw [clearWindow_of_inactive hinactive]
    rfl
  rw [exec_override ⟨hvok, ⟨w, hq⟩, hch, hdraw⟩ rfl hrun, State.set_ovrAt]
  rfl

/-! ### The frame -/

/-- Settles O34: events touch no result, and a fan control command's commit publishes nothing but OVR[c]. -/
theorem fanControlFrame : Obligations.FanControlFrame := by
  intro s t c d h
  obtain ⟨p, hp, rfl⟩ : ∃ p, Prog.All (Commit.IsControl c) p ∧ runCommand p s = t := by
    rcases h with h | h <;> rw [exec_eq] at h <;> cases h
    · exact ⟨_, setctlProg_control c d s, rfl⟩
    · exact ⟨_, clrctlProg_control c s, rfl⟩
  have hcommit := (hp.resume s.seq.events).run s.env
  obtain ⟨hvolt, htemp, hfan, hctrl, hraw, hcount, hrec, hovr⟩ :=
    hcommit.keeps (s.issue ((p.resume s.seq.events).run s.env).events ((p.resume s.seq.events).run s.env).env)
  simp only [runCommand, hvolt, htemp, hfan, hctrl, hraw, hcount, hrec]
  simpa using hovr

/-! ### Against a reference device (20_memory.md R121, R122) -/

/-- A register that a write through the handshake stores at: on the bank-switched model its low byte is not the selection
command. -/
def Handshake.Reaches : Handshake → Addr → Prop
  | .bank cmd _ _, a => loByte a ≠ cmd
  | .paged _ _ _ _, _ => True
  | .absent, _ => True

theorem State.handshake_reaches {s : State} {a : Addr} (h : loByte a ≠ s.config.bankSelectCmd) :
    s.handshake.Reaches a := by
  unfold State.handshake
  cases s.profile.family with
  | ec => exact True.intro
  | unsupported => exact True.intro
  | _ => exact h

theorem State.handshake_reaches_of_ec {s : State} (h : s.profile.family = .ec) (a : Addr) : s.handshake.Reaches a := by
  rw [s.handshake_ec h]
  exact True.intro

section Device

variable {h : Handshake} {f : Addr → Byte} {ch : ControlChannel}

/-- A register write stores the byte, through either handshake. -/
theorem memWrite_stores {a : Addr} (ha : h.Reaches a) (v : Byte) :
    Prog.Stores h f (fun b => if b = a then v else f b) (memWrite h a v) () := by
  cases h with
  | bank cmd ap dp => exact memWrite_stores_bank ha
  | paged cmd pp ip edp => exact memWrite_stores_paged
  | absent => exact fun e he => he.elim

/-- OVR[c] after SETCTL's snapshot when the registers read as `f` (42_fan_control.md R262, R263). -/
def snapshotView (f : Addr → Byte) (ch : ControlChannel) (o : Override) : Override :=
  if o.active then o else ⟨true, f ch.modeReg, f ch.cmdReg⟩

theorem snapshotOnce_gives (o : Override) : Prog.Gives h f (snapshotOnce h ch o) (snapshotView f ch o) := by
  unfold snapshotOnce snapshotView
  split
  · exact .done o
  · exact (memRead_gives h f _).bind ((memRead_gives h f _).bind (.done _))

theorem bankDrive_stores (hmode : h.Reaches ch.modeReg) (hcmd : h.Reaches ch.cmdReg) (mode cmd : Byte) :
    Prog.Stores h f (fun a => if a = ch.cmdReg then cmd else if a = ch.modeReg then mode else f a)
      (bankDrive h ch mode cmd) () := (memWrite_stores hmode mode).seq (memWrite_stores hcmd cmd)

/-- LOAD is overwritten by APPLY, the later store to the request register. -/
theorem ecDrive_stores (hreaches : ∀ a, h.Reaches a) (p : Profile) (mode : Byte → Byte) (cmd : Byte) :
    Prog.Stores h f (fun a => if a = ch.reqReg then p.reqApply else if a = ch.cmdReg then cmd
      else if a = ch.modeReg then mode (f ch.modeReg) else f a) (ecDrive h p ch mode cmd) () := by
  have hall : Prog.Stores h f _ (ecDrive h p ch mode cmd) () :=
    (memRead_gives h f ch.modeReg).stores.bind <| (memWrite_stores (hreaches _) _).seq <|
      (memWrite_stores (hreaches ch.reqReg) p.reqLoad).seq <| .delay p.settleMs <|
        (memWrite_stores (hreaches ch.cmdReg) cmd).seq <| (memWrite_stores (hreaches ch.reqReg) p.reqApply).seq <|
          .delay p.settleMs <| .done ()
  convert hall using 1
  funext a
  split_ifs <;> rfl

variable {s : State}

theorem setManual_stores_of_bank (hec : s.profile.family ≠ .ec) (hmode : loByte ch.modeReg ≠ s.config.bankSelectCmd)
    (hcmd : loByte ch.cmdReg ≠ s.config.bankSelectCmd) (c : Nat) (d : Byte) :
    Prog.Stores s.handshake f (fun a => if a = ch.cmdReg then d else if a = ch.modeReg then 0 else f a)
      (setManual s ch c d) () := by
  rw [setManual_of_bank hec]
  exact bankDrive_stores (State.handshake_reaches hmode) (State.handshake_reaches hcmd) 0 d

theorem setManual_stores_of_ec (hec : s.profile.family = .ec) (c : Nat) (d : Byte) :
    Prog.Stores s.handshake f (fun a => if a = ch.reqReg then s.profile.reqApply else if a = ch.cmdReg then d
      else if a = ch.modeReg then ecManualMode (f ch.modeReg) c else f a) (setManual s ch c d) () := by
  rw [setManual_of_ec hec]
  exact ecDrive_stores (State.handshake_reaches_of_ec hec) _ _ _

theorem restoreSaved_stores_of_bank (hec : s.profile.family ≠ .ec)
    (hmode : loByte ch.modeReg ≠ s.config.bankSelectCmd) (hcmd : loByte ch.cmdReg ≠ s.config.bankSelectCmd) (c : Nat)
    (o : Override) :
    Prog.Stores s.handshake f (fun a => if a = ch.cmdReg then o.savedCmd else if a = ch.modeReg then o.savedMode else f a)
      (restoreSaved s ch c o) () := by
  rw [restoreSaved_of_bank hec]
  exact bankDrive_stores (State.handshake_reaches hmode) (State.handshake_reaches hcmd) _ _

theorem restoreSaved_stores_of_ec (hec : s.profile.family = .ec) (c : Nat) (o : Override) :
    Prog.Stores s.handshake f (fun a => if a = ch.reqReg then s.profile.reqApply else if a = ch.cmdReg then o.savedCmd
      else if a = ch.modeReg then ecRestoreMode s.config.ecRestoreRule (f ch.modeReg) o.savedMode c else f a)
      (restoreSaved s ch c o) () := by
  rw [restoreSaved_of_ec hec]
  exact ecDrive_stores (State.handshake_reaches_of_ec hec) _ _ _

end Device

@[simp] theorem State.commit_handshake (c : Commit) (s : State) : (s.commit c).handshake = s.handshake := by
  simp [State.handshake, State.port]

@[simp] theorem State.issue_handshake (evs : List BusEvent) (e : Env) (s : State) :
    (s.issue evs e).handshake = s.handshake := rfl

/-- What a fan control command leaves behind when its window stores: the device reads as `g`, the other lock outcomes are
still pending, and the window's record is in OVR[c]. -/
structure LeavesDevice (s t : State) (g : Addr → Byte) (rest : List LockOutcome) (c : Nat) (o : Override) : Prop where
  reads : ReadsAs t g
  wf : Chip.wf t.env.chip = true
  lock : t.env.lockDraws = rest
  ovr : t.ovr = s.ovr.set c o

section DeviceCommands

variable {s : State} {i : Instr} {c : Nat} {ch : ControlChannel} {window : ControlChannel → Prog Commit}
  {rest : List LockOutcome} {o : Override} {f g : Addr → Byte}

/-- A fan control command whose window stores: the acquisition before it and the commit after it leave the device alone. -/
theorem exec_device (hopen : WindowOpens s c ch rest) (hprog : commandProg i s = withChannel s c window)
    (hwindow : Prog.Stores s.handshake f g (window ch) (.override c o)) (he : ReadsAs s f)
    (hwf : Chip.wf s.env.chip = true) : ∃ t, exec i s = .next t ∧ LeavesDevice s t g rest c o := by
  obtain ⟨hvalue, hreads, hwf', hlock⟩ := hwindow { s.env with lockDraws := rest } he hwf
  refine ⟨_, exec_of_window hopen hprog rfl, ?_, ?_, ?_, ?_⟩
  · simpa [ReadsAs] using hreads
  · simpa using hwf'
  · simpa using hlock
  · rw [hvalue]
    rfl

theorem exec_setctl_device {d : Byte} (hopen : WindowOpens s c ch rest)
    (hmanual : Prog.Stores s.handshake f g (setManual s ch c d) ()) (he : ReadsAs s f)
    (hwf : Chip.wf s.env.chip = true) :
    ∃ t, exec (.setctl c d) s = .next t ∧ LeavesDevice s t g rest c (snapshotView f ch (s.ovrAt c)) :=
  exec_device hopen rfl ((snapshotOnce_gives _).stores.bind (hmanual.seq (.release (.done _)))) he hwf

theorem exec_clrctl_device (hopen : WindowOpens s c ch rest) (hactive : (s.ovrAt c).active = true)
    (hrestore : Prog.Stores s.handshake f g (restoreSaved s ch c (s.ovrAt c)) ()) (he : ReadsAs s f)
    (hwf : Chip.wf s.env.chip = true) :
    ∃ t, exec (.clrctl c) s = .next t ∧ LeavesDevice s t g rest c { s.ovrAt c with active := false } := by
  refine exec_device hopen rfl ?_ he hwf
  rw [clearWindow_of_active hactive]
  exact hrestore.seq (.release (.done _))

end DeviceCommands

/-- Settles O35: the snapshot stores nothing, so that what the device holds is what the manual mode stores. -/
theorem setctlStoresInTheChip : Obligations.SetctlStoresInTheChip := by
  intro s w c d ch f rest hvok hq hch hdraw he hwf
  have hopen : WindowOpens s c ch rest := ⟨hvok, ⟨w, hq⟩, hch, hdraw⟩
  refine ⟨fun hec hmode hcmd => ?_, fun hec => ?_⟩
  · obtain ⟨t, hexec, ht⟩ := exec_setctl_device hopen (setManual_stores_of_bank hec hmode hcmd c d) he hwf
    exact ⟨t, hexec, ht.reads⟩
  · obtain ⟨t, hexec, ht⟩ := exec_setctl_device hopen (setManual_stores_of_ec hec c d) he hwf
    exact ⟨t, hexec, ht.reads⟩

/-- Settles O36: the window of an active override stores what the restore stores. -/
theorem clrctlStoresInTheChip : Obligations.ClrctlStoresInTheChip := by
  intro s w c ch f rest hvok hq hch hactive hdraw he hwf
  have hopen : WindowOpens s c ch rest := ⟨hvok, ⟨w, hq⟩, hch, hdraw⟩
  refine ⟨fun hec hmode hcmd => ?_, fun hec => ?_⟩
  · obtain ⟨t, hexec, ht⟩ := exec_clrctl_device hopen hactive (restoreSaved_stores_of_bank hec hmode hcmd c _) he hwf
    exact ⟨t, hexec, ht.reads⟩
  · obtain ⟨t, hexec, ht⟩ := exec_clrctl_device hopen hactive (restoreSaved_stores_of_ec hec c _) he hwf
    exact ⟨t, hexec, ht.reads⟩

theorem State.ovrAt_of_set {s t : State} {c : Nat} {o : Override} (hc : c < s.ovr.length)
    (h : t.ovr = s.ovr.set c o) : t.ovrAt c = o := by
  simp [State.ovrAt, h, hc]

/-- Settles O37: the record that SETCTL leaves holds the bytes both registers had, CLRCTL stores them over what SETCTL
stored, and no other register is touched by either. -/
theorem setThenClearRestoresTheChip : Obligations.SetThenClearRestoresTheChip := by
  intro s w w' c d ch f rest hvok hq hec hch hc hinactive hmode hcmd hdraw he hwf
  obtain ⟨t, hset, ht⟩ := exec_setctl_device (d := d) ⟨hvok, ⟨w, hq⟩, hch, hdraw⟩
    (setManual_stores_of_bank hec hmode hcmd c d) he hwf
  obtain ⟨hconfig, -, -, -, hprofile, hvok', -⟩ := fanControlFrame s t c d (.inl hset)
  have hsaved : (t.accept w').ovrAt c = ⟨true, f ch.modeReg, f ch.cmdReg⟩ := by
    have hview : snapshotView f ch (s.ovrAt c) = ⟨true, f ch.modeReg, f ch.cmdReg⟩ := by simp [snapshotView, hinactive]
    exact hview ▸ State.ovrAt_of_set (t := t.accept w') hc ht.ovr
  obtain ⟨u, hclear, hu⟩ := exec_clrctl_device (s := t.accept w') (ch := ch)
    ⟨by simp [hvok', hvok], ⟨w', rfl⟩, by simp [hprofile, hch], ht.lock⟩ (by rw [hsaved])
    (restoreSaved_stores_of_bank (by simpa [hprofile] using hec) (by simpa [hconfig] using hmode)
      (by simpa [hconfig] using hcmd) c _) ht.reads ht.wf
  refine ⟨t, u, hset, hclear, ?_, ?_⟩
  · convert hu.reads using 1
    funext a
    rw [hsaved]
    split_ifs with hacmd hamode
    · rw [hacmd]
    · rw [hamode]
    · rfl
  · have hc' : c < (t.accept w').ovr.length := by simpa [ht.ovr] using hc
    rw [State.ovrAt_of_set hc' hu.ovr]

end Sys2Proof.Machine

/-! ## DUMP (43_dump.md)

The addresses DUMP reads, its run against a reference device, its empty dump, and what it leaves alone. -/

namespace Sys2Proof.Machine

/-! ### What DUMP leaves alone (R302, R306) -/

/-- Settles O41: events touch no result, and DUMP's commit publishes nothing but the dump buffer. -/
theorem dumpFrame : Obligations.DumpFrame := by
  intro s t h
  rw [exec_eq] at h
  cases h
  have hcommit := ((dumpProg_dump s).resume s.seq.events).run s.env
  simp [commandProg, runCommand, hcommit.keeps]

/-! ### The empty dump (R304) -/

/-- DUMP of an identified block whose lock times out: one event, and a commit of no record. -/
theorem exec_dump_of_timeout {s : State} {w : Word} {rest : List LockOutcome} (hvok : s.vok = true)
    (hq : s.seq = .exec w []) (hdraw : s.env.lockDraws = .timeout :: rest) :
    exec .dump s =
      .next ((s.issue [.acq s.config.tDump .timeout] { s.env with lockDraws := rest }).commit (.dump [])) := by
  have hrun : (dumpProg s).run s.env =
      ⟨.dump [], [.acq s.config.tDump .timeout], { s.env with lockDraws := rest }⟩ := by
    simp [dumpProg, hvok, Prog.run, Env.drawLock, hdraw, Ran.cons]
  rw [exec_eq, runCommand_start hq, commandProg, hrun]

/-- Settles O38: a timed-out acquisition leaves LOCK_HELD as it was, and no record is written over the old ones. -/
theorem dumpTimeoutIsEmpty : Obligations.DumpTimeoutIsEmpty :=
  fun s _ _ hvok hq hdraw => ⟨s.dumpRec, exec_dump_of_timeout hvok hq hdraw⟩

/-! ### The addresses (R301, R303) -/

theorem dumpAddresses_ec {p : Profile} (h : p.family = .ec) (lits : Literals) :
    dumpAddresses lits p = (List.range (lits.ecDumpLast.toNat + 1)).map (BitVec.ofNat 16) := if_pos h

theorem dumpAddresses_bank {p : Profile} (h : p.family ≠ .ec) (lits : Literals) :
    dumpAddresses lits p = p.dumpWindows.flatMap (windowAddresses lits) := if_neg h

/-- All windows have one size, so that the place of an address follows from its window and its place there. -/
theorem windows_getElem? {lits : Literals} {ws : List Addr} {j i : Nat} {base : Addr} (hbase : ws[j]? = some base)
    (hi : i < lits.windowSize) :
    (ws.flatMap (windowAddresses lits))[lits.windowSize * j + i]? = some (base + BitVec.ofNat 16 i) := by
  have hlength : ∀ b, (windowAddresses lits b).length = lits.windowSize := fun b => by simp [windowAddresses]
  induction ws generalizing j with
  | nil => simp at hbase
  | cons b ws ih =>
    rw [List.flatMap_cons]
    cases j with
    | zero =>
      obtain rfl : b = base := by simpa using hbase
      rw [Nat.mul_zero, Nat.zero_add, List.getElem?_append_left (by rwa [hlength])]
      simp [windowAddresses, hi]
    | succ j =>
      have hplace : lits.windowSize * (j + 1) + i = (windowAddresses lits b).length + (lits.windowSize * j + i) := by
        rw [hlength, Nat.mul_succ]
        omega
      rw [hplace, List.getElem?_append_right (Nat.le_add_right _ _), Nat.add_sub_cancel_left]
      exact ih (by simpa using hbase)

/-! ### The run of DUMP against a reference device (R300) -/

/-- What DUMP does with an address: read the register, and keep the byte with its address. -/
def recordAt (h : Handshake) (a : Addr) : Prog DumpRecord := (memRead h a).bind fun v => .done ⟨a, v⟩

/-- The records of registers that read as `f`. -/
def recordsView (f : Addr → Byte) (regs : List Addr) : List DumpRecord := regs.map fun a => ⟨a, f a⟩

theorem recordAt_gives (h : Handshake) (f : Addr → Byte) (a : Addr) :
    Prog.Gives h f (recordAt h a) ⟨a, f a⟩ := (memRead_gives h f a).bind (.done _)

theorem recordAt_reads (h : Handshake) (f : Addr → Byte) (a : Addr) : Prog.Reads h f (recordAt h a) [a] :=
  .bind (memRead_gives h f a) (memRead_reads h f a) (.done _)

theorem records_reads (h : Handshake) (f : Addr → Byte) (regs : List Addr) :
    Prog.Reads h f (Prog.forEach (recordAt h) regs) regs := by
  simpa using Prog.Reads.forEach regs (recordAt_gives h f) (recordAt_reads h f)

/-- DUMP's lock window: a record for each address, and the release. -/
def dumpWindow (s : State) : Prog Commit :=
  (Prog.forEach (recordAt s.handshake) (dumpAddresses s.config.literals s.profile)).bind fun recs =>
    .release (.done (.dump recs))

/-- DUMP of an identified block that obtains the lock. -/
theorem exec_dump_of_lock {s : State} {w : Word} {rest : List LockOutcome} (hvok : s.vok = true)
    (hq : s.seq = .exec w []) (hdraw : s.env.lockDraws = .ok :: rest) {r : Ran Commit}
    (hrun : (dumpWindow s).run { s.env with lockDraws := rest } = r) :
    exec .dump s = .next ((s.issue (.acq s.config.tDump .ok :: r.events) r.env).commit r.value) := by
  have hprog : (dumpProg s).run s.env = r.cons (.acq s.config.tDump .ok) := by
    rw [dumpProg, if_pos hvok, Prog.run, Env.drawLock, hdraw, ← hrun]
    rfl
  rw [exec_eq, runCommand_start hq, commandProg, hprog]
  rfl

/-- DUMP's lock window against a reference device. -/
theorem dumpWindow_device {s : State} {f : Addr → Byte} {regs : List Addr}
    (hregs : dumpAddresses s.config.literals s.profile = regs) {e : Env} (he : Chip.ReadsAs s.handshake e.chip f) :
    ∃ env, (dumpWindow s).run e = ⟨.dump (recordsView f regs), readsOf s.handshake f regs ++ [.rel], env⟩ ∧
      env.chip.memory = e.chip.memory ∧ Chip.ReadsAs s.handshake env.chip f := by
  obtain ⟨hvalue, hreads, hmem, -⟩ := Prog.Gives.forEach regs (recordAt_gives s.handshake f) e he
  refine ⟨_, ?_, hmem, hreads⟩
  rw [dumpWindow, hregs, Prog.run_bind, hvalue, records_reads s.handshake f regs e he]
  rfl

/-- The next state of a DUMP that obtains the lock, against a reference device. -/
theorem exec_dump_device {s : State} {w : Word} {f : Addr → Byte} {rest : List LockOutcome} {regs : List Addr}
    (hvok : s.vok = true) (hq : s.seq = .exec w []) (hdraw : s.env.lockDraws = .ok :: rest) (he : ReadsAs s f)
    (hregs : dumpAddresses s.config.literals s.profile = regs) :
    ∃ env, exec .dump s = .next { s with
        dumpCount := regs.length
        dumpRec := recordsView f regs ++ s.dumpRec.drop regs.length
        trace := s.trace ++ ([.acq s.config.tDump .ok] ++ readsOf s.handshake f regs ++ [.rel])
        env := env, lockHeld := false, done := true, err := false, errcode := 0, seq := .idle } ∧
      env.chip.memory = s.env.chip.memory ∧ Chip.ReadsAs s.handshake env.chip f := by
  obtain ⟨env, hrun, hmem, hreads⟩ := dumpWindow_device hregs (e := { s.env with lockDraws := rest }) he
  have hheld := heldAfterAll_append_rel s.lockHeld (.acq s.config.tDump .ok :: readsOf s.handshake f regs)
  rw [List.cons_append] at hheld
  refine ⟨env, ?_, hmem, hreads⟩
  rw [exec_dump_of_lock hvok hq hdraw hrun, State.issue, hheld, State.commit, recordsView, List.length_map]
  rfl

/-- The new records stand before what is left of the old ones. -/
theorem recordsView_getElem? {f : Addr → Byte} {regs : List Addr} {k : Nat} {a : Addr} (h : regs[k]? = some a)
    (old : List DumpRecord) : (recordsView f regs ++ old)[k]? = some ⟨a, f a⟩ := by
  obtain ⟨hk, -⟩ := List.getElem?_eq_some_iff.1 h
  rw [List.getElem?_append_left (by simpa [recordsView] using hk)]
  simp [recordsView, h]

/-- Settles O39: the addresses of EC_DUMP_RANGE count up from 0, so that record k is the one of address k. -/
theorem ecDumpReadsEveryRegister : Obligations.EcDumpReadsEveryRegister := by
  intro s w f rest hvok hq hec hdraw he
  set n := s.config.literals.ecDumpLast.toNat + 1 with hn
  obtain ⟨env, hexec, hmem, hreads⟩ := exec_dump_device hvok hq hdraw he (dumpAddresses_ec hec _)
  rw [← hn, List.length_map, List.length_range] at hexec
  refine ⟨_, hexec, rfl, fun hlit => by simp [hn, hlit], rfl, fun k hk => BitVec.eq_of_toNat_eq ?_, hmem, hreads⟩
  have hkn : k < n := hk
  have hrange : k < 65536 := by have := s.config.literals.ecDumpLast.isLt; omega
  have hbyte := (f (BitVec.ofNat 16 k)).isLt
  have haddr : ((List.range n).map (BitVec.ofNat 16))[k]? = some (BitVec.ofNat 16 k) := by simp [hkn]
  rw [State.dumpRecWord_toNat, recordsView_getElem? haddr]
  simp only [if_pos hkn, BitVec.toNat_ofNat]
  omega

/-- Settles O40: the windows have one size, which fixes how many records there are and which one is whose. -/
theorem bankDumpReadsTheWindows : Obligations.BankDumpReadsTheWindows := by
  intro s w f rest hvok hq hec hdraw he
  obtain ⟨env, hexec, hmem, hreads⟩ := exec_dump_device hvok hq hdraw he (dumpAddresses_bank hec _)
  rw [windows_length, Nat.mul_comm] at hexec
  exact ⟨_, hexec, rfl, fun hlit => by simp [hlit], rfl,
    fun j i base hbase hi => recordsView_getElem? (windows_getElem? hbase hi) _, hmem, hreads⟩

end Sys2Proof.Machine


/-! ## Exceptions (60_exceptions.md)

The one error a command can raise stands before its lock, and no command and no step but one reset stops the block. -/

namespace Sys2Proof.Machine

/-! ### Raising an error (R322, R325, R327) -/

/-- A command whose pseudocode is nothing but a raise changes the four completion fields alone. -/
theorem exec_of_raise {i : Instr} {s : State} {w : Word} {e : ErrorCode} (hq : s.seq = .exec w [])
    (hheld : s.lockHeld = false) (hraise : commandProg i s = .done (.error e)) :
    exec i s = .next { s with done := true, err := true, errcode := e.code, seq := .idle } := by
  have hends : ((commandProg i s).resume s.seq.events).peek s.env = .ends (.error e) := by
    simp [hraise, hq, Seq.events, Prog.peek]
  rw [exec_eq, runCommand_ends hends]
  exact congrArg _ (State.raiseError_of_not_held hheld e)

/-- The channel check stands between the VOK gate and the lock (42_fan_control.md R261). -/
theorem withChannel_out_of_range {s : State} {c : Nat} (hvok : s.vok = true) (hc : s.profile.ctrls.length ≤ c)
    (window : ControlChannel → Prog Commit) : withChannel s c window = .done (.error .channelRange) := by
  simp [withChannel, hvok, List.getElem?_eq_none hc]

/-- Past the channel check only the lock window can end with an error. -/
theorem withChannel_raise_or_all {s : State} {c : Nat} {window : ControlChannel → Prog Commit}
    (hw : ∀ ch, Prog.All (fun k => k.isError = false) (window ch)) :
    withChannel s c window = .done (.error .channelRange) ∨
      Prog.All (fun k => k.isError = false) (withChannel s c window) := by
  unfold withChannel
  split
  · split
    · exact .inl rfl
    · refine .inr fun r => ?_
      cases r with
      | timeout => rfl
      | ok => exact hw _
  · exact .inr rfl

theorem setWindow_no_error (s : State) (ch : ControlChannel) (c : Nat) (d : Byte) :
    Prog.All (fun k => k.isError = false) (setWindow s ch c d) :=
  (Prog.All.trivial _).bind fun _ _ => (Prog.All.trivial _).bind fun _ _ => rfl

theorem clearWindow_no_error (s : State) (ch : ControlChannel) (c : Nat) :
    Prog.All (fun k => k.isError = false) (clearWindow s ch c) := by
  unfold clearWindow
  split
  · exact (Prog.All.trivial _).bind fun _ _ => rfl
  · exact rfl

theorem Commit.IsSensors.no_error {k : Commit} (h : k.IsSensors) : k.isError = false := by
  cases k with
  | error _ => exact h.elim
  | _ => rfl

theorem Commit.IsDump.no_error {k : Commit} (h : k.IsDump) : k.isError = false := by
  cases k with
  | error _ => exact h.elim
  | _ => rfl

/-- A command's pseudocode raises at once, or ends without an error whatever the bus answers (R327). -/
theorem commandProg_raise_or_all (i : Instr) (s : State) :
    commandProg i s = .done (.error .channelRange) ∨ Prog.All (fun k => k.isError = false) (commandProg i s) := by
  cases i with
  | update => exact .inr ((updateProg_sensors s).mono fun _ => Commit.IsSensors.no_error)
  | setctl c d => exact withChannel_raise_or_all fun ch => setWindow_no_error s ch c d
  | clrctl c => exact withChannel_raise_or_all fun ch => clearWindow_no_error s ch c
  | dump => exact .inr ((dumpProg_dump s).mono fun _ => Commit.IsDump.no_error)

/-- Settles O17: a command that raises at once leaves the trace alone, and any other commits without an error. -/
theorem errorsComeBeforeTheLock : Obligations.ErrorsComeBeforeTheLock := by
  intro i s t w hq hheld hexec herr
  rcases commandProg_raise_or_all i s with hraise | hnone
  · rw [exec_of_raise hq hheld hraise] at hexec
    cases hexec
    rfl
  · have hvalue := hnone.run s.env
    rw [exec_eq, runCommand_start hq] at hexec
    cases hexec
    rw [State.commit_err, hvalue] at herr
    cases herr

theorem fieldCh_assembleWord (op : BitVec 4) {c : Nat} (hc : c < 32) (d : Byte) : fieldCh (assembleWord op c d) = c := by
  obtain ⟨-, -, hch, -⟩ := eq_assembleWord_iff.1 (rfl : assembleWord op c d = _)
  exact fieldCh_eq hc hch

/-- Settles O19: the channel check raises before the lock is asked for, and CMD_LAST is the assembled word. -/
theorem channelRangeIsRaised : Obligations.ChannelRangeIsRaised := by
  intro s c d hvok hheld hc
  have hset : commandProg (.setctl c d) s = .done (.error .channelRange) := withChannel_out_of_range hvok hc _
  have hclear : commandProg (.clrctl c) s = .done (.error .channelRange) := withChannel_out_of_range hvok hc _
  exact ⟨fun w hq => ⟨exec_of_raise hq hheld hset, exec_of_raise hq hheld hclear⟩,
    fun h32 => ⟨fieldCh_assembleWord 0x2 h32 d, fieldCh_assembleWord 0x3 h32 0⟩⟩

/-! ### The block never halts (R328) -/

/-- ProfileResolve refuses only a supported variant's profile that breaks R12 (00_scope.md). -/
theorem resolveProfile_of_fits {c : Config} {v : Byte} (h : ∀ e ∈ c.variants, e.code = v →
    e.profile.family ≠ .unsupported → VariantEntry.fits c.literals e = true) : ∃ p, resolveProfile c v = some p := by
  unfold resolveProfile
  split
  · exact ⟨_, rfl⟩
  · rename_i e hfound
    have hcode : e.code = v := by simpa using List.find?_some hfound
    split
    · exact ⟨_, rfl⟩
    · rename_i hsupported
      exact ⟨_, if_pos (h e (List.mem_of_find?_eq_some hfound) hcode hsupported)⟩

/-- Moving on its own the block always reaches a next state. -/
theorem State.proceed_next (s : State) : ∃ t, s.proceed = .next t := by
  rw [State.proceed_eq]
  split
  · exact ⟨_, rfl⟩
  · exact ⟨_, rfl⟩
  · exact ⟨_, rfl⟩

theorem step_of_wait {s : State} {rest : List HostEvent} (h : s.hostIn = .wait :: rest) : step s = s.hostWait rest := by
  simp [step, State.move, h]

/-- A host that waits gets its STATUS read or lets the block move; either is a next state. -/
theorem State.hostWait_next (rest : List HostEvent) (s : State) : ∃ t, s.hostWait rest = .next t := by
  unfold State.hostWait
  split
  · exact ⟨_, rfl⟩
  · exact s.proceed_next
  · exact s.proceed_next

/-- Settles O12: a command's meaning is to run its program to the commit, which completes it; of the host's actions only
the reset can be refused, when its variant has no profile. -/
theorem blockNeverHalts : Obligations.BlockNeverHalts := by
  refine ⟨fun i s => ⟨_, exec_eq i s, State.commit_seq _ _, State.commit_done _ _⟩, fun s hreset => ?_⟩
  cases hin : s.hostIn with
  | nil => exact step_of_no_host hin ▸ s.proceed_next
  | cons a rest =>
    cases a with
    | access a => exact ⟨_, step_of_access hin⟩
    | tick => exact ⟨_, step_of_tick hin⟩
    | wait => exact step_of_wait hin ▸ s.hostWait_next rest
    | reset v r b =>
      obtain ⟨p, hp⟩ := resolveProfile_of_fits (hreset v r b rest hin)
      rw [step_of_reset hin, State.assertReset, hp]
      exact ⟨_, rfl⟩

end Sys2Proof.Machine

/-! ## Reset and hazards (70_reset_and_hazards.md)

The reset sequence from its start, running in one step and one bus event at a time, and the number of bus events of every
command. -/

namespace Sys2Proof.Machine

/-! ### One event at a time and all at once (R379) -/

/-- How many ticks bring the block to IDLE: one for each event that is left, and one for the end. -/
def State.ticksLeft (s : State) : Nat :=
  match s.seq with
  | .idle => 0
  | .resetting evs => (((resetProg s).resume evs).run s.env).events.length + 1
  | .exec w evs => (((wordProg w s).resume evs).run s.env).events.length + 1

theorem seq_idle_of_ticksLeft_eq_zero {s : State} (h : s.ticksLeft = 0) : s.seq = .idle := by
  unfold State.ticksLeft at h
  split at h
  · assumption
  · cases h
  · cases h

/-- A tick does not change where the block gets on its own. -/
theorem proceed_tick (s : State) : s.tick.proceed = s.proceed := by
  rcases tick_cases s with ⟨-, h⟩ | ⟨evs, hq, h⟩ | ⟨w, evs, hq, h⟩
  · rw [h]
  · rw [h, s.proceed_eq, stepReset]
    split
    · rename_i ok hends
      simp [hq, runReset_ends hends, State.proceed]
    · rename_i e env hissues
      simp [hq, runReset_issues (by simp [hq]) hissues, State.proceed, Seq.advance]
  · rw [h, s.proceed_eq, stepCommand]
    split
    · rename_i c hends
      simp [hq, runCommand_ends hends, State.proceed]
    · rename_i e env hissues
      simp [hq, runCommand_issues (by simp [hq]) hissues, State.proceed_eq, Seq.advance,
        wordProg_congr w (State.issue_wiring [e] env s)]

/-- A tick of a block that is BUSY is one of the ticks left. -/
theorem ticksLeft_tick {s : State} (hbusy : s.seq ≠ .idle) : s.tick.ticksLeft + 1 = s.ticksLeft := by
  rcases tick_cases s with ⟨hq, -⟩ | ⟨evs, hq, h⟩ | ⟨w, evs, hq, h⟩
  · exact absurd hq hbusy
  · rw [h, stepReset]
    simp only [hq, Seq.events]
    split
    · rename_i ok hends
      simp [State.ticksLeft, hq, Prog.run_of_ends hends]
    · rename_i e env hissues
      simp [State.ticksLeft, hq, Seq.advance, Prog.run_of_issues hissues, Prog.resume_snoc,
        resetProg_congr (State.issue_wiring [e] env s)]
  · rw [h, stepCommand]
    simp only [hq, Seq.events]
    split
    · rename_i c hends
      simp [State.ticksLeft, hq, Prog.run_of_ends hends]
    · rename_i e env hissues
      simp [State.ticksLeft, hq, Seq.advance, Prog.run_of_issues hissues, Prog.resume_snoc,
        wordProg_congr w (State.issue_wiring [e] env s)]

/-- The same block before other actions of the host. -/
def State.withHostIn (l : List HostEvent) (s : State) : State := { s with hostIn := l }

@[simp] theorem State.withHostIn_seq (l : List HostEvent) (s : State) : (s.withHostIn l).seq = s.seq := rfl
@[simp] theorem State.withHostIn_env (l : List HostEvent) (s : State) : (s.withHostIn l).env = s.env := rfl
@[simp] theorem State.withHostIn_hostIn (l : List HostEvent) (s : State) : (s.withHostIn l).hostIn = l := rfl
@[simp] theorem State.withHostIn_wiring (l : List HostEvent) (s : State) : (s.withHostIn l).wiring = s.wiring := rfl
@[simp] theorem State.withHostIn_withHostIn (l k : List HostEvent) (s : State) :
    (s.withHostIn l).withHostIn k = s.withHostIn k := rfl

theorem State.commit_withHostIn (c : Commit) (l : List HostEvent) (s : State) :
    (s.withHostIn l).commit c = (s.commit c).withHostIn l := by
  cases c with
  | error e =>
    cases hheld : s.lockHeld with
    | true => simp [State.withHostIn, State.commit, State.raiseError, State.freeLock, hheld, State.issue]
    | false => simp [State.withHostIn, State.commit, State.raiseError, State.freeLock, hheld]
  | _ => rfl

theorem stepReset_withHostIn (l : List HostEvent) (s : State) :
    stepReset (s.withHostIn l) = (stepReset s).withHostIn l := by
  simp only [stepReset, resetProg_congr (s.withHostIn_wiring l), State.withHostIn_seq, State.withHostIn_env]
  split <;> rfl

theorem stepCommand_withHostIn (p : Prog Commit) (l : List HostEvent) (s : State) :
    stepCommand p (s.withHostIn l) = (stepCommand p s).withHostIn l := by
  simp only [stepCommand, State.withHostIn_seq, State.withHostIn_env]
  split
  · exact State.commit_withHostIn _ l s
  · rfl

/-- A tick does not look at what the host does next. -/
theorem State.tick_withHostIn (l : List HostEvent) (s : State) : (s.withHostIn l).tick = s.tick.withHostIn l := by
  simp only [State.tick, State.withHostIn_seq]
  split
  · rfl
  · exact stepReset_withHostIn l s
  · rw [wordProg_congr _ (s.withHostIn_wiring l)]
    exact stepCommand_withHostIn _ l s

/-- As many ticks as are left end where the block gets on its own. -/
theorem steps_ticksLeft {s : State} {n : Nat} (hin : s.hostIn = []) (hn : s.ticksLeft = n) :
    steps n (s.withHostIn (List.replicate n .tick)) = s.proceed := by
  have hself : s.withHostIn [] = s := by rw [State.withHostIn, ← hin]
  induction n generalizing s with
  | zero =>
    have hidle := seq_idle_of_ticksLeft_eq_zero hn
    rw [State.proceed_eq, hidle]
    exact congrArg _ hself
  | succ n ih =>
    have hbusy : s.seq ≠ .idle := fun hq => by simp [State.ticksLeft, hq] at hn
    have hself' : s.tick.withHostIn [] = s.tick := by rw [← State.tick_withHostIn, hself]
    have hstep : step (s.withHostIn (List.replicate (n + 1) .tick)) =
        .next (s.tick.withHostIn (List.replicate n .tick)) := by
      rw [← State.tick_withHostIn]
      exact step_of_tick rfl
    rw [steps, hstep, ← proceed_tick s]
    exact ih (by rw [← hself']; rfl) (by have := ticksLeft_tick hbusy; omega) hself'

/-- Settles O10: one tick for each event that is left, and one for the commit or the end of the reset sequence. -/
theorem ticksReachTheSameCommit : Obligations.TicksReachTheSameCommit := by
  intro s
  refine ⟨(s.withHostIn []).ticksLeft, ?_⟩
  rw [step_of_no_host rfl]
  exact steps_ticksLeft (s := s.withHostIn []) rfl rfl

/-! ### The reset sequence (R361 to R365) -/

/-- The reset sequence run from its start. -/
theorem runReset_start {s : State} (hq : s.seq = .resetting []) :
    runReset s = (s.issue ((resetProg s).run s.env).events ((resetProg s).run s.env).env).endReset
      ((resetProg s).run s.env).value := by
  simp [runReset, hq, Seq.events]

/-- Without identity registers the reset sequence runs out before its first event (R364). -/
theorem resetProg_of_no_identity {s : State} (hfamily : s.profile.family ≠ .unsupported)
    (hvendor : s.profile.hasVendorId = false) : resetProg s = .done true := by
  simp [resetProg, hfamily, hvendor]

theorem resetProg_of_identity {s : State} (hfamily : s.profile.family ≠ .unsupported)
    (hvendor : s.profile.hasVendorId = true) : resetProg s = resetProbe s := by
  simp [resetProg, hfamily, hvendor]

/-- A probe that does not obtain the lock confirms nothing (R362). -/
theorem resetProbe_of_timeout {s : State} {e : Env} {rest : List LockOutcome} (hdraw : e.lockDraws = .timeout :: rest) :
    (resetProbe s).run e = ⟨false, [.acq s.config.tProbe .timeout], { e with lockDraws := rest }⟩ := by
  simp [resetProbe, Prog.run, Env.drawLock, hdraw, Ran.cons]

/-- A probe that obtains the lock decides by the next two answers (R362). -/
theorem resetProbe_oracle {s : State} {e : Env} {rest : List LockOutcome} {hi lo : Byte} {more : List Byte}
    (hfamily : s.profile.family ≠ .unsupported) (hvendor : s.profile.hasVendorId = true)
    (hdraw : e.lockDraws = .ok :: rest) (hchip : e.chip = .oracle (hi :: lo :: more)) :
    (resetProbe s).run e = ⟨decide (hi ++ lo = s.profile.vendorId),
      [.acq s.config.tProbe .ok] ++ readEvents s.handshake s.profile.vendorHiReg hi ++
        readEvents s.handshake s.profile.vendorLoReg lo ++ [.rel],
      { e with chip := .oracle more, lockDraws := rest }⟩ := by
  have hread := readVendorId_oracle (State.handshake_ne_absent hfamily) s.profile { e with lockDraws := rest } hchip
  simp only [resetProbe, vendorProbe, if_pos hvendor, Prog.run, Env.drawLock, hdraw, Prog.run_bind, hread]
  rfl

/-- The block after a reset action that was the host's last one: its reset values, before the sequence. -/
def State.loaded (p : Profile) (v r : Byte) (b : Addr) (s : State) : State :=
  (s.withHostIn []).freeLock.initialise p v r b

@[simp] theorem State.loaded_config (p : Profile) (v r : Byte) (b : Addr) (s : State) :
    (s.loaded p v r b).config = s.config := by simp [State.loaded, State.withHostIn]
@[simp] theorem State.loaded_profile (p : Profile) (v r : Byte) (b : Addr) (s : State) :
    (s.loaded p v r b).profile = p := rfl
@[simp] theorem State.loaded_env (p : Profile) (v r : Byte) (b : Addr) (s : State) :
    (s.loaded p v r b).env = s.env := by simp [State.loaded, State.withHostIn]
@[simp] theorem State.loaded_lockHeld (p : Profile) (v r : Byte) (b : Addr) (s : State) :
    (s.loaded p v r b).lockHeld = false := by simp [State.loaded]
@[simp] theorem State.loaded_trace (p : Profile) (v r : Byte) (b : Addr) (s : State) :
    (s.loaded p v r b).trace = s.trace ++ (if s.lockHeld then [.rel] else []) := by
  simp [State.loaded, State.withHostIn]
@[simp] theorem State.loaded_hostIn (p : Profile) (v r : Byte) (b : Addr) (s : State) :
    (s.loaded p v r b).hostIn = [] := by simp [State.loaded]
@[simp] theorem State.loaded_hostOut (p : Profile) (v r : Byte) (b : Addr) (s : State) :
    (s.loaded p v r b).hostOut = s.hostOut := by simp [State.loaded, State.withHostIn]

/-- A reset action whose profile resolves, and the step after it, which runs the sequence. -/
theorem steps_two_of_reset {s : State} {v r : Byte} {b : Addr} {p : Profile} (hin : s.hostIn = [.reset v r b])
    (hp : resolveProfile s.config v = some p) : steps 2 s = .next (runReset (s.loaded p v r b)) := by
  have hload : step s = .next (s.loaded p v r b) := by
    rw [step_of_reset hin, State.assertReset, hp]
    rfl
  rw [steps_two hload, step_of_resetting (by simp) rfl]

/-- Settles O44: the sequence is over at once without a probe, and the probe ends by its lock outcome and two answers. -/
theorem resetProbeDecidesVok : Obligations.ResetProbeDecidesVok := by
  intro s hin hq hheld
  rw [step_of_resetting hin hq, runReset_start hq]
  refine ⟨fun hfamily => ?_, fun hfamily hvendor => ?_, fun hfamily hvendor rest hdraw => ?_,
    fun hfamily hvendor rest hi lo more hdraw hchip => ?_⟩
  · rw [resetProg_sound s hfamily]
    simp [Prog.run, State.issue_nil, State.endReset]
  · rw [resetProg_of_no_identity hfamily hvendor]
    simp [Prog.run, State.issue_nil, State.endReset]
  · rw [resetProg_of_identity hfamily hvendor, resetProbe_of_timeout hdraw]
    rfl
  · have hheld' := lockRun_heldAfterAll ((resetProg_balanced s).run s.env)
    rw [resetProg_of_identity hfamily hvendor, resetProbe_oracle hfamily hvendor hdraw hchip] at hheld' ⊢
    simp only [State.issue, State.endReset, hheld, hheld']

theorem readEvents_length {h : Handshake} (hports : h ≠ .absent) (a : Addr) (v : Byte) :
    (readEvents h a v).length = 4 := by
  cases h with
  | absent => exact absurd rfl hports
  | bank _ _ _ => rfl
  | paged _ _ _ _ => rfl

/-- Settles O43: the reset action gives every field its value and frees the lock, and the sequence after it issues the
disciplined events of its program and sets VOK to its result. -/
theorem resetGivesTheResetValues : Obligations.ResetGivesTheResetValues := by
  intro s v r b p hin hp
  have hlock : lockRun false ((resetProg (s.loaded p v r b)).run s.env).events = some false :=
    (resetProg_balanced _).run s.env
  have hfree := lockRun_heldAfterAll hlock
  refine ⟨_, ((resetProg (s.loaded p v r b)).run s.env).events, steps_two_of_reset hin hp, ?_⟩
  rw [runReset_start rfl, State.loaded_env]
  refine ⟨rfl, rfl, rfl, rfl, by simp, rfl, rfl, rfl, rfl, rfl, rfl, rfl, rfl, rfl, rfl, rfl, rfl, rfl, by simpa using hfree,
    by simp, by simp, by simp, hlock, fun hfamily => ?_, fun hfamily hvendor => ?_, fun hfamily hvendor rest hdraw => ?_,
    fun hfamily hvendor rest hi lo more hdraw hchip => ?_⟩
  · rw [resetProg_sound _ hfamily]
    exact ⟨rfl, rfl⟩
  · rw [resetProg_of_no_identity hfamily hvendor]
    exact ⟨rfl, rfl⟩
  · rw [resetProg_of_identity hfamily hvendor, resetProbe_of_timeout hdraw]
    simp
  · have hports : (s.loaded p v r b).handshake ≠ .absent := State.handshake_ne_absent hfamily
    rw [resetProg_of_identity hfamily hvendor, resetProbe_oracle hfamily hvendor hdraw hchip]
    exact ⟨rfl, by simp [readEvents_length hports]⟩

/-- The table of State.reset has one entry, whose profile has the counts of the EC family. -/
theorem resolveProfile_implementation :
    resolveProfile Config.implementation Config.openVariantCode = some Config.ecProfile := by
  have hfind : findVariant Config.implementation Config.openVariantCode =
      some { code := Config.openVariantCode, nV := 14, nT := 7, nF := 8, nC := 8, profile := Config.ecProfile } :=
    List.find?_cons_of_pos (beq_self_eq_true _)
  rw [resolveProfile, hfind]
  rfl

/-- Settles O46: the EC profile has no identity registers, so the sequence sets VOK with no event, and every other field of
State.reset is one that the reset action gives. -/
theorem resetStateIsTheSequencesEnd : Obligations.ResetStateIsTheSequencesEnd := by
  rw [Obligations.ResetStateIsTheSequencesEnd, steps_two_of_reset rfl resolveProfile_implementation,
    runReset_start rfl, resetProg_of_no_identity (by decide) rfl]
  rfl

end Sys2Proof.Machine

namespace Sys2Proof.Machine

/-! ### How many events a program issues (R378) -/

/-- The program issues at least `lo` and at most `hi` bus events, whatever the chip and the lock answer. -/
def Prog.Issues {α : Type} (lo hi : Nat) (p : Prog α) : Prop :=
  ∀ e : Env, lo ≤ (p.run e).events.length ∧ (p.run e).events.length ≤ hi

section Programs

variable {α β ι : Type}

theorem Prog.Issues.mono {lo hi lo' hi' : Nat} {p : Prog α} (h : p.Issues lo hi) (hlo : lo' ≤ lo) (hhi : hi ≤ hi') :
    p.Issues lo' hi' := fun e => ⟨hlo.trans (h e).1, (h e).2.trans hhi⟩

theorem Prog.Issues.exact {n : Nat} {p : Prog α} (h : p.Issues n n) (e : Env) : (p.run e).events.length = n :=
  le_antisymm (h e).2 (h e).1

theorem Prog.Issues.of_length {n : Nat} {p : Prog α} (h : ∀ e, (p.run e).events.length = n) : p.Issues n n :=
  fun e => ⟨(h e).ge, (h e).le⟩

theorem Prog.Issues.done (a : α) : (Prog.done a).Issues 0 0 := .of_length fun _ => rfl

theorem Prog.Issues.bind {lo hi lo' hi' : Nat} {p : Prog α} {f : α → Prog β} (hp : p.Issues lo hi)
    (hf : ∀ a, (f a).Issues lo' hi') : (p.bind f).Issues (lo + lo') (hi + hi') := by
  intro e
  rw [Prog.run_bind]
  simp only [List.length_append]
  exact ⟨Nat.add_le_add (hp e).1 (hf _ _).1, Nat.add_le_add (hp e).2 (hf _ _).2⟩

/-- What follows only computes the result. -/
theorem Prog.Issues.map {lo hi : Nat} {p : Prog α} (hp : p.Issues lo hi) (f : α → β) :
    (p.bind fun a => .done (f a)).Issues lo hi := hp.bind fun a => .done (f a)

theorem Prog.Issues.delay {lo hi : Nat} {p : Prog α} (hp : p.Issues lo hi) (ms : Nat) :
    (Prog.delay ms p).Issues (lo + 1) (hi + 1) :=
  fun e => ⟨Nat.succ_le_succ (hp e).1, Nat.succ_le_succ (hp e).2⟩

theorem Prog.Issues.release {lo hi : Nat} {p : Prog α} (hp : p.Issues lo hi) : (Prog.release p).Issues (lo + 1) (hi + 1) :=
  fun e => ⟨Nat.succ_le_succ (hp e).1, Nat.succ_le_succ (hp e).2⟩

theorem Prog.Issues.forEach {lo hi : Nat} {f : ι → Prog α} (h : ∀ x, (f x).Issues lo hi) (xs : List ι) :
    (Prog.forEach f xs).Issues (lo * xs.length) (hi * xs.length) := by
  induction xs with
  | nil => exact .done []
  | cons x xs ih =>
    refine ((h x).bind fun a => ih.map (a :: ·)).mono ?_ ?_ <;> rw [List.length_cons, Nat.mul_succ, Nat.add_comm]

end Programs

section Registers

variable {h : Handshake} (hports : h ≠ .absent)
include hports

theorem writeEvents_length (a : Addr) (v : Byte) : (writeEvents h a v).length = 4 := by
  cases h with
  | absent => exact absurd rfl hports
  | bank _ _ _ => rfl
  | paged _ _ _ _ => rfl

theorem memRead_issues (a : Addr) : (memRead h a).Issues 4 4 :=
  .of_length fun e => by rw [memRead_events, readEvents_length hports]

theorem memWrite_issues (a : Addr) (v : Byte) : (memWrite h a v).Issues 4 4 :=
  .of_length fun e => by rw [memWrite_events, writeEvents_length hports]

theorem memReadPair_issues (a : Addr) : (memReadPair h a).Issues 8 8 :=
  (memRead_issues hports a).bind fun b => (memRead_issues hports _).map (b, ·)

theorem recordAt_issues (a : Addr) : (recordAt h a).Issues 4 4 := (memRead_issues hports a).map _

theorem vendorProbe_issues (p : Profile) : (vendorProbe h p).Issues 0 8 := by
  unfold vendorProbe
  split
  · refine Prog.Issues.mono ?_ (Nat.zero_le 8) (Nat.le_refl 8)
    exact (memRead_issues hports _).bind fun hi => (memRead_issues hports _).map _
  · exact (Prog.Issues.done true).mono (Nat.le_refl 0) (Nat.zero_le 8)

theorem snapshotOnce_issues (ch : ControlChannel) (o : Override) :
    (snapshotOnce h ch o).Issues (if o.active then 0 else 8) (if o.active then 0 else 8) := by
  unfold snapshotOnce
  split
  · exact .done o
  · exact (memRead_issues hports _).bind fun m => (memRead_issues hports _).map _

theorem bankDrive_issues (ch : ControlChannel) (mode cmd : Byte) : (bankDrive h ch mode cmd).Issues 8 8 :=
  (memWrite_issues hports _ _).bind fun _ => memWrite_issues hports _ _

theorem ecApply_issues (p : Profile) (ch : ControlChannel) (cmd : Byte) : (ecApply h p ch cmd).Issues 14 14 :=
  (memWrite_issues hports _ _).bind fun _ => .delay ((memWrite_issues hports _ _).bind fun _ =>
    (memWrite_issues hports _ _).bind fun _ => .delay (.done ()) _) _

theorem ecDrive_issues (p : Profile) (ch : ControlChannel) (mode : Byte → Byte) (cmd : Byte) :
    (ecDrive h p ch mode cmd).Issues 22 22 :=
  (memRead_issues hports _).bind fun _ => (memWrite_issues hports _ _).bind fun _ => ecApply_issues hports p ch cmd

end Registers

/-! ### SETCTL and CLRCTL (42_fan_control.md R266, R268, R272) -/

section FanControl

variable {s : State} (hfamily : s.profile.family ≠ .unsupported)
include hfamily

theorem setManual_issues (ch : ControlChannel) (c : Nat) (d : Byte) :
    (setManual s ch c d).Issues (if s.profile.family = .ec then 22 else 8) (if s.profile.family = .ec then 22 else 8) := by
  have hports := State.handshake_ne_absent hfamily
  split
  · rw [setManual_of_ec ‹_›]
    exact ecDrive_issues hports _ ch _ _
  · rw [setManual_of_bank ‹_›]
    exact bankDrive_issues hports ch _ _

theorem restoreSaved_issues (ch : ControlChannel) (c : Nat) (o : Override) :
    (restoreSaved s ch c o).Issues (if s.profile.family = .ec then 22 else 8)
      (if s.profile.family = .ec then 22 else 8) := by
  have hports := State.handshake_ne_absent hfamily
  split
  · rw [restoreSaved_of_ec ‹_›]
    exact ecDrive_issues hports _ ch _ _
  · rw [restoreSaved_of_bank ‹_›]
    exact bankDrive_issues hports ch _ _

/-- SETCTL's window but for the lock events: a snapshot the first time, and the manual mode. -/
theorem setWindow_length (ch : ControlChannel) (c : Nat) (d : Byte) (e : Env) :
    ((setWindow s ch c d).run e).events.length =
      (if (s.ovrAt c).active then 0 else 8) + (if s.profile.family = .ec then 22 else 8) + 1 := by
  have h := (snapshotOnce_issues (State.handshake_ne_absent hfamily) ch (s.ovrAt c)).bind fun o =>
    (setManual_issues hfamily ch c d).bind fun _ => (Prog.Issues.done (Commit.override c o)).release
  exact h.exact e

theorem clearWindow_length (ch : ControlChannel) (c : Nat) (e : Env) :
    ((clearWindow s ch c).run e).events.length =
      (if (s.ovrAt c).active then (if s.profile.family = .ec then 22 else 8) else 0) + 1 := by
  split
  · rename_i hactive
    rw [clearWindow_of_active hactive]
    exact ((restoreSaved_issues hfamily ch c _).bind fun _ => (Prog.Issues.done _).release).exact e
  · rename_i hinactive
    rw [clearWindow_of_inactive (by simpa using hinactive)]
    rfl

end FanControl

/-! ### DUMP (43_dump.md R301, R303) -/

theorem dumpAddresses_count (lits : Literals) (p : Profile) : (dumpAddresses lits p).length =
    if p.family = .ec then lits.ecDumpLast.toNat + 1 else lits.windowSize * p.dumpWindows.length := by
  split
  · rw [dumpAddresses_ec ‹_›, List.length_map, List.length_range]
  · rw [dumpAddresses_bank ‹_›, windows_length, Nat.mul_comm]

theorem dumpWindow_length {s : State} (hfamily : s.profile.family ≠ .unsupported) (e : Env) :
    ((dumpWindow s).run e).events.length = 4 * (dumpAddresses s.config.literals s.profile).length + 1 :=
  ((Prog.Issues.forEach (recordAt_issues (State.handshake_ne_absent hfamily)) _).bind fun recs =>
    (Prog.Issues.done (Commit.dump recs)).release).exact e

/-! ### The bound of UPDATE (41_update.md R225) -/

theorem unlock_issues (us : List UnlockEvent) : (unlock us).Issues us.length us.length := by
  induction us with
  | nil => exact .done ()
  | cons u us ih =>
    have hone : (unlockEvent u).Issues 1 1 := .of_length fun e => by cases u <;> rfl
    rw [List.length_cons, Nat.add_comm]
    exact hone.bind fun _ => ih

section Update

variable {s : State} (hfamily : s.profile.family ≠ .unsupported)
include hfamily

theorem quirkStep_issues : (quirkStep s).Issues 0 (8 + s.profile.unlockSeq.length) := by
  unfold quirkStep
  split
  · refine (vendorProbe_issues (State.handshake_ne_absent hfamily) s.profile).bind (lo' := 0) fun ok => ?_
    split
    · exact (Prog.Issues.done ()).mono (Nat.le_refl 0) (Nat.zero_le _)
    · exact (unlock_issues _).mono (Nat.zero_le _) (Nat.le_refl _)
  · exact (Prog.Issues.done ()).mono (Nat.le_refl 0) (Nat.zero_le _)

/-- A voltage is one register, or two on EC. -/
theorem channelVolt_issues (ch : VoltChannel) : (channelVolt s ch).Issues 4 8 := by
  have hports := State.handshake_ne_absent hfamily
  unfold channelVolt
  split
  · exact ((memReadPair_issues hports _).map _).mono (by decide) (by decide)
  · exact ((memRead_issues hports _).map _).mono (by decide) (by decide)

theorem vbatGate_issues (ch : VoltChannel) (v : Option ℚ) : (vbatGate s ch v).Issues 0 4 := by
  unfold vbatGate
  split
  · exact ((memRead_issues (State.handshake_ne_absent hfamily) _).map _).mono (by decide) (by decide)
  · exact (Prog.Issues.done v).mono (by decide) (by decide)

theorem voltagePhase_issues :
    (voltagePhase s).Issues (4 * s.profile.volts.length) (12 * s.profile.volts.length) :=
  .forEach (fun ch => (channelVolt_issues hfamily ch).bind fun v => vbatGate_issues hfamily ch v) _

/-- A slot is its register and, with a half bit, its half register. -/
theorem slotValue_issues (slot : TempSlot) : (slotValue s slot).Issues 4 8 := by
  have hports := State.handshake_ne_absent hfamily
  refine (memRead_issues hports _).bind (lo' := 0) (hi' := 4) fun p => ?_
  split
  · exact ((memRead_issues hports _).map _).mono (by decide) (by decide)
  · exact (Prog.Issues.done _).mono (by decide) (by decide)

theorem primarySlots_issues (slots : List TempSlot) (w : TempWork) :
    (primarySlots s slots w).Issues (8 * slots.length) (12 * slots.length) := by
  induction slots generalizing w with
  | nil => exact .done w
  | cons slot rest ih =>
    refine Prog.Issues.mono ((slotValue_issues hfamily slot).bind fun q =>
      (memRead_issues (State.handshake_ne_absent hfamily) slot.srcReg).bind fun src => ih _) ?_ ?_ <;>
    · rw [List.length_cons]
      omega

theorem fallbackSensor_issues (alt : Option Addr) (masked : Bool) (t : Option ℚ) :
    (fallbackSensor s alt masked t).Issues 0 4 := by
  unfold fallbackSensor
  split
  · exact ((memRead_issues (State.handshake_ne_absent hfamily) _).map _).mono (by decide) (by decide)
  · exact (Prog.Issues.done t).mono (by decide) (by decide)
  · exact (Prog.Issues.done t).mono (by decide) (by decide)

/-- The fallback looks at no more sensors than the profile has. -/
theorem fallback_issues (w : TempWork) : (fallback s w).Issues 0 (4 * s.profile.temps.length) := by
  refine Prog.Issues.mono (.forEach (fun _ => fallbackSensor_issues hfamily _ _ _) _) (Nat.zero_le _)
    (Nat.mul_le_mul_left 4 ?_)
  rw [List.length_zip, List.length_map]
  exact Nat.min_le_left _ _

theorem tempPhase_issues : (tempPhase s).Issues (8 * s.profile.temps.length) (16 * s.profile.temps.length) := by
  unfold tempPhase
  split
  · refine Prog.Issues.mono (.forEach (lo := 8) (hi := 8) (fun slot => ?_) _) (Nat.le_refl _) (by omega)
    exact (memReadPair_issues (State.handshake_ne_absent hfamily) _).map _
  · refine Prog.Issues.mono ((primarySlots_issues hfamily _ _).bind fun w => fallback_issues hfamily w) ?_ ?_ <;> omega

theorem fanPhase_issues : (fanPhase s).Issues (8 * s.profile.fans.length) (8 * s.profile.fans.length) :=
  .forEach (fun _ => (memReadPair_issues (State.handshake_ne_absent hfamily) _).map _) _

theorem controlPhase_issues : (controlPhase s).Issues (4 * s.profile.ctrls.length) (4 * s.profile.ctrls.length) :=
  .forEach (fun _ => memRead_issues (State.handshake_ne_absent hfamily) _) _

/-- UPDATE's window but for the acquisition. -/
theorem refresh_length_le (e : Env) : ((refresh s).run e).events.length ≤
    1 + 8 + s.profile.unlockSeq.length + 4 * (3 * s.profile.volts.length + 4 * s.profile.temps.length +
      2 * s.profile.fans.length + s.profile.ctrls.length) := by
  have h : (refresh s).Issues _ _ := (quirkStep_issues hfamily).bind fun _ => (voltagePhase_issues hfamily).bind fun _ =>
    (tempPhase_issues hfamily).bind fun _ => (fanPhase_issues hfamily).bind fun _ =>
      (controlPhase_issues hfamily).bind fun _ => (Prog.Issues.done _).release
  have := (h e).2
  omega

end Update

/-! ### The event counts of the commands -/

/-- A commit without an error issues nothing. -/
theorem State.commit_trace_of_no_error {c : Commit} (h : c.isError = false) (s : State) : (s.commit c).trace = s.trace := by
  cases c with
  | error _ => cases h
  | _ => rfl

/-- A command that obtains the lock adds the acquisition and the events of its window to the trace. -/
theorem window_trace_length {p : Prog Commit} (hp : Prog.All (fun k => k.isError = false) p) (s : State) (t : Nat)
    (r : LockOutcome) (e : Env) :
    ((s.issue (.acq t r :: (p.run e).events) (p.run e).env).commit (p.run e).value).trace.length =
      s.trace.length + 1 + (p.run e).events.length := by
  rw [State.commit_trace_of_no_error (hp.run e)]
  simp only [State.issue_trace, List.length_append, List.length_cons]
  omega

/-- A command that does not obtain the lock adds the acquisition to the trace. -/
theorem timeout_trace_length {c : Commit} (h : c.isError = false) (s : State) (t : Nat) (r : LockOutcome) (e : Env) :
    ((s.issue [.acq t r] e).commit c).trace.length = s.trace.length + 1 :=
  window_trace_length (p := .done c) h s t r e

theorem refresh_no_error (s : State) : Prog.All (fun k => k.isError = false) (refresh s) :=
  (Prog.All.trivial _).bind fun _ _ => (Prog.All.trivial _).bind fun _ _ => (Prog.All.trivial _).bind fun _ _ =>
    (Prog.All.trivial _).bind fun _ _ => (Prog.All.trivial _).bind fun _ _ => rfl

theorem dumpWindow_no_error (s : State) : Prog.All (fun k => k.isError = false) (dumpWindow s) :=
  (Prog.All.trivial _).bind fun _ _ => rfl

/-- No event for VOK = 0 and for an error. -/
theorem trace_of_unidentified_or_error {i : Instr} {s t : State} {w : Word} (hq : s.seq = .exec w [])
    (hheld : s.lockHeld = false) (hexec : exec i s = .next t) (h : s.vok = false ∨ t.err = true) : t.trace = s.trace := by
  rcases h with hvok | herr
  · rw [unidentifiedBlockDoesNothing i s w hvok hq] at hexec
    cases hexec
    rfl
  · exact errorsComeBeforeTheLock i s t w hq hheld hexec herr

/-- UPDATE with the lock stays within the bound of R225. -/
theorem exec_update_trace_le {s : State} {w : Word} {rest : List LockOutcome} (hvok : s.vok = true)
    (hq : s.seq = .exec w []) (hfamily : s.profile.family ≠ .unsupported) (hdraw : s.env.lockDraws = .ok :: rest) :
    ∃ u, exec .update s = .next u ∧
      u.trace.length ≤ s.trace.length + 2 + 8 + s.profile.unlockSeq.length + 4 * (3 * s.profile.volts.length +
        4 * s.profile.temps.length + 2 * s.profile.fans.length + s.profile.ctrls.length) := by
  refine ⟨_, exec_update_of_lock hvok hq hdraw rfl, ?_⟩
  have hwindow := refresh_length_le hfamily { s.env with lockDraws := rest }
  rw [window_trace_length (refresh_no_error s)]
  omega

/-- DUMP with the lock is four events for each address, and the two of the lock. -/
theorem exec_dump_trace_length {s : State} {w : Word} {rest : List LockOutcome} (hvok : s.vok = true)
    (hq : s.seq = .exec w []) (hfamily : s.profile.family ≠ .unsupported) (hdraw : s.env.lockDraws = .ok :: rest) :
    ∃ x, exec .dump s = .next x ∧ x.trace.length = s.trace.length + 2 +
      (if s.profile.family = .ec then 4 * (s.config.literals.ecDumpLast.toNat + 1)
       else 4 * s.config.literals.windowSize * s.profile.dumpWindows.length) := by
  refine ⟨_, exec_dump_of_lock hvok hq hdraw rfl, ?_⟩
  rw [window_trace_length (dumpWindow_no_error s), dumpWindow_length hfamily, dumpAddresses_count]
  split <;> ring

/-- SETCTL with the lock (42_fan_control.md R266). -/
theorem exec_setctl_trace_length {s : State} {c : Nat} {d : Byte} {ch : ControlChannel} {rest : List LockOutcome}
    (hopen : WindowOpens s c ch rest) (hfamily : s.profile.family ≠ .unsupported) :
    ∃ t, exec (.setctl c d) s = .next t ∧ t.trace.length = s.trace.length +
      (if s.profile.family = .ec then (if (s.ovrAt c).active then 24 else 32)
        else (if (s.ovrAt c).active then 10 else 18)) := by
  refine ⟨_, exec_of_window (window := fun ch => setWindow s ch c d) hopen rfl rfl, ?_⟩
  rw [window_trace_length (setWindow_no_error s ch c d), setWindow_length hfamily]
  split_ifs <;> rfl

/-- CLRCTL with the lock (42_fan_control.md R268, R269). -/
theorem exec_clrctl_trace_length {s : State} {c : Nat} {ch : ControlChannel} {rest : List LockOutcome}
    (hopen : WindowOpens s c ch rest) (hfamily : s.profile.family ≠ .unsupported) :
    ∃ v, exec (.clrctl c) s = .next v ∧ v.trace.length = s.trace.length +
      (if (s.ovrAt c).active then (if s.profile.family = .ec then 24 else 10) else 2) := by
  refine ⟨_, exec_of_window (window := fun ch => clearWindow s ch c) hopen rfl rfl, ?_⟩
  rw [window_trace_length (clearWindow_no_error s ch c), clearWindow_length hfamily]
  split_ifs <;> rfl

/-- Settles O42: a command without VOK and one that raises are over before the lock; else the trace grows by the acquisition
and, with the lock, by the window, whose events are four for each register access and one for each delay, unlock event and
release. -/
theorem eventCounts : Obligations.EventCounts := by
  refine ⟨fun s t w i hq hheld hexec h => trace_of_unidentified_or_error hq hheld hexec h,
    fun s w r rest hvok hq hfamily hdraw => ?_, fun s w c d r rest hvok hq hfamily hdraw hc => ?_⟩
  · cases r with
    | timeout =>
      exact ⟨_, _, exec_update_of_timeout hvok hq hdraw, exec_dump_of_timeout hvok hq hdraw,
        fun _ => ⟨timeout_trace_length rfl s _ _ _, timeout_trace_length rfl s _ _ _⟩, nofun⟩
    | ok =>
      obtain ⟨u, hupdate, hu⟩ := exec_update_trace_le hvok hq hfamily hdraw
      obtain ⟨x, hdump, hx⟩ := exec_dump_trace_length hvok hq hfamily hdraw
      refine ⟨u, x, hupdate, hdump, nofun, fun _ => ⟨hu, hx, fun hlit => ?_⟩⟩
      rw [hx, hlit, Nat.add_assoc]
      split <;> rfl
  · cases r with
    | timeout =>
      exact ⟨_, _, exec_control_of_timeout hvok hq hc hdraw rfl, exec_control_of_timeout hvok hq hc hdraw rfl,
        fun _ => ⟨timeout_trace_length rfl s _ _ _, timeout_trace_length rfl s _ _ _⟩, nofun⟩
    | ok =>
      have hopen : WindowOpens s c s.profile.ctrls[c] rest :=
        ⟨hvok, ⟨w, hq⟩, List.getElem?_eq_getElem hc, hdraw⟩
      obtain ⟨t, hset, ht⟩ := exec_setctl_trace_length (d := d) hopen hfamily
      obtain ⟨v, hclear, hv⟩ := exec_clrctl_trace_length hopen hfamily
      exact ⟨t, v, hset, hclear, nofun, fun _ => ⟨ht, hv⟩⟩

end Sys2Proof.Machine
